-- ==== Sys2Proof/Word.lean ====
section
/-! DEFINITION. The word types of the block (rule R6): 32-bit words, addresses, the 72-bit command word. -/

namespace Sys2Proof

/-- A word is 32 bits, bit 0 the least significant (R6). Register contents, pin masks and results. -/
abbrev Word := BitVec 32

/-- An address of either space of R50. The spec gives no width and asks only for "opaque values
with an addition" (R50), so an address is a natural number and an addition never wraps. -/
abbrev Addr := Nat

/-- A command word, 72 bits (R70). -/
abbrev Cmd := BitVec 72

end Sys2Proof
end

