-- ==== Sys2Proof/Syntax.lean ====
section
/-! DEFINITION. The eight operations of the opcode table (R71), one constructor per row, with the
operands each uses (R72). -/

namespace Sys2Proof

/-- A command the block executes. An operand an operation does not use is not part of it: the field
is ignored (R72). `bank` is an index, "the unsigned number" of a 4-bit field (R72), so a `Nat`;
`mask` and `value` are words. The context operand is implicit (R70). -/
inductive Instr where
  /-- `initialize`, op 0x0 (R83). -/
  | initializeContext
  /-- `finalize`, op 0x1 (R84). -/
  | finalizeContext
  /-- `set_output`, op 0x2 (R91). -/
  | setOutput (bank : Nat) (mask value : Word)
  /-- `set_input`, op 0x3 (R94). -/
  | setInput (bank : Nat) (mask : Word)
  /-- `get_direction`, op 0x4 (R97). -/
  | getDirection (bank : Nat) (mask : Word)
  /-- `set_dataout`, op 0x5 (R105). -/
  | setDataout (bank : Nat) (mask : Word)
  /-- `clr_dataout`, op 0x6 (R108). -/
  | clrDataout (bank : Nat) (mask : Word)
  /-- `get_datain`, op 0x7 (R111). -/
  | getDatain (bank : Nat) (mask : Word)
  deriving DecidableEq, Repr

end Sys2Proof
end

