-- ==== Sys2Proof/WellFormed.lean ====
section
/-! DEFINITION. Which terms of `Instr` a command word can carry (R70). -/

namespace Sys2Proof

/-- A bank index fits the 4-bit bank field (R70, R75). Whether it names a bank of the strapped
backend is a precondition of the command, not of the encoding (R75). -/
def bankFits (bank : Nat) : Bool := bank < 16

/-- A well-formed instruction: every operand fits its field. Masks and values are words by type, and
every 32-bit mask is accepted (R90). -/
def Instr.wf : Instr → Bool
  | .initializeContext => true
  | .finalizeContext => true
  | .setOutput bank _ _ => bankFits bank
  | .setInput bank _ => bankFits bank
  | .getDirection bank _ => bankFits bank
  | .setDataout bank _ => bankFits bank
  | .clrDataout bank _ => bankFits bank
  | .getDatain bank _ => bankFits bank

end Sys2Proof
end

