-- ==== Sys2Proof/Decode.lean ====
section
/-! DEFINITION. The command word: its decoder, total on all 72-bit patterns (R76), and its encoder,
both from the table of R70 and R71. -/

namespace Sys2Proof

/-- What a command word selects: one of the eight operations, or a reserved opcode by its number
(R74, R76). -/
inductive Decoded where
  | instr (i : Instr)
  | reserved (op : BitVec 4)
  deriving DecidableEq, Repr

/-- `CMD[71:68]` (R70). -/
def Cmd.op (w : Cmd) : BitVec 4 := w.extractLsb' 68 4

/-- `CMD[67:64]` as the unsigned number it is (R70, R72). -/
def Cmd.bank (w : Cmd) : Nat := (w.extractLsb' 64 4).toNat

/-- `CMD[63:32]` (R70). -/
def Cmd.mask (w : Cmd) : Word := w.extractLsb' 32 32

/-- `CMD[31:0]` (R70). -/
def Cmd.value (w : Cmd) : Word := w.extractLsb' 0 32

/-- The decoder (R71, R72, R74). Fields an operation does not use are dropped. -/
def decode (w : Cmd) : Decoded :=
  match (Cmd.op w).toNat with
  | 0 => .instr .initializeContext
  | 1 => .instr .finalizeContext
  | 2 => .instr (.setOutput (Cmd.bank w) (Cmd.mask w) (Cmd.value w))
  | 3 => .instr (.setInput (Cmd.bank w) (Cmd.mask w))
  | 4 => .instr (.getDirection (Cmd.bank w) (Cmd.mask w))
  | 5 => .instr (.setDataout (Cmd.bank w) (Cmd.mask w))
  | 6 => .instr (.clrDataout (Cmd.bank w) (Cmd.mask w))
  | 7 => .instr (.getDatain (Cmd.bank w) (Cmd.mask w))
  | _ => .reserved (Cmd.op w)

/-- The four fields of R70 as one word, `op` highest. -/
def packCmd (op bank : BitVec 4) (mask value : Word) : Cmd :=
  op ++ bank ++ mask ++ value

/-- The opcode of an operation (R71). -/
def Instr.opcode : Instr → BitVec 4
  | .initializeContext => 0x0
  | .finalizeContext => 0x1
  | .setOutput _ _ _ => 0x2
  | .setInput _ _ => 0x3
  | .getDirection _ _ => 0x4
  | .setDataout _ _ => 0x5
  | .clrDataout _ _ => 0x6
  | .getDatain _ _ => 0x7

/-- The encoder; unused fields assemble to zero (R70, R71, R77). -/
def encode (i : Instr) : Cmd :=
  match i with
  | .initializeContext => packCmd i.opcode 0 0 0
  | .finalizeContext => packCmd i.opcode 0 0 0
  | .setOutput bank mask value => packCmd i.opcode (.ofNat 4 bank) mask value
  | .setInput bank mask => packCmd i.opcode (.ofNat 4 bank) mask 0
  | .getDirection bank mask => packCmd i.opcode (.ofNat 4 bank) mask 0
  | .setDataout bank mask => packCmd i.opcode (.ofNat 4 bank) mask 0
  | .clrDataout bank mask => packCmd i.opcode (.ofNat 4 bank) mask 0
  | .getDatain bank mask => packCmd i.opcode (.ofNat 4 bank) mask 0

/-- The command word whose bits are `w`, every bit from `nbits` up being zero. -/
def cmdOfTable (nbits w : Nat) : Cmd := BitVec.ofNat 72 (w % 2 ^ nbits)

/-- The instruction the decoder reads from a row of spec/opcode_table.json: `none` for a reserved
opcode, and for a word longer than a command, of which there is none (R76). -/
def decodeTableWord (nbits w : Nat) : Option Instr :=
  if nbits ≤ 72 then
    match decode (cmdOfTable nbits w) with
    | .instr i => some i
    | .reserved _ => none
  else none

end Sys2Proof
end

