-- ==== Sys2Proof/Config.lean ====
section
/-! DEFINITION. What an implementation fixes (the parameters of R5) and the free values: every
value the spec leaves as `any`, as a constant without a body. -/

namespace Sys2Proof

/-- The strap `BACKEND` (R9): which of the two controller families this instance drives. -/
inductive Backend where
  | A
  | B
  deriving DecidableEq, Repr, Inhabited

/-- One physical window: `REGION_BASE(k,r)` and `REGION_LEN(k,r)`, the length in bytes (R5). -/
structure Window where
  base : Addr
  len : Nat
  deriving DecidableEq, Repr, Inhabited

/-- Where a bank lies: `BANK_REGION(k,b)` and `BANK_OFFSET(k,b)` (R5). -/
structure BankPlace where
  region : Nat
  offset : Nat
  deriving DecidableEq, Repr, Inhabited

/-- The parameters one backend has: `NAME(k)`, the windows (so `NREGIONS(k)` is their number) and
the place of each of its `n` banks (R5). -/
structure Layout (n : Nat) where
  name : String
  windows : List Window
  banks : Vector BankPlace n
  deriving DecidableEq, Repr, Inhabited

/-- `OFF(A, reg-kind)`: byte offsets from the bank base (R5, R55). -/
structure OffsetsA where
  fsel : Nat
  set : Nat
  clr : Nat
  lev : Nat
  deriving DecidableEq, Repr, Inhabited

/-- `OFF(B, reg-kind)`: byte offsets from the bank base (R5, R55). -/
structure OffsetsB where
  oe : Nat
  dataIn : Nat
  dataOut : Nat
  setDataOut : Nat
  clearDataOut : Nat
  deriving DecidableEq, Repr, Inhabited

/-- The parameters the spec leaves open (R5). `narrowB` says which banks of Backend B are narrow,
that is `VALID(B,b) = 0x003FFFFF`. The strap is not here: it is sampled at reset into the state. -/
structure Config where
  layoutA : Layout 2
  layoutB : Layout 6
  offA : OffsetsA
  offB : OffsetsB
  narrowB : Vector Bool 6
  deriving DecidableEq, Repr, Inhabited

/-- The cause code of a failed `map`: an opaque non-zero 32-bit value (R80, D20). -/
abbrev ErrCode := { e : Word // e ≠ 0 }

/-- The answer of the platform to a `map` request (R80). -/
inductive MapAnswer where
  | ok (handle : Addr)
  | fail (e : ErrCode)
  deriving DecidableEq, Repr, Inhabited

/-- What the controller drives onto a pin (R37). -/
inductive Pad where
  | z
  | low
  | high
  deriving DecidableEq, Repr, Inhabited

/-! ### Free values. No proof can see what they are. Each is applied to the moment
(`State.moment`, which every access, request and response advances). -/

/-- The parameters of the board the block is built into (R5): all open. -/
opaque Config.board : Config

/-- The strap as it stands when reset is released (R9): open. -/
opaque Config.strap : Backend

/-- How many register-bus accesses complete before one fails, `none` if every one completes
(R122, D33), for the state after reset: open. -/
opaque Config.busLife : Option Nat

/-- The platform's answer to a `map` request issued at a moment for which the state lists none
(R80, U13). -/
opaque Config.freeMapAnswer : Nat → MapAnswer

/-- The external pin levels sampled at a moment for which the state lists none (R36, U12). -/
opaque Config.freePins : Nat → Word

/-- The bits of a level or data-in word that the spec leaves as `any` (R58, R64; U9, U10, U11). -/
opaque Config.freeBits : Nat → Word

/-- The result bit of `get_direction` for a field that is neither input nor output (R98, U8). -/
opaque Config.freeDirection : Nat → Bool

/-- What `PLAT_ERR` holds where the spec does not define it (R27, R81, U14). -/
opaque Config.freeError : Nat → Word

/-- The pad of a Backend A pin whose field is neither input nor output, at a moment, for a bank
and a pin (R37, U9). -/
opaque Config.freePad : Nat → Nat → Nat → Pad

end Sys2Proof
end

