-- ==== Sys2Proof/Machine/State.lean ====
section
/-! DEFINITION. The state of one instance of the block and of the controller it drives (R20), the
ways a step can stop, and the state after reset (R41, R42). -/

namespace Sys2Proof.Machine

/-- `CTX` (R21). -/
inductive Ctx where
  | none
  | valid
  deriving DecidableEq, Repr, Inhabited

/-- The record of one region: `MAPPED[r]` and `HANDLE[r]` in one, since the handle is "meaningful
only while `MAPPED[r] = 1`" (R21). -/
inductive Region where
  | unmapped
  | mapped (handle : Addr)
  deriving DecidableEq, Repr, Inhabited

/-- Backend A controller state: `A.FSEL[0..5]` (R28) and the hidden `A.LATCH[0..1]` (R30). -/
structure CtlA where
  fsel : Vector Word 6
  latch : Vector Word 2
  deriving DecidableEq, Repr, Inhabited

/-- Backend B controller state: `B.OE[0..5]` (R32) and `B.DATAOUT[0..5]` (R33). -/
structure CtlB where
  oe : Vector Word 6
  dataOut : Vector Word 6
  deriving DecidableEq, Repr, Inhabited

/-- The controller of this instance: one backend's state and none of the other's (R44). Which of the
two it is, is the strap `BACKEND` as sampled at reset (R9, R41). -/
inductive Controller where
  | a (c : CtlA)
  | b (c : CtlB)
  deriving DecidableEq, Repr, Inhabited

/-- The controller registers the block addresses (R28, R31 to R35). The ports among them hold
nothing of their own (R20). The index is the word for `fsel` and the bank for the others. -/
inductive Reg where
  | fsel (w : Nat)
  | set (b : Nat)
  | clr (b : Nat)
  | lev (b : Nat)
  | oe (b : Nat)
  | dataIn (b : Nat)
  | dataOut (b : Nat)
  | setDataOut (b : Nat)
  | clearDataOut (b : Nat)
  deriving DecidableEq, Repr, Inhabited

/-- The status field of a response (R73). -/
inductive Status where
  | ok
  | mapFail
  | illegalOp
  deriving DecidableEq, Repr, Inhabited

/-- A response word's two fields (R73). -/
structure Response where
  status : Status
  data : Word
  deriving DecidableEq, Repr, Inhabited

/-- What can be seen at the block's ports (D1): a read or write on the register bus, with its
address, the register it reached and the word; a request on the platform port; a response. -/
inductive Event where
  | read (addr : Addr) (reg : Reg) (v : Word)
  | write (addr : Addr) (reg : Reg) (v : Word)
  | map (base : Addr) (len : Nat) (answer : MapAnswer)
  | unmap (handle : Addr) (len : Nat)
  | respond (r : Response)
  deriving DecidableEq, Repr

/-- The machine. The first five fields below `cfg` are the state of R20. `cfg` holds the parameters
of R5, which no step changes. The rest is the model's own: the world outside the block as plain data
(`cmds`, `mapAnswers`, `pinIn`, `busLife`), the record of what passed its ports (`trace`), and the
counter the free values are applied to (`moment`). -/
structure State where
  /-- The open parameters (R5). -/
  cfg : Config
  /-- The controller registers, and with them `BACKEND` (R28, R30, R32, R33, R44). -/
  ctl : Controller
  /-- `CTX` (R21). -/
  ctx : Ctx
  /-- `MAPPED[r]`, `HANDLE[r]`, r = 0 .. NREGIONS-1 (R21). -/
  regions : List Region
  /-- `BANKBASE[b]`, b = 0 .. NBANKS-1, or the empty list while it "holds no value" (R21, R82). -/
  bankBase : List Addr
  /-- `PLAT_ERR` (R27). -/
  platErr : Word
  /-- The commands the host presents from here on, the next one first (R8, R39). -/
  cmds : List Cmd
  /-- The answers of the platform to the next `map` requests, the next one first; a free value
  answers a request beyond the list (R80). -/
  mapAnswers : List MapAnswer
  /-- The external levels `PIN_IN` of the addressed bank at the next sampling reads, the next one
  first; a free value stands for a sample beyond the list (R36). -/
  pinIn : List Word
  /-- How many more register-bus accesses complete before one fails; `none`: every one completes
  (R122). -/
  busLife : Option Nat
  /-- What has passed the ports so far, the earliest first (R54, R66). -/
  trace : List Event
  /-- How many events have passed: the argument of the free values. -/
  moment : Nat
  deriving DecidableEq, Repr

/-- Why the machine stops for good. -/
inductive Fault where
  /-- BusFault (R122): a register-bus access did not complete, raised by any access of a per-bank
  operation. `left` is the state left, with the effects of the accesses before the failing one and
  of no later one. Safe: the spec gives the machine no further step. -/
  | busFault (left : State)
  deriving DecidableEq, Repr

/-- Why a command has no meaning: it is Undefined, "a model refuses such a command" (R123). -/
inductive Refusal where
  /-- An instruction the model gives no meaning yet. Raised by `exec` alone; no arm does. Safe. -/
  | notModelled (mnemonic : String)
  /-- A per-bank operation or `finalize` while `CTX = NONE` (R123 (b)). Safe. -/
  | noContext
  /-- `initialize` while `CTX = VALID` (R123 (b)). Safe. -/
  | contextExists
  /-- A per-bank operation with `bank >= NBANKS(BACKEND)` (R123 (a)). Safe. -/
  | bankOutOfRange
  deriving DecidableEq, Repr

/-- The strap `BACKEND` as sampled at reset (R9). -/
def State.backend (s : State) : Backend :=
  match s.ctl with
  | .a _ => .A
  | .b _ => .B

/-- `REGION_BASE(k,r)` and `REGION_LEN(k,r)` for r = 0 .. NREGIONS(k)-1 (R5). -/
def regionWindows (cfg : Config) : Backend → List Window
  | .A => cfg.layoutA.windows
  | .B => cfg.layoutB.windows

/-- A controller of the strapped backend with every register zero: the reset value this model names
for registers to which the spec gives none (R42; DESIGN CHOICE, notes/assumptions/1.md). -/
def Controller.zeros : Backend → Controller
  | .A => .a ⟨Vector.replicate 6 0, Vector.replicate 2 0⟩
  | .B => .b ⟨Vector.replicate 6 0, Vector.replicate 6 0⟩

/-- The state reset leaves (R41, R42), for given parameters, controller contents and bus: no
context, no region mapped, no bank base, nothing presented yet, nothing on the ports. `PLAT_ERR` is
zero (DESIGN CHOICE, notes/assumptions/2.md). -/
def State.afterReset (cfg : Config) (ctl : Controller) (busLife : Option Nat) : State where
  cfg := cfg
  ctl := ctl
  ctx := .none
  regions := (regionWindows cfg (match ctl with | .a _ => .A | .b _ => .B)).map fun _ => .unmapped
  bankBase := []
  platErr := 0
  cmds := []
  mapAnswers := []
  pinIn := []
  busLife := busLife
  trace := []
  moment := 0

/-- The machine right after reset: parameters, strap and bus open, controller registers zero. -/
def State.reset : State :=
  State.afterReset Config.board (Controller.zeros Config.strap) Config.busLife

end Sys2Proof.Machine
end

