-- ==== Sys2Proof/Machine/Operands.lean ====
section
/-! DEFINITION. Operands: bank counts, clipping, the place of a pin in Backend A, bit fields of a
word, the registers of a controller by index. -/

namespace Sys2Proof.Machine

/-! ### Banks and masks (R4, R5, R23, R24) -/

/-- `NBANKS(k)` (R4). -/
def nbanks : Backend → Nat
  | .A => 2
  | .B => 6

/-- The valid-pin mask of a full-width bank (R4). -/
def fullMask : Word := 0xFFFFFFFF

/-- `NARROW_MASK`: 22 usable pins (R4). -/
def narrowMask : Word := 0x003FFFFF

/-- `VALID(k,b)`: bank 1 of Backend A is narrow (R4); of Backend B the parameter says which (R5). -/
def validMask (cfg : Config) (k : Backend) (b : Nat) : Word :=
  match k with
  | .A => if b = 1 then narrowMask else fullMask
  | .B => if cfg.narrowB.getD b false then narrowMask else fullMask

/-- `VALID(BACKEND,b)` of this instance. -/
def State.validMask (s : State) (b : Nat) : Word :=
  Machine.validMask s.cfg s.backend b

/-- `clip(BACKEND, b, M)` (R24). -/
def State.clip (s : State) (b : Nat) (mask : Word) : Word :=
  mask &&& s.validMask b

/-! ### Bits and fields of a word (R6) -/

/-- The bits `0 .. n-1` of `f` as a word, zeros above. -/
def bitsBelow (f : Nat → Bool) : Nat → Word
  | 0 => 0
  | n + 1 => bitsBelow f n ||| (if f n then (1 : Word) <<< n else 0)

/-- The word whose bit i is `f i`. -/
def wordOfBits (f : Nat → Bool) : Word := bitsBelow f 32

/-- The 3-bit field of `t` whose low bit is bit `sh` (R98). -/
def getField (t : Word) (sh : Nat) : Word := (t >>> sh) &&& 0b111

/-- `t` with that field cleared and `code` or-ed in (R92, R95). -/
def setField (t : Word) (sh : Nat) (code : Word) : Word :=
  (t &&& ~~~((0b111 : Word) <<< sh)) ||| (code <<< sh)

/-- `FSEL_IN` (R4). -/
def fselIn : Word := 0b000

/-- `FSEL_OUT` (R4). -/
def fselOut : Word := 0b001

/-! ### The place of a pin (R29) -/

/-- The owning function-select word of a pin and the low bit of its field. -/
structure PinPlace where
  word : Nat
  shift : Nat
  deriving DecidableEq, Repr

/-- Pin `i` of bank `b`: the controller-wide number is `32*b + i`, ten pins to a word, three bits to
a pin (R29, D8). -/
def pinPlace (b i : Nat) : PinPlace :=
  let g := 32 * b + i
  ⟨g / 10, (g % 10) * 3⟩

/-! ### Registers by index -/

/-- `A.FSEL[w]`. -/
def CtlA.fselWord (c : CtlA) (w : Nat) : Word := c.fsel.getD w 0

/-- `A.LATCH[b]`. -/
def CtlA.latchWord (c : CtlA) (b : Nat) : Word := c.latch.getD b 0

/-- `B.OE[b]`. -/
def CtlB.oeWord (c : CtlB) (b : Nat) : Word := c.oe.getD b 0

/-- `B.DATAOUT[b]`. -/
def CtlB.dataOutWord (c : CtlB) (b : Nat) : Word := c.dataOut.getD b 0

/-- `A.FSEL[w] <- v`. -/
def CtlA.setFsel (c : CtlA) (w : Nat) (v : Word) : CtlA :=
  { c with fsel := c.fsel.setIfInBounds w v }

/-- `A.LATCH[b] <- v`. -/
def CtlA.setLatch (c : CtlA) (b : Nat) (v : Word) : CtlA :=
  { c with latch := c.latch.setIfInBounds b v }

/-- `B.OE[b] <- v`. -/
def CtlB.setOe (c : CtlB) (b : Nat) (v : Word) : CtlB :=
  { c with oe := c.oe.setIfInBounds b v }

/-- `B.DATAOUT[b] <- v`. -/
def CtlB.setDataOut (c : CtlB) (b : Nat) (v : Word) : CtlB :=
  { c with dataOut := c.dataOut.setIfInBounds b v }

/-- `fsel(b,i)` (R25). -/
def CtlA.fieldOf (c : CtlA) (b i : Nat) : Word :=
  getField (c.fselWord (pinPlace b i).word) (pinPlace b i).shift

/-! ### What a sampling register returns (R58, R64) -/

/-- The word `A.LEV[b]` returns: the latch for an output pin, the sampled external level for an
input pin, `any` for a pin in another function and for a pin not valid in the bank (R58). -/
def levelWord (c : CtlA) (valid : Word) (b : Nat) (pins free : Word) : Word :=
  wordOfBits fun i =>
    if valid.getLsbD i then
      if c.fieldOf b i = fselOut then (c.latchWord b).getLsbD i
      else if c.fieldOf b i = fselIn then pins.getLsbD i
      else free.getLsbD i
    else free.getLsbD i

/-- The word `B.DATAIN[b]` returns: the sampled external level for a valid input pin, `any` for an
output pin and for a pin not valid in the bank (R34, R64). -/
def dataInWord (c : CtlB) (valid : Word) (b : Nat) (pins free : Word) : Word :=
  let sampled := valid &&& ~~~(c.oeWord b)
  (pins &&& sampled) ||| (free &&& ~~~sampled)

end Sys2Proof.Machine
end

