-- ==== Sys2Proof/Machine/AddressMap.lean ====
section
/-! DEFINITION. The two address spaces: the physical windows of the controller's registers, the
mapped windows of the block's own space, and the translation between them (R50, R51, R55). -/

namespace Sys2Proof.Machine

/-- The registers a controller has (R20): all that the block ever addresses (R50, R65). -/
def controllerRegs : Backend → List Reg
  | .A => (List.range 6).map .fsel ++ (List.range 2).map .set ++ (List.range 2).map .clr
      ++ (List.range 2).map .lev
  | .B => (List.range 6).map .oe ++ (List.range 6).map .dataIn ++ (List.range 6).map .dataOut
      ++ (List.range 6).map .setDataOut ++ (List.range 6).map .clearDataOut

/-- The bank from whose base a register is reached; every `A.FSEL` word from bank 0 (R55). -/
def Reg.bank : Reg → Nat
  | .fsel _ => 0
  | .set b => b
  | .clr b => b
  | .lev b => b
  | .oe b => b
  | .dataIn b => b
  | .dataOut b => b
  | .setDataOut b => b
  | .clearDataOut b => b

/-- The byte offset of a register from that bank base (R55). -/
def regOffset (cfg : Config) : Reg → Nat
  | .fsel w => cfg.offA.fsel + 4 * w
  | .set _ => cfg.offA.set
  | .clr _ => cfg.offA.clr
  | .lev _ => cfg.offA.lev
  | .oe _ => cfg.offB.oe
  | .dataIn _ => cfg.offB.dataIn
  | .dataOut _ => cfg.offB.dataOut
  | .setDataOut _ => cfg.offB.setDataOut
  | .clearDataOut _ => cfg.offB.clearDataOut

/-- `BANK_REGION(k,b)` and `BANK_OFFSET(k,b)` (R5). -/
def bankPlace (cfg : Config) (k : Backend) (b : Nat) : BankPlace :=
  match k with
  | .A => cfg.layoutA.banks.getD b default
  | .B => cfg.layoutB.banks.getD b default

/-- The windows of this instance. -/
def State.windows (s : State) : List Window := regionWindows s.cfg s.backend

/-- The physical address of a register: where its bank lies in its window, plus its offset
(R50, R51, R55). -/
def physAddr (cfg : Config) (k : Backend) (r : Reg) : Addr :=
  let p := bankPlace cfg k r.bank
  ((regionWindows cfg k)[p.region]?.getD default).base + p.offset + regOffset cfg r

/-- `ADDR(reg)`: the own-space address of a register (R55). -/
def State.regAddr (s : State) (r : Reg) : Addr :=
  s.bankBase.getD r.bank 0 + regOffset s.cfg r

/-- The physical address a word at own-space address `a` reaches through the mapped windows, the
lowest region first; `none` if no mapped window holds the whole word (R51). -/
def translate : List Window → List Region → Addr → Option Addr
  | w :: ws, .mapped h :: rs, a =>
    if h ≤ a ∧ a + 4 ≤ h + w.len then some (w.base + (a - h)) else translate ws rs a
  | _ :: ws, .unmapped :: rs, a => translate ws rs a
  | _, _, _ => none

/-- The register at a physical address. -/
def regAt (cfg : Config) (k : Backend) (p : Addr) : Option Reg :=
  (controllerRegs k).find? fun r => physAddr cfg k r == p

/-- The register an access at own-space address `a` reaches, if any. -/
def State.target (s : State) (a : Addr) : Option Reg :=
  (translate s.windows s.regions a).bind (regAt s.cfg s.backend)

/-- `HANDLE[r]`; zero while the region is not mapped, when the handle means nothing (R21). -/
def State.handle (s : State) (r : Nat) : Addr :=
  match s.regions[r]? with
  | some (.mapped h) => h
  | _ => 0

/-- `MAPPED[r]` (R21). -/
def Region.isMapped : Region → Bool
  | .unmapped => false
  | .mapped _ => true

/-- `BANKBASE[b] = HANDLE[BANK_REGION(b)] + BANK_OFFSET(b)` for every bank (R21, R83). -/
def State.derivedBases (s : State) : List Addr :=
  (List.range (nbanks s.backend)).map fun b =>
    let p := bankPlace s.cfg s.backend b
    s.handle p.region + p.offset

end Sys2Proof.Machine
end

