-- ==== Sys2Proof/Machine/Flags.lean ====
section
/-! DEFINITION. The hardware has no flags (R40); the only status is the status field of the response
word (R73). This file holds the response, its 36-bit word and sending it. -/

namespace Sys2Proof.Machine

/-- The status codes (R73). -/
def Status.code : Status → BitVec 4
  | .ok => 0x0
  | .mapFail => 0x1
  | .illegalOp => 0x2

/-- `RSP`, status in bits 35:32 and data in bits 31:0 (R73). -/
def Response.word (r : Response) : BitVec 36 := r.status.code ++ r.data

/-- The response a 36-bit word stands for; `none` for the status codes never produced (R73). -/
def Response.ofWord (w : BitVec 36) : Option Response :=
  match (w.extractLsb' 32 4).toNat with
  | 0 => some ⟨.ok, w.extractLsb' 0 32⟩
  | 1 => some ⟨.mapFail, w.extractLsb' 0 32⟩
  | 2 => some ⟨.illegalOp, w.extractLsb' 0 32⟩
  | _ => none

/-- An event passes the ports: it joins the record, and the moment advances (R54). -/
def State.log (s : State) (e : Event) : State :=
  { s with trace := s.trace ++ [e], moment := s.moment + 1 }

/-- `respond(status, data)` (R7, R73). -/
def State.respond (s : State) (status : Status) (data : Word) : State :=
  s.log (.respond ⟨status, data⟩)

/-- The response on the port: that of the last command, `none` before the first response. -/
def State.response (s : State) : Option Response :=
  match s.trace.getLast? with
  | some (.respond r) => some r
  | _ => none

/-- `PLAT_ERR` where "the value of `PLAT_ERR` is not defined" (R27): a free value. -/
def State.loseError (s : State) : State :=
  { s with platErr := Config.freeError s.moment }

end Sys2Proof.Machine
end

