-- ==== Sys2Proof/Machine/Ops.lean ====
section
/-! DEFINITION. The shared operations: a register-bus access, the two platform requests, the release
sequence, the two reported failures, and the frame of a per-bank operation. -/

namespace Sys2Proof.Machine

/-! ### Register-bus accesses -/

/-- How a sequence of accesses ends: with a value and a state, or at an access that did not complete,
with the state that leaves (R122). -/
inductive Access (α : Type) where
  | done (v : α) (s : State)
  | failed (left : State)
  deriving Repr

/-- The accesses of `x`, and then those of `f`; nothing follows a failed access (R66, R122). -/
def Access.andThen {α β : Type} (x : Access α) (f : α → State → Access β) : Access β :=
  match x with
  | .done v s => f v s
  | .failed s => .failed s

/-- One access completes: the state in which one fewer is to complete, or `none` if this one does
not complete (R122). -/
def State.busTick (s : State) : Option State :=
  match s.busLife with
  | none => some s
  | some 0 => none
  | some (n + 1) => some { s with busLife := some n }

/-- The external levels a sampling read gets at this moment (R36). -/
def State.pinSample (s : State) : Word := s.pinIn.headD (Config.freePins s.moment)

/-- What a read of a register returns; `none` for a register that is not read, or that this
controller does not have (R58, R59, R62, R63, R64, R65). -/
def State.regValue (s : State) (r : Reg) : Option Word :=
  match s.ctl with
  | .a c =>
    match r with
    | .fsel w => some (c.fselWord w)
    | .lev b => some (levelWord c (s.validMask b) b s.pinSample (Config.freeBits s.moment))
    | _ => none
  | .b c =>
    match r with
    | .oe b => some (c.oeWord b)
    | .dataOut b => some (c.dataOutWord b)
    | .dataIn b => some (dataInWord c (s.validMask b) b s.pinSample (Config.freeBits s.moment))
    | _ => none

/-- A sampling read takes the sample it got (R36); no other read changes anything (R58, R59, R62,
R63, R64). -/
def State.afterRead (s : State) (r : Reg) : State :=
  match r with
  | .lev _ => { s with pinIn := s.pinIn.tail }
  | .dataIn _ => { s with pinIn := s.pinIn.tail }
  | _ => s

/-- The controller after a write of `v` to a register, with its side effect; `none` for a register
that is not written, or that this controller does not have (R56, R57, R59, R60, R61, R62, R65). -/
def storeReg (ctl : Controller) (r : Reg) (v : Word) : Option Controller :=
  match ctl with
  | .a c =>
    match r with
    | .fsel w => some (.a (c.setFsel w v))
    | .set b => some (.a (c.setLatch b (c.latchWord b ||| v)))
    | .clr b => some (.a (c.setLatch b (c.latchWord b &&& ~~~v)))
    | _ => none
  | .b c =>
    match r with
    | .oe b => some (.b (c.setOe b v))
    | .setDataOut b => some (.b (c.setDataOut b (c.dataOutWord b ||| v)))
    | .clearDataOut b => some (.b (c.setDataOut b (c.dataOutWord b &&& ~~~v)))
    | _ => none

/-- `MemRead(a, 4)` (R7): the access completes or fails; it reaches the register at `a`, and fails
where there is none to read. -/
def memRead (a : Addr) (s : State) : Access Word :=
  match s.busTick with
  | none => .failed s
  | some s1 =>
    match s.target a with
    | none => .failed s
    | some r =>
      match s.regValue r with
      | none => .failed s
      | some v => .done v ((s1.afterRead r).log (.read a r v))

/-- `MemWrite(a, 4, v)` (R7). -/
def memWrite (a : Addr) (v : Word) (s : State) : Access Unit :=
  match s.busTick with
  | none => .failed s
  | some s1 =>
    match s.target a with
    | none => .failed s
    | some r =>
      match storeReg s.ctl r v with
      | none => .failed s
      | some ctl => .done () ({ s1 with ctl := ctl }.log (.write a r v))

/-- `RegRead(reg)` (R7). -/
def regRead (r : Reg) (s : State) : Access Word := memRead (s.regAddr r) s

/-- `RegWrite(reg, v)` (R7). -/
def regWrite (r : Reg) (v : Word) (s : State) : Access Unit := memWrite (s.regAddr r) v s

/-! ### Platform requests (R80, R81) -/

/-- The platform's answer to a request at this moment (R80). -/
def State.nextAnswer (s : State) : MapAnswer := s.mapAnswers.headD (Config.freeMapAnswer s.moment)

/-- Region record r gets the value x. -/
def State.setRegion (s : State) (r : Nat) (x : Region) : State :=
  { s with regions := s.regions.set r x }

/-- `PlatformMap(base, len)`: the request passes the port with its answer (R80). -/
def platformMap (w : Window) (s : State) : State :=
  { s with mapAnswers := s.mapAnswers.tail }.log (.map w.base w.len s.nextAnswer)

/-- `PlatformUnmap(h, len)`: it may leave any value in `PLAT_ERR` (R81). -/
def platformUnmap (h : Addr) (len : Nat) (s : State) : State :=
  (s.log (.unmap h len)).loseError

/-- How the mapping loop of `initialize` ends: every region mapped, or the code of the request that
failed (R83). -/
inductive MapRun where
  | allMapped (s : State)
  | failedWith (e : ErrCode) (s : State)
  deriving Repr

/-- The loop of R83 from region r on, over the windows from r on: the first failure ends it, with
its code in `PLAT_ERR` (R80). -/
def mapFrom (r : Nat) : List Window → State → MapRun
  | [], s => .allMapped s
  | w :: ws, s =>
    match s.nextAnswer with
    | .ok h => mapFrom (r + 1) ws ((platformMap w s).setRegion r (.mapped h))
    | .fail e => .failedWith e { platformMap w s with platErr := e.val }

/-- The loop of R82 from region r on: a region that is mapped is unmapped. -/
def releaseFrom (r : Nat) : List Window → State → State
  | [], s => s
  | w :: ws, s =>
    match s.regions[r]? with
    | some (.mapped h) => releaseFrom (r + 1) ws ((platformUnmap h w.len s).setRegion r .unmapped)
    | _ => releaseFrom (r + 1) ws s

/-- `release_all()` (R82). -/
def releaseAll (s : State) : State :=
  { releaseFrom 0 s.windows s with bankBase := [], ctx := .none }

/-! ### The two reported failures (R120) -/

/-- MapFailure: what was mapped is released, the code of the failing request is kept in `PLAT_ERR`
over the release and reported (R83, R121, R127). -/
def takeMapFailure (e : ErrCode) (s : State) : State :=
  { releaseAll s with platErr := e.val }.respond .mapFail e.val

/-- IllegalOp: only the response (R74, R124). -/
def takeIllegalOp (s : State) : State := s.respond .illegalOp 0

/-! ### The frame of a per-bank operation (R90) -/

/-- The preconditions; a command that violates one is Undefined (R90, R123). -/
def withBank (bank : Nat) (s : State) (run : State → Host.Outcome State Fault Refusal) :
    Host.Outcome State Fault Refusal :=
  match s.ctx with
  | .none => .refused .noContext
  | .valid => if bank < nbanks s.backend then run s else .refused .bankOutOfRange

/-- The end of an operation with output "none": response (OK, 0); `PLAT_ERR` is then not defined
(R27, R73). -/
def finishWrite (x : Access Unit) : Host.Outcome State Fault Refusal :=
  match x with
  | .done _ s => .next (s.loseError.respond .ok 0)
  | .failed left => .fault (.busFault left)

/-- The end of an operation with output "bitmask": response (OK, r), no state changed (R73, R97,
R111). -/
def finishRead (x : Access Word) : Host.Outcome State Fault Refusal :=
  match x with
  | .done r s => .next (s.respond .ok r)
  | .failed left => .fault (.busFault left)

/-- The per-pin loop of Backend A: `body` for each listed pin that the mask selects, in the order
listed (R92, R95, D11). -/
def forPins (m : Word) (body : Nat → State → Access Unit) : List Nat → State → Access Unit
  | [], s => .done () s
  | i :: is, s =>
    if m.getLsbD i then (body i s).andThen fun _ s1 => forPins m body is s1
    else forPins m body is s

/-- The pins of a bank in ascending order. -/
def pinsAscending : List Nat := List.range 32

/-- The read-modify-write of one function-select field: one read, one write (R92, R95). -/
def rmwField (b : Nat) (code : Word) (i : Nat) (s : State) : Access Unit :=
  (regRead (.fsel (pinPlace b i).word) s).andThen fun t s1 =>
    regWrite (.fsel (pinPlace b i).word) (setField t (pinPlace b i).shift code) s1

/-- The whole-word read-modify-write of an output-enable register (R93, R96). -/
def rmwOe (b : Nat) (f : Word → Word) (s : State) : Access Unit :=
  (regRead (.oe b) s).andThen fun t s1 => regWrite (.oe b) (f t) s1

end Sys2Proof.Machine
end

