-- ==== Sys2Proof/Machine/Data.lean ====
section
/-! DEFINITION. The data operations `set_dataout`, `clr_dataout`, `get_datain` in their two backend
forms (R105 to R113). -/

namespace Sys2Proof.Machine

/-- `set_dataout` (R105): one write, `A.SET` (R106) or `B.SETDATAOUT` (R107). -/
def execSetDataout (bank : Nat) (mask : Word) (s : State) : Host.Outcome State Fault Refusal :=
  withBank bank s fun s =>
    let m := s.clip bank mask
    finishWrite <| match s.backend with
      | .A => regWrite (.set bank) m s
      | .B => regWrite (.setDataOut bank) m s

/-- `clr_dataout` (R108): one write, `A.CLR` (R109) or `B.CLEARDATAOUT` (R110). -/
def execClrDataout (bank : Nat) (mask : Word) (s : State) : Host.Outcome State Fault Refusal :=
  withBank bank s fun s =>
    let m := s.clip bank mask
    finishWrite <| match s.backend with
      | .A => regWrite (.clr bank) m s
      | .B => regWrite (.clearDataOut bank) m s

/-- `get_datain`, Backend A: one read of the level register (R112). -/
def getDatainA (bank : Nat) (m : Word) (s : State) : Access Word :=
  (regRead (.lev bank) s).andThen fun t s1 => .done (t &&& m) s1

/-- The level of each pin from output-enable, data-in and data-out (R113). -/
def reconstruct (oe di dout : Word) : Word := (oe &&& dout) ||| (~~~oe &&& di)

/-- `get_datain`, Backend B: output-enable, data-in, data-out, in that order (R113, D13). -/
def getDatainB (bank : Nat) (m : Word) (s : State) : Access Word :=
  (regRead (.oe bank) s).andThen fun oe s1 =>
    (regRead (.dataIn bank) s1).andThen fun di s2 =>
      (regRead (.dataOut bank) s2).andThen fun dout s3 =>
        .done (reconstruct oe di dout &&& m) s3

/-- `get_datain` (R111). -/
def execGetDatain (bank : Nat) (mask : Word) (s : State) : Host.Outcome State Fault Refusal :=
  withBank bank s fun s =>
    let m := s.clip bank mask
    finishRead <| match s.backend with
      | .A => getDatainA bank m s
      | .B => getDatainB bank m s

end Sys2Proof.Machine
end

