-- ==== Sys2Proof/Machine/Direction.lean ====
section
/-! DEFINITION. The direction operations `set_output`, `set_input`, `get_direction` in their two
backend forms (R91 to R99). -/

namespace Sys2Proof.Machine

/-! ### set_output -/

/-- The level part of `set_output`, Backend A: the set write and then the clear write, both always
issued (R92, D9, D10). -/
def setLevelsA (bank : Nat) (m value : Word) (s : State) : Access Unit :=
  (regWrite (.set bank) (m &&& value) s).andThen fun _ s1 =>
    regWrite (.clr bank) (m &&& ~~~value) s1

/-- `set_output`, Backend A (R92): levels first, then the direction of each selected pin. -/
def setOutputA (bank : Nat) (m value : Word) (s : State) : Access Unit :=
  (setLevelsA bank m value s).andThen fun _ s1 =>
    forPins m (rmwField bank fselOut) pinsAscending s1

/-- The level part of `set_output`, Backend B (R93). -/
def setLevelsB (bank : Nat) (m value : Word) (s : State) : Access Unit :=
  (regWrite (.setDataOut bank) (m &&& value) s).andThen fun _ s1 =>
    regWrite (.clearDataOut bank) (m &&& ~~~value) s1

/-- `set_output`, Backend B (R93). -/
def setOutputB (bank : Nat) (m value : Word) (s : State) : Access Unit :=
  (setLevelsB bank m value s).andThen fun _ s1 => rmwOe bank (fun t => t ||| m) s1

/-- `set_output` (R91). -/
def execSetOutput (bank : Nat) (mask value : Word) (s : State) :
    Host.Outcome State Fault Refusal :=
  withBank bank s fun s =>
    let m := s.clip bank mask
    finishWrite <| match s.backend with
      | .A => setOutputA bank m value s
      | .B => setOutputB bank m value s

/-! ### set_input -/

/-- `set_input`, Backend A (R95). -/
def setInputA (bank : Nat) (m : Word) (s : State) : Access Unit :=
  forPins m (rmwField bank fselIn) pinsAscending s

/-- `set_input`, Backend B (R96). -/
def setInputB (bank : Nat) (m : Word) (s : State) : Access Unit :=
  rmwOe bank (fun t => t &&& ~~~m) s

/-- `set_input` (R94). -/
def execSetInput (bank : Nat) (mask : Word) (s : State) : Host.Outcome State Fault Refusal :=
  withBank bank s fun s =>
    let m := s.clip bank mask
    finishWrite <| match s.backend with
      | .A => setInputA bank m s
      | .B => setInputB bank m s

/-! ### get_direction -/

/-- The result bit for a field: output, input, or `any` for the other encodings (R98, D12). -/
def directionBit (field : Word) (moment : Nat) : Bool :=
  if field = fselOut then true
  else if field = fselIn then false
  else Config.freeDirection moment

/-- The loop of `get_direction`, Backend A: one read per selected pin, `r` the bits so far (R98). -/
def readDirections (bank : Nat) (m : Word) : List Nat → Word → State → Access Word
  | [], r, s => .done r s
  | i :: is, r, s =>
    if m.getLsbD i then
      (regRead (.fsel (pinPlace bank i).word) s).andThen fun t s1 =>
        readDirections bank m is
          (if directionBit (getField t (pinPlace bank i).shift) s.moment then r ||| ((1 : Word) <<< i)
            else r) s1
    else readDirections bank m is r s

/-- `get_direction`, Backend A (R98). -/
def getDirectionA (bank : Nat) (m : Word) (s : State) : Access Word :=
  readDirections bank m pinsAscending 0 s

/-- `get_direction`, Backend B (R99). -/
def getDirectionB (bank : Nat) (m : Word) (s : State) : Access Word :=
  (regRead (.oe bank) s).andThen fun t s1 => .done (t &&& m) s1

/-- `get_direction` (R97). -/
def execGetDirection (bank : Nat) (mask : Word) (s : State) : Host.Outcome State Fault Refusal :=
  withBank bank s fun s =>
    let m := s.clip bank mask
    finishRead <| match s.backend with
      | .A => getDirectionA bank m s
      | .B => getDirectionB bank m s

end Sys2Proof.Machine
end

