-- ==== Sys2Proof/Machine/Lifecycle.lean ====
section
/-! DEFINITION. The two lifecycle operations, `initialize` and `finalize` (R83, R84). -/

namespace Sys2Proof.Machine

/-- What `initialize` leaves in a state without a context (R83). -/
def openContext (s : State) : State :=
  match mapFrom 0 s.windows s with
  | .failedWith e s1 => takeMapFailure e s1
  | .allMapped s1 =>
    { s1 with bankBase := s1.derivedBases, ctx := .valid }.loseError.respond .ok 0

/-- `initialize` (R83): Undefined while there is a context (R123). -/
def execInitialize (s : State) : Host.Outcome State Fault Refusal :=
  match s.ctx with
  | .valid => .refused .contextExists
  | .none => .next (openContext s)

/-- `finalize` (R84): Undefined while there is no context (R123). -/
def execFinalize (s : State) : Host.Outcome State Fault Refusal :=
  match s.ctx with
  | .none => .refused .noContext
  | .valid => .next ((releaseAll s).loseError.respond .ok 0)

end Sys2Proof.Machine
end

