-- ==== Sys2Proof/Machine/Dispatch.lean ====
section
/-! DEFINITION. One arm per operation. -/

namespace Sys2Proof.Machine

def exec (i : Instr) (s : State) : Host.Outcome State Fault Refusal :=
  match i with
  | .initializeContext => Sys2Proof.Machine.execInitialize s
  | .finalizeContext => Sys2Proof.Machine.execFinalize s
  | .setOutput bank mask value => Sys2Proof.Machine.execSetOutput bank mask value s
  | .setInput bank mask => Sys2Proof.Machine.execSetInput bank mask s
  | .getDirection bank mask => Sys2Proof.Machine.execGetDirection bank mask s
  | .setDataout bank mask => Sys2Proof.Machine.execSetDataout bank mask s
  | .clrDataout bank mask => Sys2Proof.Machine.execClrDataout bank mask s
  | .getDatain bank mask => Sys2Proof.Machine.execGetDatain bank mask s

end Sys2Proof.Machine
end

