-- ==== Sys2Proof/Machine/Step.lean ====
section
/-! DEFINITION. One step: the block takes the next command the host presents, runs it to its response,
and then takes the next (R8, R39). -/

namespace Sys2Proof.Machine

/-- One step. With no command presented the block waits (R135). A reserved opcode is answered before
anything else is looked at (R124, R126). -/
def step (s : State) : Host.Outcome State Fault Refusal :=
  match s.cmds with
  | [] => .next s
  | w :: rest =>
    match decode w with
    | .instr i => exec i { s with cmds := rest }
    | .reserved _ => .next (takeIllegalOp { s with cmds := rest })

/-- The command word whose bits are `w` is what the host presents next. -/
def State.withFetchWord (s : State) (nbits w : Nat) : State :=
  { s with cmds := cmdOfTable nbits w :: s.cmds }

end Sys2Proof.Machine
end

