-- ==== Sys2Proof/Machine/Assembler.lean ====
section
/-! DEFINITION. The textual syntax of commands and results (R77). -/

namespace Sys2Proof.Machine

/-- The operation's name (R71, R77). -/
def mnemonic : Instr → String
  | .initializeContext => "initialize"
  | .finalizeContext => "finalize"
  | .setOutput _ _ _ => "set_output"
  | .setInput _ _ => "set_input"
  | .getDirection _ _ => "get_direction"
  | .setDataout _ _ => "set_dataout"
  | .clrDataout _ _ => "clr_dataout"
  | .getDatain _ _ => "get_datain"

/-! ### Writing -/

/-- The hexadecimal digit of a number below 16. -/
def hexDigit (n : Nat) : Char :=
  if n < 10 then Char.ofNat (48 + n) else Char.ofNat (55 + n)

/-- A word in hexadecimal, eight digits (R77). -/
def hexWord (w : Word) : List Char :=
  '0' :: 'x' :: (List.range 8).map fun k => hexDigit (w.toNat / 16 ^ (7 - k) % 16)

/-- A bank in decimal (R77). -/
def decimalBank (bank : Nat) : List Char := Nat.toDigits 10 bank

/-- The used operands of an operation, as they are written (R72, R77). -/
def operandTexts : Instr → List (List Char)
  | .initializeContext => []
  | .finalizeContext => []
  | .setOutput bank mask value => [decimalBank bank, hexWord mask, hexWord value]
  | .setInput bank mask => [decimalBank bank, hexWord mask]
  | .getDirection bank mask => [decimalBank bank, hexWord mask]
  | .setDataout bank mask => [decimalBank bank, hexWord mask]
  | .clrDataout bank mask => [decimalBank bank, hexWord mask]
  | .getDatain bank mask => [decimalBank bank, hexWord mask]

/-- Operands with a comma and a space between them. -/
def commaSeparated : List (List Char) → List Char
  | [] => []
  | [t] => t
  | t :: ts => t ++ ',' :: ' ' :: commaSeparated ts

/-- A command as text: the mnemonic followed by its used operands (R77). -/
def commandText (i : Instr) : String :=
  match operandTexts i with
  | [] => mnemonic i
  | ts => String.ofList ((mnemonic i).toList ++ ' ' :: commaSeparated ts)

/-- A result as text (R77). -/
def resultText (data : Word) : String := String.ofList ('-' :: '>' :: ' ' :: hexWord data)

/-! ### Reading -/

/-- The value of a digit, either case of letters. -/
def digitValue (c : Char) : Option Nat :=
  let n := c.toNat
  if 48 ≤ n ∧ n ≤ 57 then some (n - 48)
  else if 65 ≤ n ∧ n ≤ 70 then some (n - 55)
  else if 97 ≤ n ∧ n ≤ 102 then some (n - 87)
  else none

/-- The digits `cs` after a number worth `acc`, in base `base`. -/
def readDigits (base : Nat) : List Char → Nat → Option Nat
  | [], acc => some acc
  | c :: cs, acc =>
    match digitValue c with
    | none => none
    | some d => if d < base then readDigits base cs (acc * base + d) else none

/-- A word: 0x and one to eight hexadecimal digits. -/
def readWord : List Char → Option Word
  | '0' :: 'x' :: d :: ds =>
    if ds.length < 8 then (readDigits 16 (d :: ds) 0).map (BitVec.ofNat 32) else none
  | _ => none

/-- A bank: decimal digits, fitting the bank field (R70). -/
def readBank : List Char → Option Nat
  | [] => none
  | d :: ds =>
    match readDigits 10 (d :: ds) 0 with
    | none => none
    | some n => if bankFits n then some n else none

/-- The pieces of a text between the separators `c`. -/
def splitAtChar (c : Char) : List Char → List (List Char)
  | [] => [[]]
  | x :: xs =>
    if x = c then [] :: splitAtChar c xs
    else
      match splitAtChar c xs with
      | [] => [[x]]
      | p :: ps => (x :: p) :: ps

/-- A text without the spaces it begins with. -/
def dropSpaces (cs : List Char) : List Char := cs.dropWhile (· = ' ')

/-- An operation of the form `<mnemonic> <bank>, <mask>`. -/
def readBankMask (make : Nat → Word → Instr) : List (List Char) → Option Instr
  | [b, m] =>
    match readBank b, readWord m with
    | some bank, some mask => some (make bank mask)
    | _, _ => none
  | _ => none

/-- `set_output <bank>, <mask>, <value>`. -/
def readSetOutput : List (List Char) → Option Instr
  | [b, m, v] =>
    match readBank b, readWord m, readWord v with
    | some bank, some mask, some value => some (.setOutput bank mask value)
    | _, _, _ => none
  | _ => none

/-- The operation of a name with operands that follow it. -/
def readOperation (name : List Char) (operands : List (List Char)) : Option Instr :=
  if name = "set_output".toList then readSetOutput operands
  else if name = "set_input".toList then readBankMask .setInput operands
  else if name = "get_direction".toList then readBankMask .getDirection operands
  else if name = "set_dataout".toList then readBankMask .setDataout operands
  else if name = "clr_dataout".toList then readBankMask .clrDataout operands
  else if name = "get_datain".toList then readBankMask .getDatain operands
  else none

/-- The instruction a text stands for, `none` if it is no command of R77. -/
def parseCommand (text : String) : Option Instr :=
  let cs := text.toList
  let name := cs.takeWhile (· ≠ ' ')
  match cs.dropWhile (· ≠ ' ') with
  | [] =>
    if name = "initialize".toList then some .initializeContext
    else if name = "finalize".toList then some .finalizeContext
    else none
  | _ :: rest => readOperation name ((splitAtChar ',' rest).map dropSpaces)

/-- The command word a text assembles to (R77). -/
def assemble (text : String) : Option Cmd := (parseCommand text).map encode

end Sys2Proof.Machine
end

