-- ==== Sys2Proof/Machine/Pins.lean ====
section
/-! DEFINITION. The views derived from state: direction and level of a pin (R25, R26), the pad (R37),
the capability outputs (R10). -/

namespace Sys2Proof.Machine

/-- A pin's direction; `other` for a Backend A field that is "neither" (R25). -/
inductive Dir where
  | input
  | output
  | other
  deriving DecidableEq, Repr

/-- The bank has the pin: `VALID(k,b)[i] = 1` (R25). -/
def State.hasPin (s : State) (b i : Nat) : Bool :=
  decide (b < nbanks s.backend) && (s.validMask b).getLsbD i

/-- `dir(b,i)` of a pin the bank has (R25). -/
def State.dir (s : State) (b i : Nat) : Dir :=
  match s.ctl with
  | .a c =>
    if c.fieldOf b i = fselOut then .output
    else if c.fieldOf b i = fselIn then .input
    else .other
  | .b c => if (c.oeWord b).getLsbD i then .output else .input

/-- The direction encoding of a pin: the function-select field, or the output-enable bit (R25). -/
def State.dirCode (s : State) (b i : Nat) : Word :=
  match s.ctl with
  | .a c => c.fieldOf b i
  | .b c => if (c.oeWord b).getLsbD i then 1 else 0

/-- The output bits of bank `b`: `A.LATCH[b]` or `B.DATAOUT[b]` (R26). -/
def State.outWord (s : State) (b : Nat) : Word :=
  match s.ctl with
  | .a c => c.latchWord b
  | .b c => c.dataOutWord b

/-- `out(b,i)` (R26). -/
def State.out (s : State) (b i : Nat) : Bool := (s.outWord b).getLsbD i

/-- `PAD[b][i]` of a pin the bank has: driven for an output, Z for an input, `any` for a pin in
another function (R37, D23). -/
def State.pad (s : State) (b i : Nat) : Pad :=
  match s.dir b i with
  | .output => if s.out b i then .high else .low
  | .input => .z
  | .other => Config.freePad s.moment b i

/-- The constant output `CAP_NAME` (R10). -/
def State.capName (s : State) : String :=
  match s.backend with
  | .A => s.cfg.layoutA.name
  | .B => s.cfg.layoutB.name

/-- The constant output `CAP_NBANKS` (R10). -/
def State.capNBanks (s : State) : Nat := nbanks s.backend

end Sys2Proof.Machine
end

