-- ==== Sys2Proof/Safety.lean ====
section
/-! DEFINITION. The terms claims are stated in: the constraints on the parameters, the invariants and
premises on a state, and the closed forms of what an operation does to registers and ports. -/

namespace Sys2Proof.Machine

/-! ### Constraints on the parameters (R5, R52, R55) -/

/-- At least one region (R5). -/
def hasRegion (cfg : Config) (k : Backend) : Bool := 1 ≤ (regionWindows cfg k).length

/-- Every bank lies in a region there is (R5). -/
def banksPlaced (cfg : Config) (k : Backend) : Bool :=
  (List.range (nbanks k)).all fun b => (bankPlace cfg k b).region < (regionWindows cfg k).length

/-- Every `REGION_BASE`, `BANK_OFFSET` and `OFF` is a multiple of 4 (R52). -/
def wordAligned (cfg : Config) (k : Backend) : Bool :=
  (regionWindows cfg k).all (fun w => w.base % 4 == 0) &&
  (List.range (nbanks k)).all (fun b => (bankPlace cfg k b).offset % 4 == 0) &&
  (controllerRegs k).all (fun r => regOffset cfg r % 4 == 0)

/-- Every register lies inside its window, the whole word (R55). -/
def regsInWindow (cfg : Config) (k : Backend) : Bool :=
  (controllerRegs k).all fun r =>
    let p := bankPlace cfg k r.bank
    p.offset + regOffset cfg r + 4 ≤ ((regionWindows cfg k)[p.region]?.getD default).len

/-- No two registers share an address (R55). -/
def regsDistinct (cfg : Config) (k : Backend) : Bool :=
  decide ((controllerRegs k).map (physAddr cfg k)).Nodup

/-- The constraints on one backend's parameters. -/
def backendWf (cfg : Config) (k : Backend) : Bool :=
  hasRegion cfg k && banksPlaced cfg k && wordAligned cfg k && regsInWindow cfg k
    && regsDistinct cfg k

/-- At least one backend has two regions or more (R5). -/
def someTwoRegions (cfg : Config) : Bool :=
  2 ≤ (regionWindows cfg .A).length || 2 ≤ (regionWindows cfg .B).length

/-- At least one bank of Backend B is narrow (R5). -/
def someNarrowB (cfg : Config) : Bool := cfg.narrowB.toList.any id

/-- The constraints on the parameters (R5, R52, R55). -/
def configWf (cfg : Config) : Bool :=
  backendWf cfg .A && backendWf cfg .B && someTwoRegions cfg && someNarrowB cfg

/-! ### Invariants and premises on a state -/

/-- The context invariant (R22): a valid context has every region mapped and every bank base
derived from them (R21); without one no region is mapped and no bank base holds a value (R82). -/
abbrev State.ContextInv (s : State) : Prop :=
  s.regions.length = s.windows.length ∧
  (s.ctx = .valid → (∀ r ∈ s.regions, r.isMapped = true) ∧ s.bankBase = s.derivedBases) ∧
  (s.ctx = .none → (∀ r ∈ s.regions, r.isMapped = false) ∧ s.bankBase = [])

/-- The address of every register reaches that register (R51, R55). -/
abbrev State.Reaches (s : State) : Prop :=
  ∀ r ∈ controllerRegs s.backend, s.target (s.regAddr r) = some r

/-- The next `n` register-bus accesses complete (R122, D33). -/
abbrev State.BusCompletes (s : State) (n : Nat) : Prop := ∀ k ∈ s.busLife, n ≤ k

/-- The answer the platform gives to the r-th `map` request from here on (R80). -/
def State.answerAt (s : State) (r : Nat) : MapAnswer :=
  s.mapAnswers.getD r (Config.freeMapAnswer (s.moment + r))

/-- The platform answers the requests from here on with the handles `hs`. -/
abbrev State.Grants (s : State) (hs : List Addr) : Prop :=
  ∀ r, (h : r < hs.length) → s.answerAt r = .ok hs[r]

/-- "every handle the platform returns to be word-aligned" (R52). -/
def Region.aligned : Region → Bool
  | .unmapped => true
  | .mapped h => h % 4 == 0

/-- Two windows of the block's own space have no address in common (R80, D30). -/
def windowsApart (h len h' len' : Nat) : Bool := h + len ≤ h' || h' + len' ≤ h

/-- "Two successful maps return handles of non-overlapping windows" (R80): the handles `hs`, for the
windows `ws`. -/
abbrev HandlesApart (ws : List Window) (hs : List Addr) : Prop :=
  ∀ r < hs.length, ∀ r' < hs.length, r ≠ r' →
    windowsApart (hs.getD r 0) (ws.getD r default).len (hs.getD r' 0) (ws.getD r' default).len
      = true

/-- A per-bank command of bank `b` is defined here and its registers are reached (R85, R90). -/
abbrev State.Ready (s : State) (b : Nat) : Prop :=
  s.ctx = .valid ∧ b < nbanks s.backend ∧ s.Reaches

/-- What a per-bank operation, or an idle step, leaves alone (R90): everything but the controller's
registers, `PLAT_ERR`, the pin samples, the bus and the ports. -/
abbrev State.SameContext (s t : State) : Prop :=
  t.cfg = s.cfg ∧ t.backend = s.backend ∧ t.ctx = s.ctx ∧ t.regions = s.regions ∧
  t.bankBase = s.bankBase ∧ t.cmds = s.cmds ∧ t.mapAnswers = s.mapAnswers

/-! ### What a command selects and how many accesses it makes -/

/-- The pins a clipped mask selects, ascending. -/
def selectedPins (m : Word) : List Nat := pinsAscending.filter fun i => m.getLsbD i

/-- The pins of `m` below pin `i`. -/
def pinsBelow (m : Word) (i : Nat) : Word := m &&& (((1 : Word) <<< i) - 1)

/-- The bank and mask operand of a per-bank operation. -/
def bankMask : Instr → Option (Nat × Word)
  | .initializeContext => none
  | .finalizeContext => none
  | .setOutput bank mask _ => some (bank, mask)
  | .setInput bank mask => some (bank, mask)
  | .getDirection bank mask => some (bank, mask)
  | .setDataout bank mask => some (bank, mask)
  | .clrDataout bank mask => some (bank, mask)
  | .getDatain bank mask => some (bank, mask)

/-- The number of register-bus accesses of a command (R92, R93, R95, R96, R98, R99, R106, R107, R109,
R110, R112, R113). -/
def accessCount (s : State) : Instr → Nat
  | .initializeContext => 0
  | .finalizeContext => 0
  | .setOutput bank mask _ =>
    match s.backend with
    | .A => 2 + 2 * (selectedPins (s.clip bank mask)).length
    | .B => 4
  | .setInput bank mask =>
    match s.backend with
    | .A => 2 * (selectedPins (s.clip bank mask)).length
    | .B => 2
  | .getDirection bank mask =>
    match s.backend with
    | .A => (selectedPins (s.clip bank mask)).length
    | .B => 1
  | .setDataout _ _ => 1
  | .clrDataout _ _ => 1
  | .getDatain _ _ =>
    match s.backend with
    | .A => 1
    | .B => 3

/-- The registers the block reads (R58, R59, R62, R63, R64, R65). -/
def Reg.isRead : Reg → Bool
  | .fsel _ => true
  | .set _ => false
  | .clr _ => false
  | .lev _ => true
  | .oe _ => true
  | .dataIn _ => true
  | .dataOut _ => true
  | .setDataOut _ => false
  | .clearDataOut _ => false

/-- The registers the block writes (R56, R57, R59, R60, R61, R62, R65). -/
def Reg.isWritten : Reg → Bool
  | .fsel _ => true
  | .set _ => true
  | .clr _ => true
  | .lev _ => false
  | .oe _ => true
  | .dataIn _ => false
  | .dataOut _ => false
  | .setDataOut _ => true
  | .clearDataOut _ => true

/-- A register through which a command on the pins `m` of bank `b` acts: one of the bank's own, or a
function-select word that holds the field of a pin of `m` (R29, R69). -/
def Reg.serves (r : Reg) (b : Nat) (m : Word) : Prop :=
  match r with
  | .fsel w => ∃ i, m.getLsbD i = true ∧ w = (pinPlace b i).word
  | _ => r.bank = b

/-- A register-bus access among the events. -/
def Event.isAccess : Event → Bool
  | .read _ _ _ => true
  | .write _ _ _ => true
  | .map _ _ _ => false
  | .unmap _ _ => false
  | .respond _ => false

/-- A `map` request among the events. -/
def Event.isMap : Event → Bool
  | .read _ _ _ => false
  | .write _ _ _ => false
  | .map _ _ _ => true
  | .unmap _ _ => false
  | .respond _ => false

/-- An `unmap` request among the events. -/
def Event.isUnmap : Event → Bool
  | .read _ _ _ => false
  | .write _ _ _ => false
  | .map _ _ _ => false
  | .unmap _ _ => true
  | .respond _ => false

/-- The commands to which the spec gives no meaning here (R85, R123). -/
def undefinedHere (s : State) (i : Instr) : Prop :=
  match i with
  | .initializeContext => s.ctx = .valid
  | .finalizeContext => s.ctx = .none
  | .setOutput bank _ _ => s.ctx = .none ∨ nbanks s.backend ≤ bank
  | .setInput bank _ => s.ctx = .none ∨ nbanks s.backend ≤ bank
  | .getDirection bank _ => s.ctx = .none ∨ nbanks s.backend ≤ bank
  | .setDataout bank _ => s.ctx = .none ∨ nbanks s.backend ≤ bank
  | .clrDataout bank _ => s.ctx = .none ∨ nbanks s.backend ≤ bank
  | .getDatain bank _ => s.ctx = .none ∨ nbanks s.backend ≤ bank

/-! ### Closed forms -/

/-- Output bits with the selected ones at `value` (R92, R93). -/
def withLevels (old m value : Word) : Word := (old &&& ~~~m) ||| (m &&& value)

/-- Bit `j` of word `w` belongs to the field of a selected pin of bank `b` (R28, R29). -/
def bitSelected (m : Word) (b w j : Nat) : Bool :=
  decide (j < 30) && decide (32 * b ≤ 10 * w + j / 3) && m.getLsbD (10 * w + j / 3 - 32 * b)

/-- The controller with the field of every selected pin of bank `b` holding `code`, and every other
bit of every function-select word as it was (R92, R95). -/
def CtlA.withDirections (c : CtlA) (b : Nat) (code m : Word) : CtlA :=
  { c with fsel := Vector.ofFn fun w => wordOfBits fun j =>
      if bitSelected m b w j then code.getLsbD (j % 3) else (c.fselWord w).getLsbD j }

/-- The controller with output bits of bank `b` at `value` for the selected pins. -/
def CtlA.withLevels (c : CtlA) (b : Nat) (m value : Word) : CtlA :=
  c.setLatch b (Machine.withLevels (c.latchWord b) m value)

/-- The same in Backend B. -/
def CtlB.withLevels (c : CtlB) (b : Nat) (m value : Word) : CtlB :=
  c.setDataOut b (Machine.withLevels (c.dataOutWord b) m value)

/-- What the register bus shows of a read, and of a write, of a register. -/
def State.readEvent (s : State) (r : Reg) (v : Word) : Event := .read (s.regAddr r) r v

@[inherit_doc State.readEvent]
def State.writeEvent (s : State) (r : Reg) (v : Word) : Event := .write (s.regAddr r) r v

/-- The two accesses for pin `i` in the direction loop, when the fields of the selected pins below it
already hold `code` (R92, R95). -/
def State.rmwEvents (s : State) (c : CtlA) (b : Nat) (code m : Word) (i : Nat) : List Event :=
  let p := pinPlace b i
  let old := (c.withDirections b code (pinsBelow m i)).fselWord p.word
  [s.readEvent (.fsel p.word) old, s.writeEvent (.fsel p.word) (setField old p.shift code)]

/-- The accesses of the whole direction loop, ascending (R92, R95, D11). -/
def State.directionEvents (s : State) (c : CtlA) (b : Nat) (code m : Word) : List Event :=
  (selectedPins m).flatMap (s.rmwEvents c b code m)

/-- The two level writes of `set_output`, Backend A (R92). -/
def State.levelEventsA (s : State) (b : Nat) (m value : Word) : List Event :=
  [s.writeEvent (.set b) (m &&& value), s.writeEvent (.clr b) (m &&& ~~~value)]

/-- The two level writes of `set_output`, Backend B (R93). -/
def State.levelEventsB (s : State) (b : Nat) (m value : Word) : List Event :=
  [s.writeEvent (.setDataOut b) (m &&& value), s.writeEvent (.clearDataOut b) (m &&& ~~~value)]

/-- What an event does to the controller: a write on the register bus has its side effect, nothing
else changes it (R54, R56, R57, R59, R60, R61, R62). -/
def replayEvent (ctl : Controller) : Event → Controller
  | .read _ _ _ => ctl
  | .write _ r v => (storeReg ctl r v).getD ctl
  | .map _ _ _ => ctl
  | .unmap _ _ => ctl
  | .respond _ => ctl

/-- What a sequence of events does to the controller. -/
def replay (ctl : Controller) (evs : List Event) : Controller := evs.foldl replayEvent ctl

/-- The `map` requests of windows `ws` answered with the handles `hs` (R83). -/
def grantEvents (ws : List Window) (hs : List Addr) : List Event :=
  List.zipWith (fun w h => .map w.base w.len (.ok h)) ws hs

/-- The `unmap` requests of windows `ws` mapped with the handles `hs`, ascending (R82). -/
def unmapEvents (ws : List Window) (hs : List Addr) : List Event :=
  List.zipWith (fun w h => .unmap h w.len) ws hs

/-- The `unmap` requests of the release sequence, ascending: one for each mapped region (R82). -/
def releaseEvents : List Window → List Region → List Event
  | w :: ws, .mapped h :: rs => .unmap h w.len :: releaseEvents ws rs
  | _ :: ws, .unmapped :: rs => releaseEvents ws rs
  | _, _ => []

/-- The state after `evs` have passed the ports, the accesses among them having completed, with
nothing else changed. -/
def State.afterEvents (s : State) (evs : List Event) : State :=
  { s with
    trace := s.trace ++ evs
    moment := s.moment + evs.length
    busLife := s.busLife.map (· - (evs.filter Event.isAccess).length) }

/-- The external levels the first sampling read gets when it comes after `n` other accesses (R36). -/
def State.sampleAfter (s : State) (n : Nat) : Word := s.pinIn.headD (Config.freePins (s.moment + n))

/-- The bank bases derived from the handles `hs`: `BANKBASE[b] = HANDLE[BANK_REGION(b)] +
BANK_OFFSET(b)` (R21, R83). -/
def State.basesFrom (s : State) (hs : List Addr) : List Addr :=
  (List.range (nbanks s.backend)).map fun b =>
    let p := bankPlace s.cfg s.backend b
    hs.getD p.region 0 + p.offset

/-- The state a command with output "none" leaves: its events, the controller, the response (OK, 0),
and `PLAT_ERR` not defined (R27, R73). -/
def State.afterWriteCommand (s : State) (ctl : Controller) (evs : List Event) : State :=
  { s.afterEvents (evs ++ [.respond ⟨.ok, 0⟩]) with
    ctl := ctl
    platErr := Config.freeError (s.moment + evs.length) }

/-- The state a command with output "bitmask" leaves: its events, the samples it took from the pin
environment, the response (OK, r); nothing else changes (R97, R111). -/
def State.afterReadCommand (s : State) (evs : List Event) (samples : Nat) (r : Word) : State :=
  { s.afterEvents (evs ++ [.respond ⟨.ok, r⟩]) with pinIn := s.pinIn.drop samples }

end Sys2Proof.Machine
end

