-- ==== Sys2Proof/Certificates/Slice0/Obligations.lean ====
section
/-! DEFINITION. The statements about the model. "Model's choice" in a docstring marks a clause that is
not a rule of the spec and names the assumption log's entry. -/

open Sys2Proof Sys2Proof.Machine

/-! ### Encoding -/

/-- Decoding the encoding of a well-formed instruction gives the instruction back, for every operand
value the fields of R70 admit. -/
def Obligations.DecodeEncodeRoundTrip : Prop :=
  ∀ i : Instr, i.wf = true → decode (encode i) = .instr i

/-- What every 72-bit word decodes to, field by field: the operation of its opcode with the bank as
the unsigned number, the mask and the value as they are, the unused fields dropped; opcodes 8 to 15
are reserved (R70, R71, R72, R74, R76). -/
def Obligations.EveryWordDecodesByItsFields : Prop :=
  ∀ (op bank : BitVec 4) (mask value : Word),
    decode (packCmd op bank mask value)
      = (if op = 0x0 then .instr .initializeContext
        else if op = 0x1 then .instr .finalizeContext
        else if op = 0x2 then .instr (.setOutput bank.toNat mask value)
        else if op = 0x3 then .instr (.setInput bank.toNat mask)
        else if op = 0x4 then .instr (.getDirection bank.toNat mask)
        else if op = 0x5 then .instr (.setDataout bank.toNat mask)
        else if op = 0x6 then .instr (.clrDataout bank.toNat mask)
        else if op = 0x7 then .instr (.getDatain bank.toNat mask)
        else .reserved op) ∧
    Cmd.op (packCmd op bank mask value) = op ∧
    ∀ w : Cmd, ∃ (op' bank' : BitVec 4) (mask' value' : Word), w = packCmd op' bank' mask' value'

/-- A decoded instruction is well formed, and encoding it gives the word back with the fields the
operation does not use set to zero (R72, R77). -/
def Obligations.EncodeGivesTheWordBack : Prop :=
  ∀ (w : Cmd) (i : Instr), decode w = .instr i → i.wf = true ∧
    encode i = (match i with
      | .initializeContext => w &&& 0xF00000000000000000
      | .finalizeContext => w &&& 0xF00000000000000000
      | .setOutput _ _ _ => w
      | .setInput _ _ => w &&& 0xFFFFFFFFFF00000000
      | .getDirection _ _ => w &&& 0xFFFFFFFFFF00000000
      | .setDataout _ _ => w &&& 0xFFFFFFFFFF00000000
      | .clrDataout _ _ => w &&& 0xFFFFFFFFFF00000000
      | .getDatain _ _ => w &&& 0xFFFFFFFFFF00000000)

/-- The words E1 to E13 of the spec's table 2.1, written out from the encoding of R70. -/
def Obligations.SpecWordsDecode : Prop :=
  decode 0x000000000000000000 = .instr .initializeContext ∧
  decode 0x100000000000000000 = .instr .finalizeContext ∧
  decode 0x210000000500000004 = .instr (.setOutput 1 0x00000005 0x00000004) ∧
  decode 0x300000000800000000 = .instr (.setInput 0 0x00000008) ∧
  decode 0x40000003FF00000000 = .instr (.getDirection 0 0x000003FF) ∧
  decode 0x558000000100000000 = .instr (.setDataout 5 0x80000001) ∧
  decode 0x600000003C00000000 = .instr (.clrDataout 0 0x0000003C) ∧
  decode 0x720000FFFF00000000 = .instr (.getDatain 2 0x0000FFFF) ∧
  decode 0x930000123400005678 = .reserved 0x9 ∧
  decode 0x0FDEADBEEF12345678 = .instr .initializeContext

/-- The response word: the status code in bits 35:32, the data in bits 31:0, and each word of a status
that is produced read back, no other word (R73). -/
def Obligations.ResponseWordRoundTrip : Prop :=
  (∀ r : Response, r.word.extractLsb' 32 4
      = (match r.status with | .ok => 0x0 | .mapFail => 0x1 | .illegalOp => 0x2) ∧
    r.word.extractLsb' 0 32 = r.data ∧ Response.ofWord r.word = some r) ∧
  (∀ (w : BitVec 36) (r : Response), Response.ofWord w = some r → r.word = w) ∧
  (∀ w : BitVec 36, 3 ≤ (w.extractLsb' 32 4).toNat → Response.ofWord w = none)

/-- A well-formed command written as text reads back as itself and assembles to its encoding (R77).
Model's choice: what else the reader accepts (log entry 17), of which this says nothing. -/
def Obligations.CommandTextRoundTrip : Prop :=
  ∀ i : Instr, i.wf = true →
    parseCommand (commandText i) = some i ∧ assemble (commandText i) = some (encode i)

/-! ### The step -/

/-- When the next command decodes to an instruction, the step is `exec` of it in the state without
that command. Model's choice: the host's commands are a list in the state (log entry 4). -/
def Obligations.StepRunsTheDecodedCommand : Prop :=
  ∀ (s : State) (w : Cmd) (rest : List Cmd) (i : Instr), s.cmds = w :: rest → decode w = .instr i →
    step s = exec i { s with cmds := rest }

/-- A reserved opcode is answered (ILLEGAL_OP, 0) in either `CTX` state, with no request, no access and
no state change: only the command taken, the response and the moment differ (R74, R124). Model's
choice: `PLAT_ERR` too is as before (log entry 9), as program P3 of the spec shows after a failed
`initialize`; R27 and U14 leave it undefined. -/
def Obligations.ReservedOpcodeOnlyAnswers : Prop :=
  ∀ (s : State) (w : Cmd) (rest : List Cmd), s.cmds = w :: rest → 8 ≤ (Cmd.op w).toNat →
    step s = .next { s with
      cmds := rest
      trace := s.trace ++ [.respond ⟨.illegalOp, 0⟩]
      moment := s.moment + 1 }

/-! ### Reset and the lifecycle -/

/-- What reset leaves of the block's own state: no context, no region mapped, no bank base, the strap,
no command in execution (R41). No value of `PLAT_ERR` or of a controller register is stated. -/
def Obligations.ResetLeavesNoContext : Prop :=
  State.reset.ctx = .none ∧ (∀ r ∈ State.reset.regions, r = .unmapped) ∧
  State.reset.regions.length = State.reset.windows.length ∧ State.reset.bankBase = [] ∧
  State.reset.backend = Config.strap ∧ State.reset.cmds = [] ∧ State.reset.trace = []

/-- The context invariant holds after reset, for all parameters, controller contents and buses (R22,
R41). -/
def Obligations.ContextInvariantAfterReset : Prop :=
  ∀ (cfg : Config) (ctl : Controller) (bus : Option Nat), (State.afterReset cfg ctl bus).ContextInv

/-- Which commands are defined in which state, and where each leads: a command is refused exactly
where the table has no meaning for it, and otherwise `CTX` goes where the table says; a reserved
opcode is answered (ILLEGAL_OP, 0) in either state, which stays (R85). -/
def Obligations.LifecycleTable : Prop :=
  (∀ (s : State) (i : Instr),
    ((∃ r, exec i s = .refused r) ↔ undefinedHere s i) ∧
    ∀ t, exec i s = .next t →
      match i with
      | .initializeContext =>
        (t.ctx = .valid ∧ t.response = some ⟨.ok, 0⟩) ∨
          (t.ctx = .none ∧ ∃ e, t.response = some ⟨.mapFail, e⟩)
      | .finalizeContext => t.ctx = .none
      | .setOutput _ _ _ => t.ctx = .valid
      | .setInput _ _ => t.ctx = .valid
      | .getDirection _ _ => t.ctx = .valid
      | .setDataout _ _ => t.ctx = .valid
      | .clrDataout _ _ => t.ctx = .valid
      | .getDatain _ _ => t.ctx = .valid) ∧
  ∀ (s : State) (w : Cmd) (rest : List Cmd), s.cmds = w :: rest → 8 ≤ (Cmd.op w).toNat →
    ∃ t, step s = .next t ∧ t.ctx = s.ctx ∧ t.response = some ⟨.illegalOp, 0⟩

/-- `initialize`: refused with a context. Without one, if the platform grants every request, every
region is mapped in ascending order, every bank base derived, and the response is (OK, 0). If it
grants the first ones and refuses the next with code e, no later region is requested, the granted
ones are unmapped in ascending order, nothing is mapped, and e is reported and stays in `PLAT_ERR`
(R83). What `PLAT_ERR` holds after a success is a free value. -/
def Obligations.InitializeMapsOrReleases : Prop :=
  ∀ s : State,
    (s.ctx = .valid → exec .initializeContext s = .refused .contextExists) ∧
    (s.ctx = .none → s.ContextInv → ∀ hs : List Addr, s.Grants hs →
      (hs.length = s.windows.length →
        exec .initializeContext s = .next { s with
          ctx := .valid
          regions := hs.map .mapped
          bankBase := s.basesFrom hs
          platErr := Config.freeError (s.moment + hs.length)
          mapAnswers := s.mapAnswers.drop hs.length
          trace := s.trace ++ (grantEvents s.windows hs ++ [.respond ⟨.ok, 0⟩])
          moment := s.moment + (hs.length + 1) }) ∧
      (∀ (e : ErrCode) (hlt : hs.length < s.windows.length), s.answerAt hs.length = .fail e →
        exec .initializeContext s = .next { s with
          platErr := e.val
          mapAnswers := s.mapAnswers.drop (hs.length + 1)
          trace := s.trace ++ (grantEvents s.windows hs
            ++ [.map (s.windows[hs.length]).base (s.windows[hs.length]).len (.fail e)]
            ++ unmapEvents s.windows hs ++ [.respond ⟨.mapFail, e.val⟩])
          moment := s.moment + (2 * hs.length + 2) }))

/-- `finalize`: refused without a context; with one it unmaps every region in ascending order, leaves
no context, no region mapped and no bank base, and responds (OK, 0); no register changes (R84). What
`PLAT_ERR` then holds is a free value. -/
def Obligations.FinalizeReleasesEverything : Prop :=
  ∀ s : State,
    (s.ctx = .none → exec .finalizeContext s = .refused .noContext) ∧
    (s.ctx = .valid → ∀ hs : List Addr, s.regions = hs.map .mapped → hs.length = s.windows.length →
      exec .finalizeContext s = .next { s with
        ctx := .none
        regions := hs.map fun _ => .unmapped
        bankBase := []
        platErr := Config.freeError (s.moment + hs.length)
        trace := s.trace ++ (unmapEvents s.windows hs ++ [.respond ⟨.ok, 0⟩])
        moment := s.moment + (hs.length + 1) })

/-- After `finalize` no address of the block's own space reaches anything (R51). -/
def Obligations.FinalizeLeavesNothingReachable : Prop :=
  ∀ s t : State, s.ContextInv → exec .finalizeContext s = .next t → ∀ a, t.target a = none

/-- Neither lifecycle command faults, makes a register-bus access or changes a controller register;
every pin that is an input or an output keeps its pad (R43, R84, R126). -/
def Obligations.LifecycleTouchesNoRegister : Prop :=
  ∀ (s : State) (i : Instr), i = .initializeContext ∨ i = .finalizeContext →
    (∀ f, exec i s ≠ .fault f) ∧
    ∀ t, exec i s = .next t →
      t.ctl = s.ctl ∧ t.busLife = s.busLife ∧ t.pinIn = s.pinIn ∧ t.cmds = s.cmds ∧ t.cfg = s.cfg ∧
      (∃ evs, t.trace = s.trace ++ evs ∧ ∀ e ∈ evs, e.isAccess = false) ∧
      ∀ b p, s.dir b p ≠ .other → t.pad b p = s.pad b p

/-! ### Invariants that every step keeps -/

/-- The context is fully initialised or not there at all, and no step changes that (R22). -/
def Obligations.ContextInvariantKept : Prop :=
  ∀ s t : State, s.ContextInv → step s = .next t → t.ContextInv

/-- With a context, the address of every register reaches that register and no other, and every step
keeps it so, also the one that opens the context: given well-formed parameters, and a platform whose
handles name windows that do not overlap (R51, R55, R80). -/
def Obligations.RegistersStayReachable : Prop :=
  ∀ s t : State, configWf s.cfg = true → s.ContextInv → (s.ctx = .valid → s.Reaches) →
    (∀ hs, hs.length = s.windows.length → s.Grants hs → HandlesApart s.windows hs) →
    step s = .next t → t.ctx = .valid → t.Reaches

/-- No step changes a parameter or the strap, completed or faulting (R5, R9, R41). Model's choice: the parameters are part of
the state (log entry 3). -/
def Obligations.ParametersAndStrapNeverChange : Prop :=
  ∀ s t : State, step s = .next t ∨ step s = .fault (.busFault t) →
    t.cfg = s.cfg ∧ t.backend = s.backend

/-- Every step only adds to what has passed the ports, a command ends with its one response, and the
controller after it is what the register writes on the bus, in order, make of the controller before:
nothing else changes a register (R54, R66, R73). Model's choice: the record of the ports, and that a
step without a command changes nothing (log entries 4 and 5). -/
def Obligations.ControllerIsMadeByTheBusWrites : Prop :=
  ∀ s t : State, step s = .next t →
    (s.cmds = [] ∧ t = s) ∨
    ∃ (evs : List Event) (r : Response), t.trace = s.trace ++ (evs ++ [.respond r]) ∧
      t.moment = s.moment + (evs.length + 1) ∧ t.ctl = replay s.ctl evs ∧
      (∀ e ∈ evs, ∀ r', e ≠ .respond r') ∧ t.cmds = s.cmds.tail

/-- Reserved bits keep what they hold: bits 31:30 of every function-select word, bits 29:12 of the
last, bits 31:22 of the latch of bank 1, and in Backend B the bits no valid pin has; so in the next
state and in the state a bus fault leaves (R24, R28, R30, R32, R35, R122). -/
def Obligations.ReservedBitsNeverChange : Prop :=
  ∀ s t : State, (s.ctx = .valid → s.Reaches) → step s = .next t ∨ step s = .fault (.busFault t) →
    match s.ctl, t.ctl with
    | .a c, .a d =>
      (∀ w < 6, ∀ j, 30 ≤ j ∨ (w = 5 ∧ 12 ≤ j) →
        (d.fselWord w).getLsbD j = (c.fselWord w).getLsbD j) ∧
      (∀ j, 22 ≤ j → (d.latchWord 1).getLsbD j = (c.latchWord 1).getLsbD j)
    | .b c, .b d =>
      ∀ b < 6, ∀ j, (s.validMask b).getLsbD j = false →
        (d.oeWord b).getLsbD j = (c.oeWord b).getLsbD j ∧
        (d.dataOutWord b).getLsbD j = (c.dataOutWord b).getLsbD j
    | _, _ => False

/-! ### The access of one register -/

/-- The set and the clear register of Backend A: 1 bits set, respectively clear, the latch, 0 bits
change nothing, nothing else changes, whatever the direction (R56, R57). -/
def Obligations.SetAndClearRegistersOfBackendA : Prop :=
  ∀ (s : State) (c : CtlA) (b : Nat) (v : Word), s.ctl = .a c → b < 2 → s.Reaches →
    s.BusCompletes 1 →
    regWrite (.set b) v s = .done ()
      ({ s with ctl := .a (c.setLatch b (c.latchWord b ||| v)) }.afterEvents
        [s.writeEvent (.set b) v]) ∧
    regWrite (.clr b) v s = .done ()
      ({ s with ctl := .a (c.setLatch b (c.latchWord b &&& ~~~v)) }.afterEvents
        [s.writeEvent (.clr b) v]) ∧
    ∀ (x : Word) (b' : Nat), (c.setLatch b x).latchWord b' = (if b' = b then x else c.latchWord b') ∧
      ∀ w, (c.setLatch b x).fselWord w = c.fselWord w

/-- The set and the clear register of Backend B (R60, R61). -/
def Obligations.SetAndClearRegistersOfBackendB : Prop :=
  ∀ (s : State) (c : CtlB) (b : Nat) (v : Word), s.ctl = .b c → b < 6 → s.Reaches →
    s.BusCompletes 1 →
    regWrite (.setDataOut b) v s = .done ()
      ({ s with ctl := .b (c.setDataOut b (c.dataOutWord b ||| v)) }.afterEvents
        [s.writeEvent (.setDataOut b) v]) ∧
    regWrite (.clearDataOut b) v s = .done ()
      ({ s with ctl := .b (c.setDataOut b (c.dataOutWord b &&& ~~~v)) }.afterEvents
        [s.writeEvent (.clearDataOut b) v]) ∧
    ∀ (x : Word) (b' : Nat),
      (c.setDataOut b x).dataOutWord b' = (if b' = b then x else c.dataOutWord b') ∧
      (c.setDataOut b x).oeWord b' = c.oeWord b'

/-- A read of the level register: the latch of an output pin, the external level of an input pin as
sampled at this read; nothing but the sample and the port changes (R58). A bit the spec leaves open is
a free value. -/
def Obligations.LevelRegisterReads : Prop :=
  ∀ (s : State) (c : CtlA) (b : Nat), s.ctl = .a c → b < 2 → s.Reaches → s.BusCompletes 1 →
    ∃ level : Word,
      regRead (.lev b) s = .done level
        ({ s with pinIn := s.pinIn.tail }.afterEvents [s.readEvent (.lev b) level]) ∧
      ∀ i, s.hasPin b i = true →
        (c.fieldOf b i = 0b001 → level.getLsbD i = (c.latchWord b).getLsbD i) ∧
        (c.fieldOf b i = 0b000 → level.getLsbD i = s.pinSample.getLsbD i)

/-- A read of the data-in register: the external level of an input pin as sampled at this read;
nothing but the sample and the port changes (R64). A bit the spec leaves open is a free value. -/
def Obligations.DataInRegisterReads : Prop :=
  ∀ (s : State) (c : CtlB) (b : Nat), s.ctl = .b c → b < 6 → s.Reaches → s.BusCompletes 1 →
    ∃ di : Word,
      regRead (.dataIn b) s = .done di
        ({ s with pinIn := s.pinIn.tail }.afterEvents [s.readEvent (.dataIn b) di]) ∧
      ∀ i, s.hasPin b i = true → (c.oeWord b).getLsbD i = false →
        di.getLsbD i = s.pinSample.getLsbD i

/-- A function-select word, an output-enable word: what was written is read back, by the next read
(R59, R62, R66). -/
def Obligations.PlainStorageReadsBack : Prop :=
  (∀ (s : State) (c : CtlA) (w : Nat) (v : Word), s.ctl = .a c → w < 6 → s.Reaches →
    s.BusCompletes 2 → ∃ t u, regWrite (.fsel w) v s = .done () t ∧ regRead (.fsel w) t = .done v u ∧
      u.ctl = .a (c.setFsel w v) ∧
      ∀ w', (c.setFsel w v).fselWord w' = if w' = w then v else c.fselWord w') ∧
  (∀ (s : State) (c : CtlB) (b : Nat) (v : Word), s.ctl = .b c → b < 6 → s.Reaches →
    s.BusCompletes 2 → ∃ t u, regWrite (.oe b) v s = .done () t ∧ regRead (.oe b) t = .done v u ∧
      u.ctl = .b (c.setOe b v) ∧
      ∀ b', (c.setOe b v).oeWord b' = if b' = b then v else c.oeWord b')

/-! ### The operations, Backend A: every access, the end state, the response -/

/-- `set_output`, Backend A (R92). -/
def Obligations.SetOutputOnBackendA : Prop :=
  ∀ (s : State) (c : CtlA) (bank : Nat) (mask value : Word), s.ctl = .a c → s.Ready bank →
    let m := s.clip bank mask
    let n := 2 + 2 * (selectedPins m).length
    (s.BusCompletes n → exec (.setOutput bank mask value) s =
      .next (s.afterWriteCommand (.a ((c.withLevels bank m value).withDirections bank 0b001 m))
        (s.levelEventsA bank m value ++ s.directionEvents c bank 0b001 m))) ∧
    (¬ s.BusCompletes n → ∃ left, exec (.setOutput bank mask value) s = .fault (.busFault left))

/-- `set_input`, Backend A (R95). -/
def Obligations.SetInputOnBackendA : Prop :=
  ∀ (s : State) (c : CtlA) (bank : Nat) (mask : Word), s.ctl = .a c → s.Ready bank →
    let m := s.clip bank mask
    let n := 2 * (selectedPins m).length
    (s.BusCompletes n → exec (.setInput bank mask) s =
      .next (s.afterWriteCommand (.a (c.withDirections bank 0b000 m))
        (s.directionEvents c bank 0b000 m))) ∧
    (¬ s.BusCompletes n → ∃ left, exec (.setInput bank mask) s = .fault (.busFault left))

/-- `get_direction`, Backend A: one read per selected pin, ascending; a bit is 1 for an output, 0 for
an input and for a pin not selected (R97, R98). The bit of a pin in another function is a free value.
Model's choice: `PLAT_ERR` is as before (log entry 9; R27 and U14 leave it undefined). -/
def Obligations.GetDirectionOnBackendA : Prop :=
  ∀ (s : State) (c : CtlA) (bank : Nat) (mask : Word), s.ctl = .a c → s.Ready bank →
    let m := s.clip bank mask
    let n := (selectedPins m).length
    (s.BusCompletes n → ∃ r : Word,
      exec (.getDirection bank mask) s =
        .next (s.afterReadCommand ((selectedPins m).map fun i =>
          s.readEvent (.fsel (pinPlace bank i).word) (c.fselWord (pinPlace bank i).word)) 0 r) ∧
      ∀ i, (m.getLsbD i = false → r.getLsbD i = false) ∧
        (m.getLsbD i = true → c.fieldOf bank i = 0b001 → r.getLsbD i = true) ∧
        (m.getLsbD i = true → c.fieldOf bank i = 0b000 → r.getLsbD i = false)) ∧
    (¬ s.BusCompletes n → ∃ left, exec (.getDirection bank mask) s = .fault (.busFault left))

/-- `set_dataout`, Backend A; a fault leaves the state as it was (R106, R122). Model's choice: also
`PLAT_ERR` (log entry 9; R27 and U14 leave it undefined). -/
def Obligations.SetDataoutOnBackendA : Prop :=
  ∀ (s : State) (c : CtlA) (bank : Nat) (mask : Word), s.ctl = .a c → s.Ready bank →
    let m := s.clip bank mask
    (s.BusCompletes 1 → exec (.setDataout bank mask) s =
      .next (s.afterWriteCommand (.a (c.setLatch bank (c.latchWord bank ||| m)))
        [s.writeEvent (.set bank) m])) ∧
    (¬ s.BusCompletes 1 → exec (.setDataout bank mask) s = .fault (.busFault s))

/-- `clr_dataout`, Backend A; a fault leaves the state as it was (R109, R122). Model's choice: also
`PLAT_ERR` (log entry 9; R27 and U14 leave it undefined). -/
def Obligations.ClrDataoutOnBackendA : Prop :=
  ∀ (s : State) (c : CtlA) (bank : Nat) (mask : Word), s.ctl = .a c → s.Ready bank →
    let m := s.clip bank mask
    (s.BusCompletes 1 → exec (.clrDataout bank mask) s =
      .next (s.afterWriteCommand (.a (c.setLatch bank (c.latchWord bank &&& ~~~m)))
        [s.writeEvent (.clr bank) m])) ∧
    (¬ s.BusCompletes 1 → exec (.clrDataout bank mask) s = .fault (.busFault s))

/-- `get_datain`, Backend A: one read of the level register; a fault leaves the state as it was (R111,
R112, R122). The bit of a pin in another function is a free value. Model's choice: `PLAT_ERR` is as
before, also at a fault (log entry 9; R27 and U14 leave it undefined). -/
def Obligations.GetDatainOnBackendA : Prop :=
  ∀ (s : State) (c : CtlA) (bank : Nat) (mask : Word), s.ctl = .a c → s.Ready bank →
    let m := s.clip bank mask
    (s.BusCompletes 1 → ∃ level : Word,
      exec (.getDatain bank mask) s =
        .next (s.afterReadCommand [s.readEvent (.lev bank) level] 1 (level &&& m)) ∧
      ∀ i, m.getLsbD i = true →
        (c.fieldOf bank i = 0b001 → level.getLsbD i = (c.latchWord bank).getLsbD i) ∧
        (c.fieldOf bank i = 0b000 → level.getLsbD i = (s.sampleAfter 0).getLsbD i)) ∧
    (¬ s.BusCompletes 1 → exec (.getDatain bank mask) s = .fault (.busFault s))

/-! ### The operations, Backend B -/

/-- `set_output`, Backend B (R93). -/
def Obligations.SetOutputOnBackendB : Prop :=
  ∀ (s : State) (c : CtlB) (bank : Nat) (mask value : Word), s.ctl = .b c → s.Ready bank →
    let m := s.clip bank mask
    (s.BusCompletes 4 → exec (.setOutput bank mask value) s =
      .next (s.afterWriteCommand (.b ((c.withLevels bank m value).setOe bank (c.oeWord bank ||| m)))
        (s.levelEventsB bank m value ++
          [s.readEvent (.oe bank) (c.oeWord bank), s.writeEvent (.oe bank) (c.oeWord bank ||| m)]))) ∧
    (¬ s.BusCompletes 4 → ∃ left, exec (.setOutput bank mask value) s = .fault (.busFault left))

/-- `set_input`, Backend B (R96). -/
def Obligations.SetInputOnBackendB : Prop :=
  ∀ (s : State) (c : CtlB) (bank : Nat) (mask : Word), s.ctl = .b c → s.Ready bank →
    let m := s.clip bank mask
    (s.BusCompletes 2 → exec (.setInput bank mask) s =
      .next (s.afterWriteCommand (.b (c.setOe bank (c.oeWord bank &&& ~~~m)))
        [s.readEvent (.oe bank) (c.oeWord bank),
         s.writeEvent (.oe bank) (c.oeWord bank &&& ~~~m)])) ∧
    (¬ s.BusCompletes 2 → ∃ left, exec (.setInput bank mask) s = .fault (.busFault left))

/-- `get_direction`, Backend B; a fault leaves the state as it was (R97, R99, R122). Model's choice:
`PLAT_ERR` is as before, also at a fault (log entry 9; R27 and U14 leave it undefined). -/
def Obligations.GetDirectionOnBackendB : Prop :=
  ∀ (s : State) (c : CtlB) (bank : Nat) (mask : Word), s.ctl = .b c → s.Ready bank →
    let m := s.clip bank mask
    (s.BusCompletes 1 → exec (.getDirection bank mask) s =
      .next (s.afterReadCommand [s.readEvent (.oe bank) (c.oeWord bank)] 0 (c.oeWord bank &&& m))) ∧
    (¬ s.BusCompletes 1 → exec (.getDirection bank mask) s = .fault (.busFault s))

/-- `set_dataout`, Backend B; a fault leaves the state as it was (R107, R122). Model's choice: also
`PLAT_ERR` (log entry 9; R27 and U14 leave it undefined). -/
def Obligations.SetDataoutOnBackendB : Prop :=
  ∀ (s : State) (c : CtlB) (bank : Nat) (mask : Word), s.ctl = .b c → s.Ready bank →
    let m := s.clip bank mask
    (s.BusCompletes 1 → exec (.setDataout bank mask) s =
      .next (s.afterWriteCommand (.b (c.setDataOut bank (c.dataOutWord bank ||| m)))
        [s.writeEvent (.setDataOut bank) m])) ∧
    (¬ s.BusCompletes 1 → exec (.setDataout bank mask) s = .fault (.busFault s))

/-- `clr_dataout`, Backend B; a fault leaves the state as it was (R110, R122). Model's choice: also
`PLAT_ERR` (log entry 9; R27 and U14 leave it undefined). -/
def Obligations.ClrDataoutOnBackendB : Prop :=
  ∀ (s : State) (c : CtlB) (bank : Nat) (mask : Word), s.ctl = .b c → s.Ready bank →
    let m := s.clip bank mask
    (s.BusCompletes 1 → exec (.clrDataout bank mask) s =
      .next (s.afterWriteCommand (.b (c.setDataOut bank (c.dataOutWord bank &&& ~~~m)))
        [s.writeEvent (.clearDataOut bank) m])) ∧
    (¬ s.BusCompletes 1 → exec (.clrDataout bank mask) s = .fault (.busFault s))

/-- `get_datain`, Backend B: output-enable, data-in, data-out read in that order, the level of each
pin reconstructed; the bits of data-in that the spec leaves open do not reach the result (R111, R113).
Model's choice: `PLAT_ERR` is as before (log entry 9; R27 and U14 leave it undefined). -/
def Obligations.GetDatainOnBackendB : Prop :=
  ∀ (s : State) (c : CtlB) (bank : Nat) (mask : Word), s.ctl = .b c → s.Ready bank →
    let m := s.clip bank mask
    let oe := c.oeWord bank
    let dout := c.dataOutWord bank
    (s.BusCompletes 3 → ∃ di : Word,
      exec (.getDatain bank mask) s =
        .next (s.afterReadCommand
          [s.readEvent (.oe bank) oe, s.readEvent (.dataIn bank) di,
           s.readEvent (.dataOut bank) dout] 1
          (((oe &&& dout) ||| (~~~oe &&& di)) &&& m)) ∧
      ((oe &&& dout) ||| (~~~oe &&& di)) &&& m
        = ((oe &&& dout) ||| (~~~oe &&& s.sampleAfter 1)) &&& m) ∧
    (¬ s.BusCompletes 3 → ∃ left, exec (.getDatain bank mask) s = .fault (.busFault left))

/-! ### The contracts, both backends: pin by pin, with their frames -/

/-- `set_output`: every selected pin ends an output at the requested level and its pad shows it; every
other pin of every bank keeps its output bit and its direction encoding; the context and the pin
samples are as they were (R91). -/
def Obligations.SetOutputContract : Prop :=
  ∀ (s : State) (bank : Nat) (mask value : Word), s.Ready bank →
    s.BusCompletes (accessCount s (.setOutput bank mask value)) →
    ∃ t, exec (.setOutput bank mask value) s = .next t ∧ t.response = some ⟨.ok, 0⟩ ∧
      (∀ i, (s.clip bank mask).getLsbD i = true →
        t.out bank i = value.getLsbD i ∧ t.dir bank i = .output ∧
        t.pad bank i = (if value.getLsbD i then .high else .low)) ∧
      (∀ b i, s.hasPin b i = true → b ≠ bank ∨ (s.clip bank mask).getLsbD i = false →
        t.out b i = s.out b i ∧ t.dirCode b i = s.dirCode b i ∧ t.dir b i = s.dir b i) ∧
      s.SameContext t ∧ t.pinIn = s.pinIn

/-- `set_input`: every selected pin ends an input and its pad is not driven; no output bit of any pin
changes, and every other pin keeps its direction encoding; no set, clear or data register is written
(R94). -/
def Obligations.SetInputContract : Prop :=
  ∀ (s : State) (bank : Nat) (mask : Word), s.Ready bank →
    s.BusCompletes (accessCount s (.setInput bank mask)) →
    ∃ t, exec (.setInput bank mask) s = .next t ∧ t.response = some ⟨.ok, 0⟩ ∧
      (∀ i, (s.clip bank mask).getLsbD i = true → t.dir bank i = .input ∧ t.pad bank i = .z) ∧
      (∀ b i, t.out b i = s.out b i) ∧
      (∀ b i, s.hasPin b i = true → b ≠ bank ∨ (s.clip bank mask).getLsbD i = false →
        t.dirCode b i = s.dirCode b i ∧ t.dir b i = s.dir b i) ∧
      (∃ evs, t.trace = s.trace ++ evs ∧ ∀ a r v, Event.write a r v ∈ evs →
        (∃ w, r = .fsel w) ∨ r = .oe bank) ∧
      s.SameContext t ∧ t.pinIn = s.pinIn

/-- `get_direction`: 1 for a selected output, 0 for a selected input and for every bit outside the
clipped mask; it changes no state (R97). Model's choice: nor `PLAT_ERR` (log entry 9; R27 and U14 leave
it undefined). -/
def Obligations.GetDirectionContract : Prop :=
  ∀ (s : State) (bank : Nat) (mask : Word), s.Ready bank →
    s.BusCompletes (accessCount s (.getDirection bank mask)) →
    ∃ (t : State) (r : Word), exec (.getDirection bank mask) s = .next t ∧
      t.response = some ⟨.ok, r⟩ ∧
      (∀ i, ((s.clip bank mask).getLsbD i = false → r.getLsbD i = false) ∧
        ((s.clip bank mask).getLsbD i = true →
          (s.dir bank i = .output → r.getLsbD i = true) ∧
          (s.dir bank i = .input → r.getLsbD i = false))) ∧
      t.ctl = s.ctl ∧ t.platErr = s.platErr ∧ t.pinIn = s.pinIn ∧ s.SameContext t

/-- `set_dataout`: the output bits of the selected pins are 1, all others and every direction encoding
are as they were; one write, that of the bank's set register, and no read (R105, R106, R107). -/
def Obligations.SetDataoutContract : Prop :=
  ∀ (s : State) (bank : Nat) (mask : Word), s.Ready bank → s.BusCompletes 1 →
    ∃ t, exec (.setDataout bank mask) s = .next t ∧ t.response = some ⟨.ok, 0⟩ ∧
      (∀ b i, t.out b i = if b = bank ∧ (s.clip bank mask).getLsbD i = true then true else s.out b i) ∧
      (∀ b i, t.dirCode b i = s.dirCode b i ∧ t.dir b i = s.dir b i) ∧
      t.trace = s.trace ++ [s.writeEvent
        (match s.backend with | .A => .set bank | .B => .setDataOut bank) (s.clip bank mask),
        .respond ⟨.ok, 0⟩] ∧
      s.SameContext t ∧ t.pinIn = s.pinIn

/-- `clr_dataout`: the output bits of the selected pins are 0, all others and every direction encoding
are as they were; one write, that of the bank's clear register, and no read (R108, R109, R110). -/
def Obligations.ClrDataoutContract : Prop :=
  ∀ (s : State) (bank : Nat) (mask : Word), s.Ready bank → s.BusCompletes 1 →
    ∃ t, exec (.clrDataout bank mask) s = .next t ∧ t.response = some ⟨.ok, 0⟩ ∧
      (∀ b i, t.out b i = if b = bank ∧ (s.clip bank mask).getLsbD i = true then false else s.out b i) ∧
      (∀ b i, t.dirCode b i = s.dirCode b i ∧ t.dir b i = s.dir b i) ∧
      t.trace = s.trace ++ [s.writeEvent
        (match s.backend with | .A => .clr bank | .B => .clearDataOut bank) (s.clip bank mask),
        .respond ⟨.ok, 0⟩] ∧
      s.SameContext t ∧ t.pinIn = s.pinIn

/-- `get_datain`: for a selected output its output bit, for a selected input the external level
sampled during the command, 0 for every bit outside the clipped mask; it changes no state (R111).
Model's choice: nor `PLAT_ERR` (log entry 9; R27 and U14 leave it undefined). -/
def Obligations.GetDatainContract : Prop :=
  ∀ (s : State) (bank : Nat) (mask : Word), s.Ready bank →
    s.BusCompletes (accessCount s (.getDatain bank mask)) →
    ∃ (t : State) (r : Word), exec (.getDatain bank mask) s = .next t ∧
      t.response = some ⟨.ok, r⟩ ∧
      (∀ i, ((s.clip bank mask).getLsbD i = false → r.getLsbD i = false) ∧
        ((s.clip bank mask).getLsbD i = true →
          (s.dir bank i = .output → r.getLsbD i = s.out bank i) ∧
          (s.dir bank i = .input → r.getLsbD i =
            (s.sampleAfter (match s.backend with | .A => 0 | .B => 1)).getLsbD i))) ∧
      t.ctl = s.ctl ∧ t.platErr = s.platErr ∧ s.SameContext t

/-! ### Whole-machine properties -/

/-- Bits of a mask outside the bank's valid pins never matter: each per-bank operation with mask M is
that with the clipped mask, in every state; `value` is only used within the clipped mask; clipping
keeps only pins the bank has, and changes nothing for a full-width bank (R24). -/
def Obligations.MaskBitsOutsideTheBankNeverMatter : Prop :=
  ∀ (s : State) (bank : Nat) (mask value : Word),
    exec (.setOutput bank mask value) s = exec (.setOutput bank (mask &&& s.validMask bank) value) s ∧
    exec (.setOutput bank mask value) s
      = exec (.setOutput bank mask (value &&& s.clip bank mask)) s ∧
    exec (.setInput bank mask) s = exec (.setInput bank (mask &&& s.validMask bank)) s ∧
    exec (.getDirection bank mask) s = exec (.getDirection bank (mask &&& s.validMask bank)) s ∧
    exec (.setDataout bank mask) s = exec (.setDataout bank (mask &&& s.validMask bank)) s ∧
    exec (.clrDataout bank mask) s = exec (.clrDataout bank (mask &&& s.validMask bank)) s ∧
    exec (.getDatain bank mask) s = exec (.getDatain bank (mask &&& s.validMask bank)) s ∧
    (∀ i, (s.clip bank mask).getLsbD i = (mask.getLsbD i && (s.validMask bank).getLsbD i)) ∧
    (s.validMask bank = 0xFFFFFFFF → s.clip bank mask = mask) ∧
    (s.validMask bank = 0xFFFFFFFF ∨ s.validMask bank = 0x003FFFFF)

/-- An output bit changes only under `set_output`, `set_dataout` and `clr_dataout`, a direction
encoding only under `set_output` and `set_input`, and only for a pin of the addressed bank that the
clipped mask selects: no other pin, bank or command; so in the next state and in the state a bus fault
leaves, where some of the command's writes have had their effect (R25, R30, R33, R69, R122, R141). -/
def Obligations.OnlySelectedPinsChange : Prop :=
  ∀ (s t : State) (i : Instr), (s.ctx = .valid → s.Reaches) →
    exec i s = .next t ∨ exec i s = .fault (.busFault t) →
    ∀ b p, s.hasPin b p = true →
      (t.out b p ≠ s.out b p → ∃ mask, (s.clip b mask).getLsbD p = true ∧
        ((∃ value, i = .setOutput b mask value ∧ t.out b p = value.getLsbD p) ∨
          (i = .setDataout b mask ∧ t.out b p = true) ∨
          (i = .clrDataout b mask ∧ t.out b p = false))) ∧
      (t.dirCode b p ≠ s.dirCode b p → ∃ mask, (s.clip b mask).getLsbD p = true ∧
        ((∃ value, i = .setOutput b mask value ∧ t.dir b p = .output) ∨
          (i = .setInput b mask ∧ t.dir b p = .input)))

/-- Every access of a command, whether it completes or ends in a fault, is to a register's own address,
reads only what the block reads and writes only what it writes, and concerns the addressed bank's
registers, or the function-select words of its selected pins: never another (R65, R69). -/
def Obligations.AccessesOnlyThroughTheBanksRegisters : Prop :=
  ∀ (s t : State) (i : Instr), (s.ctx = .valid → s.Reaches) →
    exec i s = .next t ∨ exec i s = .fault (.busFault t) →
    ∃ evs, t.trace = s.trace ++ evs ∧ ∀ e ∈ evs,
      match e with
      | .read a r _ => a = s.regAddr r ∧ r ∈ controllerRegs s.backend ∧ r.isRead = true ∧
          ∃ b m, bankMask i = some (b, m) ∧ r.serves b (s.clip b m)
      | .write a r _ => a = s.regAddr r ∧ r ∈ controllerRegs s.backend ∧ r.isWritten = true ∧
          ∃ b m, bankMask i = some (b, m) ∧ r.serves b (s.clip b m)
      | .map _ _ _ => i = .initializeContext
      | .unmap _ _ => i = .initializeContext ∨ i = .finalizeContext
      | .respond _ => True

/-- Every access of a command is at a word-aligned address, given well-formed parameters and aligned
handles (R52). -/
def Obligations.EveryAccessIsWordAligned : Prop :=
  ∀ (s t : State) (i : Instr), configWf s.cfg = true → s.ContextInv →
    (∀ r ∈ s.regions, r.aligned = true) →
    exec i s = .next t ∨ exec i s = .fault (.busFault t) →
    ∃ evs, t.trace = s.trace ++ evs ∧ ∀ e ∈ evs,
      match e with
      | .read a _ _ => a % 4 = 0
      | .write a _ _ => a % 4 = 0
      | .map _ _ _ => True
      | .unmap _ _ => True
      | .respond _ => True

/-- What `set_output` and `set_input` did, `get_direction` reports: the clipped mask, and zero
(R100 (a), (b)). -/
def Obligations.DirectionReadsBack : Prop :=
  ∀ (s : State) (bank : Nat) (mask value : Word), s.Ready bank → s.busLife = none →
    (∃ t u, exec (.setOutput bank mask value) s = .next t ∧
      exec (.getDirection bank mask) t = .next u ∧
      u.response = some ⟨.ok, s.clip bank mask⟩) ∧
    (∃ t u, exec (.setInput bank mask) s = .next t ∧ exec (.getDirection bank mask) t = .next u ∧
      u.response = some ⟨.ok, 0⟩)

/-- The level `set_output` drives is the level `get_datain` reports (R114 (a)). -/
def Obligations.LevelReadsBack : Prop :=
  ∀ (s : State) (bank : Nat) (mask value : Word), s.Ready bank → s.busLife = none →
    ∃ t u, exec (.setOutput bank mask value) s = .next t ∧ exec (.getDatain bank mask) t = .next u ∧
      u.response = some ⟨.ok, s.clip bank mask &&& value⟩

/-- `set_dataout` and then `clr_dataout`: overlapping pins end low, the others of the first mask high
(R114 (b)). -/
def Obligations.SetThenClear : Prop :=
  ∀ (s : State) (bank : Nat) (m1 m2 : Word), s.Ready bank → s.busLife = none →
    ∃ t u, exec (.setDataout bank m1) s = .next t ∧ exec (.clrDataout bank m2) t = .next u ∧
      u.outWord bank = ((s.outWord bank ||| s.clip bank m1) &&& ~~~(s.clip bank m2)) ∧
      ∀ b p, u.dirCode b p = s.dirCode b p

/-- Repeating `set_output`, or `set_input`, leaves the controller as after the first time
(R100 (e)). -/
def Obligations.RepeatingSetsNothingNew : Prop :=
  ∀ (s : State) (bank : Nat) (mask value : Word), s.Ready bank → s.busLife = none →
    (∃ t u, exec (.setOutput bank mask value) s = .next t ∧
      exec (.setOutput bank mask value) t = .next u ∧ u.ctl = t.ctl) ∧
    (∃ t u, exec (.setInput bank mask) s = .next t ∧ exec (.setInput bank mask) t = .next u ∧
      u.ctl = t.ctl)

/-- The level of a pin made an input stays behind the pin: `set_dataout` on it changes the output bit
and not the pad, and `get_datain` reports the external level (R94, R114 (f), R141). -/
def Obligations.StaleLevelStaysBehindAnInput : Prop :=
  ∀ (s : State) (bank i : Nat) (mask : Word), s.Ready bank → s.busLife = none →
    (s.clip bank mask).getLsbD i = true →
    ∃ t u v r, exec (.setInput bank mask) s = .next t ∧ exec (.setDataout bank mask) t = .next u ∧
      exec (.getDatain bank mask) u = .next v ∧
      t.out bank i = s.out bank i ∧ u.out bank i = true ∧ u.pad bank i = .z ∧
      v.response = some ⟨.ok, r⟩ ∧
      r.getLsbD i = (u.sampleAfter (match s.backend with | .A => 0 | .B => 1)).getLsbD i

/-- Level before direction: at every point within `set_output`, after any number of the events it makes,
completed or cut short by a bus fault, a selected pin whose direction encoding is no longer the old one
is an output and has the requested output bit; until then its output bit is the old or the requested one
(R91, R92, R93, R140). The controller at a point is what the writes up to there make of it. -/
def Obligations.LevelBeforeDirection : Prop :=
  ∀ (s t : State) (bank : Nat) (mask value : Word), s.Ready bank →
    exec (.setOutput bank mask value) s = .next t ∨
      exec (.setOutput bank mask value) s = .fault (.busFault t) →
    ∃ evs, t.trace = s.trace ++ evs ∧ t.ctl = replay s.ctl evs ∧
      ∀ pre, pre <+: evs → ∀ i, (s.clip bank mask).getLsbD i = true →
        let u : State := { s with ctl := replay s.ctl pre }
        (u.dirCode bank i ≠ s.dirCode bank i →
          u.dir bank i = .output ∧ u.out bank i = value.getLsbD i) ∧
        (u.out bank i = s.out bank i ∨ u.out bank i = value.getLsbD i)

/-- How many accesses and requests a command makes: exactly as many register-bus accesses as its rule
lists, within the bounds of R143, and one map a region at most. -/
def Obligations.CommandsMakeBoundedAccesses : Prop :=
  ∀ (s t : State) (i : Instr), exec i s = .next t → ∃ evs, t.trace = s.trace ++ evs ∧
    (evs.filter Event.isAccess).length = accessCount s i ∧
    accessCount s i ≤ (match i, s.backend with
      | .initializeContext, _ => 0
      | .finalizeContext, _ => 0
      | .setOutput _ _ _, .A => 66
      | .setOutput _ _ _, .B => 4
      | .setInput _ _, .A => 64
      | .setInput _ _, .B => 2
      | .getDirection _ _, .A => 32
      | .getDirection _ _, .B => 1
      | .setDataout _ _, _ => 1
      | .clrDataout _ _, _ => 1
      | .getDatain _ _, .A => 1
      | .getDatain _ _, .B => 3) ∧
    (evs.filter Event.isMap).length ≤ s.windows.length ∧
    (s.ContextInv → i = .initializeContext →
      (evs.filter Event.isUnmap).length + 1 ≤ s.windows.length ∨
      (evs.filter Event.isUnmap).length = 0)

/-- A bus fault is precise: when the bus fails after k accesses and the command faults, the accesses
that passed are exactly the first k of those the command makes on a sound bus, the controller is what
the writes among them made of it, and the context is untouched (R122, R127). Model's choice: `PLAT_ERR` too
is as before, since nothing is recorded (log entry 9; R27 and U14 leave it undefined). -/
def Obligations.BusFaultIsPrecise : Prop :=
  ∀ (s left : State) (i : Instr) (k : Nat), s.Reaches → s.busLife = some k →
    exec i s = .fault (.busFault left) →
    ∃ t evs, exec i { s with busLife := none } = .next t ∧
      left.trace = s.trace ++ evs ∧ evs.length = k ∧ evs <+: t.trace.drop s.trace.length ∧
      (∀ e ∈ evs, e.isAccess = true) ∧ left.ctl = replay s.ctl evs ∧ s.SameContext left ∧
      left.platErr = s.platErr

/-! ### The capability outputs and the windows -/

/-- The capability outputs: `CAP_NBANKS` is 2 or 6 and `CAP_NAME` the name, as the strap says; no step
changes either, completed or faulting; and with a context the banks a per-bank command may name are
exactly those below `CAP_NBANKS` (R4, R5, R10, R90). -/
def Obligations.CapabilityOutputsAreConstant : Prop :=
  (∀ s : State,
    s.capNBanks = (match s.backend with | .A => 2 | .B => 6) ∧
    s.capName = (match s.backend with | .A => s.cfg.layoutA.name | .B => s.cfg.layoutB.name) ∧
    ∀ t, step s = .next t ∨ step s = .fault (.busFault t) →
      t.capNBanks = s.capNBanks ∧ t.capName = s.capName) ∧
  ∀ (s : State) (i : Instr) (bank : Nat) (mask : Word), s.ctx = .valid →
    bankMask i = some (bank, mask) →
    (exec i s = .refused .bankOutOfRange ↔ s.capNBanks ≤ bank)

/-- The windows. A word that no mapped region's window holds, with or without a context, reaches
nothing, and an access there does not complete and changes nothing; a word held by a mapped window, the
windows being apart, reaches the physical address at the same offset; nothing else of the physical space
is reached (R51). Model's choices: an access is to the whole word (log entry 11), and one that reaches
no register fails (log entry 8). -/
def Obligations.OnlyMappedWindowsAreReached : Prop :=
  ∀ (s : State) (a : Addr),
    ((∀ (r : Nat) (w : Window) (h : Addr), s.windows[r]? = some w → s.regions[r]? = some (.mapped h) →
        a < h ∨ h + w.len < a + 4) →
      translate s.windows s.regions a = none ∧ s.target a = none ∧
      memRead a s = .failed s ∧ ∀ v, memWrite a v s = .failed s) ∧
    (∀ p, translate s.windows s.regions a = some p →
      ∃ (r : Nat) (w : Window) (h : Addr), s.windows[r]? = some w ∧
        s.regions[r]? = some (.mapped h) ∧ h ≤ a ∧ a + 4 ≤ h + w.len ∧ p = w.base + (a - h)) ∧
    ∀ (hs : List Addr) (r : Nat) (w : Window) (h : Addr), s.regions = hs.map .mapped →
      HandlesApart s.windows hs → s.windows[r]? = some w → hs[r]? = some h → ∀ x, x + 4 ≤ w.len →
      translate s.windows s.regions (h + x) = some (w.base + x)
end

