-- ==== Sys2Proof/Laws/Bits.lean ====
section
/-! SUPPORT. Bits of the words the model builds: `wordOfBits`, fields, clipping. -/

namespace Sys2Proof.Machine

theorem one_shiftLeft_getLsbD (n i : Nat) (hn : n < 32) :
    ((1 : Word) <<< n).getLsbD i = decide (i = n) := by
  by_cases hi : i < 32
  · have : ∀ n : Fin 32, ∀ i : Fin 32, ((1 : Word) <<< n.val).getLsbD i = decide (i.val = n.val) := by
      decide
    exact this ⟨n, hn⟩ ⟨i, hi⟩
  · rw [BitVec.getLsbD_of_ge _ _ (by omega)]
    symm; rw [decide_eq_false_iff_not]; omega

theorem bitsBelow_getLsbD (f : Nat → Bool) (n i : Nat) (hn : n ≤ 32) :
    (bitsBelow f n).getLsbD i = (decide (i < n) && f i) := by
  induction n with
  | zero => simp [bitsBelow]
  | succ n ih =>
    have hbit : (if f n then (1 : Word) <<< n else 0).getLsbD i = (decide (i = n) && f n) := by
      cases f n
      · simp
      · simpa using one_shiftLeft_getLsbD n i (by omega)
    rw [bitsBelow, BitVec.getLsbD_or, ih (by omega), hbit]
    by_cases h : i = n
    · subst h; simp
    · rw [show decide (i < n + 1) = decide (i < n) by rw [decide_eq_decide]; omega]
      simp [h]

/-- Bit i of the word made of the bits `f`. -/
@[simp] theorem wordOfBits_getLsbD (f : Nat → Bool) (i : Nat) :
    (wordOfBits f).getLsbD i = (decide (i < 32) && f i) :=
  bitsBelow_getLsbD f 32 i (Nat.le_refl _)

/-- Two words with the same 32 bits are equal. -/
theorem word_ext {a b : Word} (h : ∀ i < 32, a.getLsbD i = b.getLsbD i) : a = b :=
  BitVec.eq_of_getLsbD_eq h

theorem seven_getLsbD (i : Nat) : (7 : Word).getLsbD i = decide (i < 3) := by
  by_cases h : i < 32
  · have : ∀ i : Fin 32, (7 : Word).getLsbD i = decide (i.val < 3) := by decide
    exact this ⟨i, h⟩
  · rw [BitVec.getLsbD_of_ge _ _ (by omega)]
    simp; omega

/-- Bit j of a word after one field took a code of three bits. -/
theorem setField_getLsbD (t code : Word) (sh j : Nat) (hc : ∀ k, 3 ≤ k → code.getLsbD k = false)
    (hj : j < 32) :
    (setField t sh code).getLsbD j
      = if sh ≤ j ∧ j < sh + 3 then code.getLsbD (j - sh) else t.getLsbD j := by
  simp only [setField, BitVec.getLsbD_or, BitVec.getLsbD_and, BitVec.getLsbD_not,
    BitVec.getLsbD_shiftLeft, seven_getLsbD, hj, decide_true, Bool.true_and]
  by_cases h1 : j < sh
  · simp [h1, show ¬ sh ≤ j by omega]
  · by_cases h2 : j < sh + 3
    · simp [h1, h2, show sh ≤ j by omega, show j - sh < 3 by omega]
    · simp [h1, h2, show ¬ j - sh < 3 by omega, hc (j - sh) (by omega)]

/-- Bit k of a field. -/
theorem getField_getLsbD (t : Word) (sh k : Nat) :
    (getField t sh).getLsbD k = (decide (k < 3) && t.getLsbD (sh + k)) := by
  rw [getField, BitVec.getLsbD_and, seven_getLsbD, BitVec.getLsbD_ushiftRight, Bool.and_comm]

/-- Reading a field back after setting it. -/
theorem getField_setField (t code : Word) (sh : Nat) (hc : ∀ k, 3 ≤ k → code.getLsbD k = false)
    (hs : sh + 3 ≤ 32) : getField (setField t sh code) sh = code := by
  apply word_ext
  intro k _
  rw [getField_getLsbD]
  by_cases hk : k < 3
  · rw [setField_getLsbD _ _ _ _ hc (by omega), if_pos ⟨by omega, by omega⟩]
    simp [hk]
  · simp [hk, hc k (by omega)]

theorem fselOut_high (k : Nat) (hk : 3 ≤ k) : fselOut.getLsbD k = false := by
  simp [fselOut, BitVec.getLsbD_one]; omega

theorem fselIn_high (k : Nat) (_ : 3 ≤ k) : fselIn.getLsbD k = false := by
  simp [fselIn]

theorem fselOut_ne_fselIn : fselOut ≠ fselIn := by decide

theorem pinsBelow_getLsbD (m : Word) (i j : Nat) (hi : i ≤ 32) :
    (pinsBelow m i).getLsbD j = (m.getLsbD j && decide (j < i)) := by
  have h : ∀ i ≤ 32, ∀ j, ((((1 : Word) <<< i) - 1).getLsbD j) = (decide (j < i) && decide (j < 32)) := by
    intro i hi j
    by_cases hj : j < 32
    · have : ∀ i : Fin 33, ∀ j : Fin 32,
          ((((1 : Word) <<< i.val) - 1).getLsbD j) = (decide (j.val < i.val) && decide (j.val < 32)) := by
        decide
      exact this ⟨i, by omega⟩ ⟨j, hj⟩
    · rw [BitVec.getLsbD_of_ge _ _ (by omega)]; simp; omega
  rw [pinsBelow, BitVec.getLsbD_and, h i hi]
  by_cases hj : j < 32
  · simp [hj]
  · simp [BitVec.getLsbD_of_ge m j (by omega)]

theorem validMask_A_one (cfg : Config) : validMask cfg .A 1 = narrowMask := rfl

theorem narrowMask_getLsbD (i : Nat) : narrowMask.getLsbD i = decide (i < 22) := by
  by_cases h : i < 32
  · have : ∀ i : Fin 32, narrowMask.getLsbD i = decide (i.val < 22) := by decide
    exact this ⟨i, h⟩
  · rw [BitVec.getLsbD_of_ge _ _ (by omega)]; simp; omega

theorem fullMask_getLsbD (i : Nat) : fullMask.getLsbD i = decide (i < 32) := by
  by_cases h : i < 32
  · have : ∀ i : Fin 32, fullMask.getLsbD i = decide (i.val < 32) := by decide
    exact this ⟨i, h⟩
  · rw [BitVec.getLsbD_of_ge _ _ (by omega)]; simp; omega

/-- Clipping twice is clipping once (R24). -/
@[simp] theorem State.clip_clip (s : State) (b : Nat) (mask : Word) :
    s.clip b (mask &&& s.validMask b) = s.clip b mask := by
  simp [State.clip, BitVec.and_assoc]

end Sys2Proof.Machine
end

