-- ==== Sys2Proof/Laws/State.lean ====
section
/-! SUPPORT. One lemma per field per update of the state, so that no proof unfolds a record update. -/

namespace Sys2Proof.Machine

variable (s : State)

/-! ### log -/

@[simp] theorem State.log_cfg (e : Event) : (s.log e).cfg = s.cfg := rfl
@[simp] theorem State.log_ctl (e : Event) : (s.log e).ctl = s.ctl := rfl
@[simp] theorem State.log_ctx (e : Event) : (s.log e).ctx = s.ctx := rfl
@[simp] theorem State.log_regions (e : Event) : (s.log e).regions = s.regions := rfl
@[simp] theorem State.log_bankBase (e : Event) : (s.log e).bankBase = s.bankBase := rfl
@[simp] theorem State.log_platErr (e : Event) : (s.log e).platErr = s.platErr := rfl
@[simp] theorem State.log_cmds (e : Event) : (s.log e).cmds = s.cmds := rfl
@[simp] theorem State.log_mapAnswers (e : Event) : (s.log e).mapAnswers = s.mapAnswers := rfl
@[simp] theorem State.log_pinIn (e : Event) : (s.log e).pinIn = s.pinIn := rfl
@[simp] theorem State.log_busLife (e : Event) : (s.log e).busLife = s.busLife := rfl
@[simp] theorem State.log_trace (e : Event) : (s.log e).trace = s.trace ++ [e] := rfl
@[simp] theorem State.log_moment (e : Event) : (s.log e).moment = s.moment + 1 := rfl

/-! ### respond -/

@[simp] theorem State.respond_cfg (st : Status) (d : Word) : (s.respond st d).cfg = s.cfg := rfl
@[simp] theorem State.respond_ctl (st : Status) (d : Word) : (s.respond st d).ctl = s.ctl := rfl
@[simp] theorem State.respond_ctx (st : Status) (d : Word) : (s.respond st d).ctx = s.ctx := rfl
@[simp] theorem State.respond_regions (st : Status) (d : Word) : (s.respond st d).regions = s.regions := rfl
@[simp] theorem State.respond_bankBase (st : Status) (d : Word) : (s.respond st d).bankBase = s.bankBase := rfl
@[simp] theorem State.respond_platErr (st : Status) (d : Word) : (s.respond st d).platErr = s.platErr := rfl
@[simp] theorem State.respond_cmds (st : Status) (d : Word) : (s.respond st d).cmds = s.cmds := rfl
@[simp] theorem State.respond_mapAnswers (st : Status) (d : Word) : (s.respond st d).mapAnswers = s.mapAnswers := rfl
@[simp] theorem State.respond_pinIn (st : Status) (d : Word) : (s.respond st d).pinIn = s.pinIn := rfl
@[simp] theorem State.respond_busLife (st : Status) (d : Word) : (s.respond st d).busLife = s.busLife := rfl
@[simp] theorem State.respond_trace (st : Status) (d : Word) : (s.respond st d).trace = s.trace ++ [.respond ⟨st, d⟩] := rfl
@[simp] theorem State.respond_moment (st : Status) (d : Word) : (s.respond st d).moment = s.moment + 1 := rfl

/-! ### loseError -/

@[simp] theorem State.loseError_cfg : (s.loseError).cfg = s.cfg := rfl
@[simp] theorem State.loseError_ctl : (s.loseError).ctl = s.ctl := rfl
@[simp] theorem State.loseError_ctx : (s.loseError).ctx = s.ctx := rfl
@[simp] theorem State.loseError_regions : (s.loseError).regions = s.regions := rfl
@[simp] theorem State.loseError_bankBase : (s.loseError).bankBase = s.bankBase := rfl
@[simp] theorem State.loseError_platErr : (s.loseError).platErr = Config.freeError s.moment := rfl
@[simp] theorem State.loseError_cmds : (s.loseError).cmds = s.cmds := rfl
@[simp] theorem State.loseError_mapAnswers : (s.loseError).mapAnswers = s.mapAnswers := rfl
@[simp] theorem State.loseError_pinIn : (s.loseError).pinIn = s.pinIn := rfl
@[simp] theorem State.loseError_busLife : (s.loseError).busLife = s.busLife := rfl
@[simp] theorem State.loseError_trace : (s.loseError).trace = s.trace := rfl
@[simp] theorem State.loseError_moment : (s.loseError).moment = s.moment := rfl

/-! ### setRegion -/

@[simp] theorem State.setRegion_cfg (r : Nat) (x : Region) : (s.setRegion r x).cfg = s.cfg := rfl
@[simp] theorem State.setRegion_ctl (r : Nat) (x : Region) : (s.setRegion r x).ctl = s.ctl := rfl
@[simp] theorem State.setRegion_ctx (r : Nat) (x : Region) : (s.setRegion r x).ctx = s.ctx := rfl
@[simp] theorem State.setRegion_regions (r : Nat) (x : Region) : (s.setRegion r x).regions = s.regions.set r x := rfl
@[simp] theorem State.setRegion_bankBase (r : Nat) (x : Region) : (s.setRegion r x).bankBase = s.bankBase := rfl
@[simp] theorem State.setRegion_platErr (r : Nat) (x : Region) : (s.setRegion r x).platErr = s.platErr := rfl
@[simp] theorem State.setRegion_cmds (r : Nat) (x : Region) : (s.setRegion r x).cmds = s.cmds := rfl
@[simp] theorem State.setRegion_mapAnswers (r : Nat) (x : Region) : (s.setRegion r x).mapAnswers = s.mapAnswers := rfl
@[simp] theorem State.setRegion_pinIn (r : Nat) (x : Region) : (s.setRegion r x).pinIn = s.pinIn := rfl
@[simp] theorem State.setRegion_busLife (r : Nat) (x : Region) : (s.setRegion r x).busLife = s.busLife := rfl
@[simp] theorem State.setRegion_trace (r : Nat) (x : Region) : (s.setRegion r x).trace = s.trace := rfl
@[simp] theorem State.setRegion_moment (r : Nat) (x : Region) : (s.setRegion r x).moment = s.moment := rfl

/-! ### afterEvents -/

@[simp] theorem State.afterEvents_cfg (evs : List Event) : (s.afterEvents evs).cfg = s.cfg := rfl
@[simp] theorem State.afterEvents_ctl (evs : List Event) : (s.afterEvents evs).ctl = s.ctl := rfl
@[simp] theorem State.afterEvents_ctx (evs : List Event) : (s.afterEvents evs).ctx = s.ctx := rfl
@[simp] theorem State.afterEvents_regions (evs : List Event) : (s.afterEvents evs).regions = s.regions := rfl
@[simp] theorem State.afterEvents_bankBase (evs : List Event) : (s.afterEvents evs).bankBase = s.bankBase := rfl
@[simp] theorem State.afterEvents_platErr (evs : List Event) : (s.afterEvents evs).platErr = s.platErr := rfl
@[simp] theorem State.afterEvents_cmds (evs : List Event) : (s.afterEvents evs).cmds = s.cmds := rfl
@[simp] theorem State.afterEvents_mapAnswers (evs : List Event) : (s.afterEvents evs).mapAnswers = s.mapAnswers := rfl
@[simp] theorem State.afterEvents_pinIn (evs : List Event) : (s.afterEvents evs).pinIn = s.pinIn := rfl
@[simp] theorem State.afterEvents_busLife (evs : List Event) : (s.afterEvents evs).busLife = s.busLife.map (· - (evs.filter Event.isAccess).length) := rfl
@[simp] theorem State.afterEvents_trace (evs : List Event) : (s.afterEvents evs).trace = s.trace ++ evs := rfl
@[simp] theorem State.afterEvents_moment (evs : List Event) : (s.afterEvents evs).moment = s.moment + evs.length := rfl

/-! ### withFetchWord -/

@[simp] theorem State.withFetchWord_cfg (n w : Nat) : (s.withFetchWord n w).cfg = s.cfg := rfl
@[simp] theorem State.withFetchWord_ctl (n w : Nat) : (s.withFetchWord n w).ctl = s.ctl := rfl
@[simp] theorem State.withFetchWord_ctx (n w : Nat) : (s.withFetchWord n w).ctx = s.ctx := rfl
@[simp] theorem State.withFetchWord_regions (n w : Nat) : (s.withFetchWord n w).regions = s.regions := rfl
@[simp] theorem State.withFetchWord_bankBase (n w : Nat) : (s.withFetchWord n w).bankBase = s.bankBase := rfl
@[simp] theorem State.withFetchWord_platErr (n w : Nat) : (s.withFetchWord n w).platErr = s.platErr := rfl
@[simp] theorem State.withFetchWord_cmds (n w : Nat) : (s.withFetchWord n w).cmds = cmdOfTable n w :: s.cmds := rfl
@[simp] theorem State.withFetchWord_mapAnswers (n w : Nat) : (s.withFetchWord n w).mapAnswers = s.mapAnswers := rfl
@[simp] theorem State.withFetchWord_pinIn (n w : Nat) : (s.withFetchWord n w).pinIn = s.pinIn := rfl
@[simp] theorem State.withFetchWord_busLife (n w : Nat) : (s.withFetchWord n w).busLife = s.busLife := rfl
@[simp] theorem State.withFetchWord_trace (n w : Nat) : (s.withFetchWord n w).trace = s.trace := rfl
@[simp] theorem State.withFetchWord_moment (n w : Nat) : (s.withFetchWord n w).moment = s.moment := rfl

/-! ### platformMap -/

@[simp] theorem platformMap_cfg (w : Window) : (platformMap w s).cfg = s.cfg := rfl
@[simp] theorem platformMap_ctl (w : Window) : (platformMap w s).ctl = s.ctl := rfl
@[simp] theorem platformMap_ctx (w : Window) : (platformMap w s).ctx = s.ctx := rfl
@[simp] theorem platformMap_regions (w : Window) : (platformMap w s).regions = s.regions := rfl
@[simp] theorem platformMap_bankBase (w : Window) : (platformMap w s).bankBase = s.bankBase := rfl
@[simp] theorem platformMap_platErr (w : Window) : (platformMap w s).platErr = s.platErr := rfl
@[simp] theorem platformMap_cmds (w : Window) : (platformMap w s).cmds = s.cmds := rfl
@[simp] theorem platformMap_mapAnswers (w : Window) : (platformMap w s).mapAnswers = s.mapAnswers.tail := rfl
@[simp] theorem platformMap_pinIn (w : Window) : (platformMap w s).pinIn = s.pinIn := rfl
@[simp] theorem platformMap_busLife (w : Window) : (platformMap w s).busLife = s.busLife := rfl
@[simp] theorem platformMap_trace (w : Window) : (platformMap w s).trace = s.trace ++ [.map w.base w.len s.nextAnswer] := rfl
@[simp] theorem platformMap_moment (w : Window) : (platformMap w s).moment = s.moment + 1 := rfl

/-! ### platformUnmap -/

@[simp] theorem platformUnmap_cfg (h : Addr) (n : Nat) : (platformUnmap h n s).cfg = s.cfg := rfl
@[simp] theorem platformUnmap_ctl (h : Addr) (n : Nat) : (platformUnmap h n s).ctl = s.ctl := rfl
@[simp] theorem platformUnmap_ctx (h : Addr) (n : Nat) : (platformUnmap h n s).ctx = s.ctx := rfl
@[simp] theorem platformUnmap_regions (h : Addr) (n : Nat) : (platformUnmap h n s).regions = s.regions := rfl
@[simp] theorem platformUnmap_bankBase (h : Addr) (n : Nat) : (platformUnmap h n s).bankBase = s.bankBase := rfl
@[simp] theorem platformUnmap_platErr (h : Addr) (n : Nat) : (platformUnmap h n s).platErr = Config.freeError (s.moment + 1) := rfl
@[simp] theorem platformUnmap_cmds (h : Addr) (n : Nat) : (platformUnmap h n s).cmds = s.cmds := rfl
@[simp] theorem platformUnmap_mapAnswers (h : Addr) (n : Nat) : (platformUnmap h n s).mapAnswers = s.mapAnswers := rfl
@[simp] theorem platformUnmap_pinIn (h : Addr) (n : Nat) : (platformUnmap h n s).pinIn = s.pinIn := rfl
@[simp] theorem platformUnmap_busLife (h : Addr) (n : Nat) : (platformUnmap h n s).busLife = s.busLife := rfl
@[simp] theorem platformUnmap_trace (h : Addr) (n : Nat) : (platformUnmap h n s).trace = s.trace ++ [.unmap h n] := rfl
@[simp] theorem platformUnmap_moment (h : Addr) (n : Nat) : (platformUnmap h n s).moment = s.moment + 1 := rfl

/-! ### afterRead -/

@[simp] theorem State.afterRead_cfg (r : Reg) : (s.afterRead r).cfg = s.cfg := by
  cases r <;> rfl
@[simp] theorem State.afterRead_ctl (r : Reg) : (s.afterRead r).ctl = s.ctl := by
  cases r <;> rfl
@[simp] theorem State.afterRead_ctx (r : Reg) : (s.afterRead r).ctx = s.ctx := by
  cases r <;> rfl
@[simp] theorem State.afterRead_regions (r : Reg) : (s.afterRead r).regions = s.regions := by
  cases r <;> rfl
@[simp] theorem State.afterRead_bankBase (r : Reg) : (s.afterRead r).bankBase = s.bankBase := by
  cases r <;> rfl
@[simp] theorem State.afterRead_platErr (r : Reg) : (s.afterRead r).platErr = s.platErr := by
  cases r <;> rfl
@[simp] theorem State.afterRead_cmds (r : Reg) : (s.afterRead r).cmds = s.cmds := by
  cases r <;> rfl
@[simp] theorem State.afterRead_mapAnswers (r : Reg) : (s.afterRead r).mapAnswers = s.mapAnswers := by
  cases r <;> rfl
@[simp] theorem State.afterRead_busLife (r : Reg) : (s.afterRead r).busLife = s.busLife := by
  cases r <;> rfl
@[simp] theorem State.afterRead_trace (r : Reg) : (s.afterRead r).trace = s.trace := by
  cases r <;> rfl
@[simp] theorem State.afterRead_moment (r : Reg) : (s.afterRead r).moment = s.moment := by
  cases r <;> rfl

end Sys2Proof.Machine
end

