-- ==== Sys2Proof/Laws/Bus.lean ====
section
/-! SUPPORT. What one register-bus access does, said once: it completes, with the event it leaves,
when the register is reached and the bus completes it. -/

namespace Sys2Proof.Machine

/-! ### States with the same address map -/

/-- Two states whose accesses go to the same places. -/
structure SameMap (s t : State) : Prop where
  cfg : t.cfg = s.cfg
  backend : t.backend = s.backend
  regions : t.regions = s.regions
  bankBase : t.bankBase = s.bankBase

theorem SameMap.refl (s : State) : SameMap s s := ⟨rfl, rfl, rfl, rfl⟩

theorem SameMap.trans {s t u : State} (h : SameMap s t) (h' : SameMap t u) : SameMap s u :=
  ⟨h'.cfg.trans h.cfg, h'.backend.trans h.backend, h'.regions.trans h.regions,
    h'.bankBase.trans h.bankBase⟩

theorem SameMap.regAddr {s t : State} (h : SameMap s t) (r : Reg) : t.regAddr r = s.regAddr r := by
  simp [State.regAddr, h.cfg, h.bankBase]

theorem SameMap.target {s t : State} (h : SameMap s t) (a : Addr) : t.target a = s.target a := by
  simp [State.target, State.windows, h.cfg, h.backend, h.regions]

theorem SameMap.validMask {s t : State} (h : SameMap s t) (b : Nat) :
    t.validMask b = s.validMask b := by
  simp [State.validMask, h.cfg, h.backend]

theorem SameMap.reaches {s t : State} (h : SameMap s t) : t.Reaches ↔ s.Reaches := by
  simp [State.Reaches, h.target, h.regAddr, h.backend]

theorem SameMap.readEvent {s t : State} (h : SameMap s t) (r : Reg) (v : Word) :
    t.readEvent r v = s.readEvent r v := by
  simp [State.readEvent, h.regAddr]

theorem SameMap.writeEvent {s t : State} (h : SameMap s t) (r : Reg) (v : Word) :
    t.writeEvent r v = s.writeEvent r v := by
  simp [State.writeEvent, h.regAddr]

theorem sameMap_afterEvents (s : State) (evs : List Event) : SameMap s (s.afterEvents evs) :=
  ⟨rfl, rfl, rfl, rfl⟩

theorem sameMap_afterRead (s : State) (r : Reg) : SameMap s (s.afterRead r) := by
  refine ⟨by simp, ?_, by simp, by simp⟩
  simp [State.backend]

/-- Replacing the controller by another of the same backend. -/
theorem sameMap_ctl (s : State) (ctl : Controller)
    (h : ({ s with ctl := ctl } : State).backend = s.backend) : SameMap s { s with ctl := ctl } :=
  ⟨rfl, h, rfl, rfl⟩

@[simp] theorem backend_a {s : State} {c : CtlA} (h : s.ctl = .a c) : s.backend = .A := by
  simp [State.backend, h]

@[simp] theorem backend_b {s : State} {c : CtlB} (h : s.ctl = .b c) : s.backend = .B := by
  simp [State.backend, h]

/-! ### Events -/

@[simp] theorem isAccess_read (a : Addr) (r : Reg) (v : Word) :
    (Event.read a r v).isAccess = true := rfl

@[simp] theorem isAccess_write (a : Addr) (r : Reg) (v : Word) :
    (Event.write a r v).isAccess = true := rfl

@[simp] theorem isAccess_map (a : Addr) (n : Nat) (x : MapAnswer) :
    (Event.map a n x).isAccess = false := rfl

@[simp] theorem isAccess_unmap (a : Addr) (n : Nat) : (Event.unmap a n).isAccess = false := rfl

@[simp] theorem isAccess_respond (r : Response) : (Event.respond r).isAccess = false := rfl

@[simp] theorem isAccess_readEvent (s : State) (r : Reg) (v : Word) :
    (s.readEvent r v).isAccess = true := rfl

@[simp] theorem isAccess_writeEvent (s : State) (r : Reg) (v : Word) :
    (s.writeEvent r v).isAccess = true := rfl

theorem busLife_sub_zero (l : Option Nat) : l.map (· - 0) = l := by cases l <;> simp

@[simp] theorem afterEvents_nil (s : State) : s.afterEvents [] = s := by
  simp [State.afterEvents]

theorem afterEvents_append (s : State) (xs ys : List Event) :
    (s.afterEvents xs).afterEvents ys = s.afterEvents (xs ++ ys) := by
  simp only [State.afterEvents, List.append_assoc, List.length_append, List.filter_append,
    Option.map_map]
  congr 1
  · cases s.busLife <;> simp [Nat.sub_sub]
  · omega

theorem busCompletes_afterEvents (s : State) (evs : List Event) (n : Nat)
    (h : s.BusCompletes (n + (evs.filter Event.isAccess).length)) :
    (s.afterEvents evs).BusCompletes n := by
  intro k hk
  simp only [State.afterEvents_busLife, Option.mem_def, Option.map_eq_some_iff] at hk
  obtain ⟨k0, hk0, rfl⟩ := hk
  have := h k0 hk0
  omega

theorem BusCompletes_mono {s : State} {m n : Nat} (h : s.BusCompletes n) (hm : m ≤ n) :
    s.BusCompletes m := fun k hk => Nat.le_trans hm (h k hk)

/-- Logging an access whose completion was counted is `afterEvents` of that one event. -/
theorem busTick_log (s : State) (e : Event) (he : e.isAccess = true) (hb : s.BusCompletes 1) :
    ∃ s1, s.busTick = some s1 ∧ s1 = { s with busLife := s.busLife.map (· - 1) } ∧
      s1.log e = s.afterEvents [e] := by
  cases hl : s.busLife with
  | none =>
    refine ⟨s, by simp [State.busTick, hl], ?_, ?_⟩
    · cases s; simp_all
    · cases s; simp_all [State.log, State.afterEvents]
  | some k =>
    have hk : 1 ≤ k := hb k (by simp [hl])
    obtain ⟨k, rfl⟩ : ∃ j, k = j + 1 := ⟨k - 1, by omega⟩
    refine ⟨{ s with busLife := some k }, by simp [State.busTick, hl], ?_, ?_⟩
    · cases s; simp_all
    · simp [State.log, State.afterEvents, hl, he]

/-! ### One access -/

/-- A read of a reached register: its value, the sample taken, one event. -/
theorem regRead_done {s : State} {r : Reg} {v : Word} (hR : s.Reaches)
    (hr : r ∈ controllerRegs s.backend) (hv : s.regValue r = some v) (hb : s.BusCompletes 1) :
    regRead r s = .done v ((s.afterRead r).afterEvents [s.readEvent r v]) := by
  obtain ⟨s1, ht, h1, hlog⟩ := busTick_log s (s.readEvent r v) rfl hb
  simp only [regRead, memRead, ht, hR r hr, hv]
  congr 1
  rw [h1]
  cases r <;> rfl

/-- A write of a reached register: its side effect and one event. -/
theorem regWrite_done {s : State} {r : Reg} {v : Word} {ctl : Controller} (hR : s.Reaches)
    (hr : r ∈ controllerRegs s.backend) (hv : storeReg s.ctl r v = some ctl)
    (hb : s.BusCompletes 1) :
    regWrite r v s = .done () ({ s with ctl := ctl }.afterEvents [s.writeEvent r v]) := by
  obtain ⟨s1, ht, h1, hlog⟩ := busTick_log s (s.writeEvent r v) rfl hb
  simp only [regWrite, memWrite, ht, hR r hr, hv]
  congr 1
  rw [h1]
  rfl

/-! ### Failing accesses -/

/-- An access that does not complete leaves the state as it was. -/
theorem regRead_failed {s : State} (r : Reg) (hb : s.busLife = some 0) :
    regRead r s = .failed s := by
  simp [regRead, memRead, State.busTick, hb]

theorem regWrite_failed {s : State} (r : Reg) (v : Word) (hb : s.busLife = some 0) :
    regWrite r v s = .failed s := by
  simp [regWrite, memWrite, State.busTick, hb]

/-! ### Which registers there are -/

theorem fsel_mem {w : Nat} (h : w < 6) : Reg.fsel w ∈ controllerRegs .A := by
  simp [controllerRegs] <;> omega

theorem set_mem {b : Nat} (h : b < 2) : Reg.set b ∈ controllerRegs .A := by
  simp [controllerRegs] <;> omega

theorem clr_mem {b : Nat} (h : b < 2) : Reg.clr b ∈ controllerRegs .A := by
  simp [controllerRegs] <;> omega

theorem lev_mem {b : Nat} (h : b < 2) : Reg.lev b ∈ controllerRegs .A := by
  simp [controllerRegs] <;> omega

theorem oe_mem {b : Nat} (h : b < 6) : Reg.oe b ∈ controllerRegs .B := by
  simp [controllerRegs] <;> omega

theorem dataIn_mem {b : Nat} (h : b < 6) : Reg.dataIn b ∈ controllerRegs .B := by
  simp [controllerRegs] <;> omega

theorem dataOut_mem {b : Nat} (h : b < 6) : Reg.dataOut b ∈ controllerRegs .B := by
  simp [controllerRegs] <;> omega

theorem setDataOut_mem {b : Nat} (h : b < 6) : Reg.setDataOut b ∈ controllerRegs .B := by
  simp [controllerRegs] <;> omega

theorem clearDataOut_mem {b : Nat} (h : b < 6) : Reg.clearDataOut b ∈ controllerRegs .B := by
  simp [controllerRegs] <;> omega

end Sys2Proof.Machine
end

