-- ==== Sys2Proof/Laws/Platform.lean ====
section
/-! SUPPORT. What the mapping loop and the release loop do, in closed form (R82, R83). -/

namespace Sys2Proof.Machine

theorem nextAnswer_eq (s : State) : s.nextAnswer = s.answerAt 0 := by
  cases h : s.mapAnswers <;> simp [State.nextAnswer, State.answerAt, h]

/-- After a request the platform's later answers are the same, one earlier. -/
theorem answerAt_succ (s t : State) (hm : t.moment = s.moment + 1)
    (ha : t.mapAnswers = s.mapAnswers.tail) (r : Nat) : t.answerAt r = s.answerAt (r + 1) := by
  rw [State.answerAt, State.answerAt, hm, ha, show s.moment + 1 + r = s.moment + (r + 1) by omega]
  cases s.mapAnswers <;> simp

theorem grants_cons {s : State} {h : Addr} {hs : List Addr} (hg : s.Grants (h :: hs)) (t : State)
    (hm : t.moment = s.moment + 1) (ha : t.mapAnswers = s.mapAnswers.tail) :
    s.nextAnswer = .ok h ∧ t.Grants hs := by
  constructor
  · rw [nextAnswer_eq]; exact hg 0 (by simp)
  · intro r hr
    rw [answerAt_succ s t hm ha r]
    exact hg (r + 1) (by simpa using hr)

/-- Setting the region that follows `pre`. -/
theorem set_append_cons (pre rs : List Region) (x y : Region) :
    (pre ++ x :: rs).set pre.length y = (pre ++ [y]) ++ rs := by
  rw [List.set_append_right _ _ (Nat.le_refl _)]
  simp

/-! ### Mapping -/

/-- Every request granted: every region mapped, in order (R83). -/
theorem mapFrom_granted (ws : List Window) :
    ∀ (hs : List Addr) (pre rs : List Region) (s : State), hs.length = ws.length →
      rs.length = ws.length → s.regions = pre ++ rs → s.Grants hs →
      mapFrom pre.length ws s = .allMapped
        { s with
          regions := pre ++ hs.map .mapped
          mapAnswers := s.mapAnswers.drop ws.length
          trace := s.trace ++ grantEvents ws hs
          moment := s.moment + ws.length } := by
  induction ws with
  | nil =>
    intro hs pre rs s hh hr hs0 _
    have h1 : hs = [] := List.length_eq_zero_iff.mp hh
    have h2 : rs = [] := List.length_eq_zero_iff.mp hr
    subst h1 h2
    simp only [mapFrom, grantEvents, List.map_nil, List.append_nil, List.length_nil, List.drop_zero,
      Nat.add_zero, List.zipWith_nil_left, ← hs0]
  | cons w ws ih =>
    intro hs pre rs s hh hr hs0 hg
    obtain ⟨h, hs, rfl⟩ : ∃ h hs', hs = h :: hs' := by
      cases hs with
      | nil => simp at hh
      | cons h hs' => exact ⟨h, hs', rfl⟩
    obtain ⟨x, rs, rfl⟩ : ∃ x rs', rs = x :: rs' := by
      cases rs with
      | nil => simp at hr
      | cons x rs' => exact ⟨x, rs', rfl⟩
    let t := (platformMap w s).setRegion pre.length (.mapped h)
    obtain ⟨hnext, hg'⟩ := grants_cons hg t rfl rfl
    have hreg : t.regions = (pre ++ [.mapped h]) ++ rs := by
      show (platformMap w s).regions.set pre.length (.mapped h) = _
      rw [platformMap_regions, hs0, set_append_cons]
    have hrec := ih hs (pre ++ [.mapped h]) rs t (by simpa using hh) (by simpa using hr) hreg hg'
    rw [List.length_append] at hrec
    rw [mapFrom, hnext]
    show mapFrom (pre.length + 1) ws t = _
    rw [show pre.length + 1 = pre.length + [Region.mapped h].length from rfl, hrec]
    congr 1
    simp [t, State.setRegion, platformMap, State.log, grantEvents, hnext, Nat.add_assoc,
      Nat.add_comm 1]

/-- The first request refused after some granted: the loop ends there (R83, D14). -/
theorem mapFrom_refused (e : ErrCode) (ws : List Window) :
    ∀ (hs : List Addr) (pre rs : List Region) (s : State), (hlt : hs.length < ws.length) →
      rs.length = ws.length → s.regions = pre ++ rs → s.Grants hs →
      s.answerAt hs.length = .fail e →
      mapFrom pre.length ws s = .failedWith e
        { s with
          regions := pre ++ hs.map .mapped ++ rs.drop hs.length
          platErr := e.val
          mapAnswers := s.mapAnswers.drop (hs.length + 1)
          trace := s.trace ++ grantEvents (ws.take hs.length) hs
            ++ [.map (ws[hs.length]).base (ws[hs.length]).len (.fail e)]
          moment := s.moment + (hs.length + 1) } := by
  induction ws with
  | nil => intro hs pre rs s hlt; simp at hlt
  | cons w ws ih =>
    intro hs pre rs s hlt hr hs0 hg hfail
    cases hs with
    | nil =>
      have hnext : s.nextAnswer = .fail e := by rw [nextAnswer_eq]; exact hfail
      rw [mapFrom, hnext]
      simp [platformMap, State.log, hnext, grantEvents, ← hs0]
    | cons h hs =>
      obtain ⟨x, rs, rfl⟩ : ∃ x rs', rs = x :: rs' := by
        cases rs with
        | nil => simp at hr
        | cons x rs' => exact ⟨x, rs', rfl⟩
      let t := (platformMap w s).setRegion pre.length (.mapped h)
      obtain ⟨hnext, hg'⟩ := grants_cons hg t rfl rfl
      have hreg : t.regions = (pre ++ [.mapped h]) ++ rs := by
        show (platformMap w s).regions.set pre.length (.mapped h) = _
        rw [platformMap_regions, hs0, set_append_cons]
      have hrec := ih hs (pre ++ [.mapped h]) rs t (by simpa using hlt) (by simpa using hr) hreg hg'
        (by rw [answerAt_succ s t rfl rfl]; simpa using hfail)
      rw [List.length_append] at hrec
      rw [mapFrom, hnext]
      show mapFrom (pre.length + 1) ws t = _
      rw [show pre.length + 1 = pre.length + [Region.mapped h].length from rfl, hrec]
      congr 1
      simp [t, State.setRegion, platformMap, State.log, grantEvents, hnext, Nat.add_assoc,
        Nat.add_comm 1]

/-- The state a mapping loop ends in. -/
def MapRun.final : MapRun → State
  | .allMapped s => s
  | .failedWith _ s => s

/-- The mapping loop only touches the region records, `PLAT_ERR` and the platform port. -/
theorem mapFrom_frame (ws : List Window) :
    ∀ (r : Nat) (s : State), let t := (mapFrom r ws s).final
      t.cfg = s.cfg ∧ t.ctl = s.ctl ∧ t.ctx = s.ctx ∧ t.bankBase = s.bankBase ∧
      t.cmds = s.cmds ∧ t.pinIn = s.pinIn ∧ t.busLife = s.busLife ∧
      t.regions.length = s.regions.length ∧
      ∃ evs, t.trace = s.trace ++ evs ∧ t.moment = s.moment + evs.length ∧
        (∀ e ∈ evs, e.isMap = true) ∧ evs.length ≤ ws.length := by
  induction ws with
  | nil => intro r s; exact ⟨rfl, rfl, rfl, rfl, rfl, rfl, rfl, rfl, [], by simp [mapFrom, MapRun.final]⟩
  | cons w ws ih =>
    intro r s
    rw [mapFrom]
    cases hn : s.nextAnswer with
    | fail e =>
      refine ⟨rfl, rfl, rfl, rfl, rfl, rfl, rfl, rfl, [.map w.base w.len (.fail e)], ?_, rfl, ?_, ?_⟩
      · simp [hn, MapRun.final]
      · simp [Event.isMap]
      · simp
    | ok h =>
      obtain ⟨h1, h2, h3, h4, h5, h6, h7, h8, evs, h9, h10, h11, h12⟩ :=
        ih (r + 1) ((platformMap w s).setRegion r (.mapped h))
      refine ⟨h1, h2, h3, h4, h5, h6, h7, h8.trans (by simp),
        .map w.base w.len s.nextAnswer :: evs, h9.trans (by simp), h10.trans ?_, ?_, by simpa using h12⟩
      · simp; omega
      · intro e he
        rcases List.mem_cons.mp he with rfl | he
        · rfl
        · exact h11 e he

/-! ### Releasing -/

/-- Every mapped region is unmapped, ascending; what is left in `PLAT_ERR` is some value (R81,
R82). -/
theorem releaseFrom_eq (ws : List Window) :
    ∀ (pre rs : List Region) (s : State), rs.length = ws.length → s.regions = pre ++ rs →
      ∃ e, releaseFrom pre.length ws s =
        { s with
          regions := pre ++ List.replicate ws.length .unmapped
          platErr := e
          trace := s.trace ++ releaseEvents ws rs
          moment := s.moment + (releaseEvents ws rs).length } := by
  induction ws with
  | nil =>
    intro pre rs s hr hs0
    have h2 : rs = [] := List.length_eq_zero_iff.mp hr
    subst h2
    exact ⟨s.platErr, by simp [releaseFrom, releaseEvents, ← hs0]⟩
  | cons w ws ih =>
    intro pre rs s hr hs0
    obtain ⟨x, rs, rfl⟩ : ∃ x rs', rs = x :: rs' := by
      cases rs with
      | nil => simp at hr
      | cons x rs' => exact ⟨x, rs', rfl⟩
    have hget : s.regions[pre.length]? = some x := by simp [hs0]
    cases x with
    | unmapped =>
      obtain ⟨e, he⟩ := ih (pre ++ [.unmapped]) rs s (by simpa using hr) (by simp [hs0])
      rw [List.length_append] at he
      refine ⟨e, ?_⟩
      rw [releaseFrom, hget]
      show releaseFrom (pre.length + [Region.unmapped].length) ws s = _
      rw [he]
      simp [releaseEvents, List.replicate_succ]
    | mapped h =>
      let t := (platformUnmap h w.len s).setRegion pre.length .unmapped
      have hreg : t.regions = (pre ++ [.unmapped]) ++ rs := by
        show (platformUnmap h w.len s).regions.set pre.length .unmapped = _
        rw [platformUnmap_regions, hs0, set_append_cons]
      obtain ⟨e, he⟩ := ih (pre ++ [.unmapped]) rs t (by simpa using hr) hreg
      rw [List.length_append] at he
      refine ⟨e, ?_⟩
      rw [releaseFrom, hget]
      show releaseFrom (pre.length + [Region.unmapped].length) ws t = _
      rw [he]
      simp [t, State.setRegion, platformUnmap, State.log, State.loseError, releaseEvents,
        List.replicate_succ, Nat.add_assoc, Nat.add_comm 1]

/-- `release_all()` on a state whose region records are as many as its windows (R82). -/
theorem releaseAll_eq {s : State} (h : s.regions.length = s.windows.length) :
    ∃ e, releaseAll s =
      { s with
        ctx := .none
        regions := List.replicate s.windows.length .unmapped
        bankBase := []
        platErr := e
        trace := s.trace ++ releaseEvents s.windows s.regions
        moment := s.moment + (releaseEvents s.windows s.regions).length } := by
  obtain ⟨e, he⟩ := releaseFrom_eq s.windows [] s.regions s h rfl
  exact ⟨e, by rw [releaseAll, show releaseFrom 0 s.windows s = _ from he]; simp⟩

theorem releaseEvents_unmaps (ws : List Window) :
    ∀ rs : List Region, ∀ e ∈ releaseEvents ws rs, e.isUnmap = true := by
  induction ws with
  | nil => intro rs e he; cases rs <;> simp [releaseEvents] at he
  | cons w ws ih =>
    intro rs e he
    cases rs with
    | nil => simp [releaseEvents] at he
    | cons x rs =>
      cases x with
      | unmapped => exact ih rs e he
      | mapped h =>
        rcases List.mem_cons.mp he with rfl | he
        · rfl
        · exact ih rs e he

/-- The release loop only touches the region records, `PLAT_ERR` and the platform port. -/
theorem releaseFrom_frame (ws : List Window) :
    ∀ (r : Nat) (s : State), let t := releaseFrom r ws s
      t.cfg = s.cfg ∧ t.ctl = s.ctl ∧ t.ctx = s.ctx ∧ t.bankBase = s.bankBase ∧
      t.cmds = s.cmds ∧ t.pinIn = s.pinIn ∧ t.busLife = s.busLife ∧
      t.mapAnswers = s.mapAnswers ∧ t.regions.length = s.regions.length ∧
      ∃ evs, t.trace = s.trace ++ evs ∧ t.moment = s.moment + evs.length ∧
        (∀ e ∈ evs, e.isUnmap = true) ∧ evs.length ≤ ws.length := by
  induction ws with
  | nil => intro r s; exact ⟨rfl, rfl, rfl, rfl, rfl, rfl, rfl, rfl, rfl, [], by simp [releaseFrom]⟩
  | cons w ws ih =>
    intro r s
    rw [releaseFrom]
    split
    · next h _ =>
      obtain ⟨h1, h2, h3, h4, h5, h6, h7, h8, h9, evs, h10, h11, h12, h13⟩ :=
        ih (r + 1) ((platformUnmap h w.len s).setRegion r .unmapped)
      refine ⟨h1, h2, h3, h4, h5, h6, h7, h8, by simpa using h9, .unmap h w.len :: evs, ?_, ?_, ?_, ?_⟩
      · rw [h10]; simp
      · rw [h11]; simp; omega
      · intro e he
        rcases List.mem_cons.mp he with rfl | he
        · rfl
        · exact h12 e he
      · simpa using h13
    · obtain ⟨h1, h2, h3, h4, h5, h6, h7, h8, h9, evs, h10, h11, h12, h13⟩ := ih (r + 1) s
      exact ⟨h1, h2, h3, h4, h5, h6, h7, h8, h9, evs, h10, h11, h12, by simp; omega⟩

end Sys2Proof.Machine
end

