-- ==== Sys2Proof/Laws/AddressMap.lean ====
section
/-! SUPPORT. The translation through the mapped windows: which window a word lies in, and that with
well-formed parameters and handles apart every register is reached at its address (R51, R55). -/

namespace Sys2Proof.Machine

/-- A word that no mapped window holds whole reaches nothing (R51). -/
theorem translate_outside (ws : List Window) :
    ∀ (rs : List Region) (a : Addr),
      (∀ (r : Nat) (w : Window) (h : Addr), ws[r]? = some w → rs[r]? = some (.mapped h) →
        a < h ∨ h + w.len < a + 4) → translate ws rs a = none := by
  induction ws with
  | nil => intro rs a _; simp [translate]
  | cons w ws ih =>
    intro rs a h
    cases rs with
    | nil => simp [translate]
    | cons r rs =>
      have hrest := ih rs a fun r w h' h1 h2 => h (r + 1) w h' (by simpa using h1) (by simpa using h2)
      cases r with
      | unmapped => rw [translate]; exact hrest
      | mapped h' =>
        have h0 := h 0 w h' rfl rfl
        rw [translate, if_neg (by simp only [Addr] at *; omega)]
        exact hrest

/-- What a word reaches, it reaches through a mapped window that holds it whole (R51). -/
theorem translate_some (ws : List Window) :
    ∀ (rs : List Region) (a p : Addr), translate ws rs a = some p →
      ∃ (r : Nat) (w : Window) (h : Addr), ws[r]? = some w ∧ rs[r]? = some (.mapped h) ∧ h ≤ a ∧
        a + 4 ≤ h + w.len ∧ p = w.base + (a - h) := by
  induction ws with
  | nil => intro rs a p h; simp [translate] at h
  | cons w ws ih =>
    intro rs a p h
    cases rs with
    | nil => simp [translate] at h
    | cons r rs =>
      have hrest : translate ws rs a = some p → ∃ (r' : Nat) (w' : Window) (h : Addr),
          (w :: ws)[r']? = some w' ∧ (r :: rs)[r']? = some (.mapped h) ∧ h ≤ a ∧
            a + 4 ≤ h + w'.len ∧ p = w'.base + (a - h) := by
        intro ht
        obtain ⟨x, y, z, h1, h2, h3⟩ := ih rs a p ht
        exact ⟨x + 1, y, z, by simpa using h1, by simpa using h2, h3⟩
      cases r with
      | unmapped => rw [translate] at h; exact hrest h
      | mapped h' =>
        rw [translate] at h
        split at h
        · rename_i hc
          cases h
          exact ⟨0, w, h', rfl, rfl, hc.1, hc.2, rfl⟩
        · exact hrest h

/-- When no two windows overlap, a word inside the window of region `r` is reached through region `r`
(R51). -/
theorem translate_mapped (ws : List Window) :
    ∀ (hs : List Nat) (r a : Nat), HandlesApart ws hs → r < hs.length →
      hs.getD r 0 ≤ a → a + 4 ≤ hs.getD r 0 + (ws.getD r default).len → hs.length = ws.length →
      translate ws (hs.map .mapped) a = some ((ws.getD r default).base + (a - hs.getD r 0)) := by
  induction ws with
  | nil => intro hs r a _ hr _ _ hl; simp at hl; subst hl; simp at hr
  | cons w ws ih =>
    intro hs r a hap hr h1 h2 hl
    cases hs with
    | nil => simp at hr
    | cons h hs =>
      simp only [List.map_cons, translate]
      cases r with
      | zero => simp at h1 h2; simp [h1, h2]
      | succ r =>
        have hp := hap 0 (by simp) (r + 1) hr (by omega)
        simp only [windowsApart, List.getD_cons_zero, List.getD_cons_succ, Bool.or_eq_true,
          decide_eq_true_eq] at hp h1 h2
        rw [if_neg (by simp only [Addr] at *; omega)]
        refine ih hs r a ?_ (by simpa using hr) h1 h2 (by simpa using hl)
        intro x hx y hy hxy
        exact hap (x + 1) (by simpa using hx) (y + 1) (by simpa using hy) (by omega)

/-- With distinct physical addresses, the register at the address of `r` is `r` (R55). -/
theorem regAt_physAddr (cfg : Config) (k : Backend) (hd : regsDistinct cfg k = true) (r : Reg)
    (hr : r ∈ controllerRegs k) : regAt cfg k (physAddr cfg k r) = some r := by
  simp only [regsDistinct, decide_eq_true_eq] at hd
  rw [regAt]
  revert hd hr
  generalize controllerRegs k = l
  intro hr hd
  induction l with
  | nil => simp at hr
  | cons x l ih =>
    simp only [List.map_cons, List.nodup_cons] at hd
    rw [List.find?_cons]
    rcases List.mem_cons.mp hr with rfl | hm
    · simp
    · have hne : (physAddr cfg k x == physAddr cfg k r) = false := by
        rw [beq_eq_false_iff_ne]
        intro he
        exact hd.1 (he ▸ List.mem_map_of_mem hm)
      rw [ih hm hd.2, hne]

/-- Every register belongs to a bank there is. -/
theorem bank_lt_nbanks (k : Backend) : ∀ r ∈ controllerRegs k, r.bank < nbanks k := by
  cases k <;> decide

/-- A context opened with handles apart reaches every register (R51, R55). -/
theorem reaches_of_handles (s : State) (hs : List Addr)
    (hwf : backendWf s.cfg s.backend = true) (hl : hs.length = s.windows.length)
    (hap : HandlesApart s.windows hs) (hr : s.regions = hs.map .mapped)
    (hb : s.bankBase = s.basesFrom hs) : s.Reaches := by
  simp only [backendWf, Bool.and_eq_true] at hwf
  obtain ⟨⟨⟨⟨_, hplaced⟩, _⟩, hinside⟩, hdistinct⟩ := hwf
  intro r hm
  have hbl := bank_lt_nbanks _ r hm
  have hp : (bankPlace s.cfg s.backend r.bank).region < s.windows.length := by
    simp only [banksPlaced, List.all_eq_true, List.mem_range, decide_eq_true_eq] at hplaced
    exact hplaced _ hbl
  have hw := List.all_eq_true.mp hinside r hm
  simp only [decide_eq_true_eq] at hw
  have ha : s.regAddr r = hs.getD (bankPlace s.cfg s.backend r.bank).region 0
      + (bankPlace s.cfg s.backend r.bank).offset + regOffset s.cfg r := by
    simp only [State.regAddr, hb, State.basesFrom]
    simp [List.getD_eq_getElem?_getD, List.getElem?_map, List.getElem?_range hbl]
  have hg : ∀ i : Nat, s.windows[i]?.getD default = s.windows.getD i default := by intro i; simp
  have hwin : (regionWindows s.cfg s.backend)[(bankPlace s.cfg s.backend r.bank).region]?.getD default
      = s.windows.getD (bankPlace s.cfg s.backend r.bank).region default := hg _
  rw [hwin] at hw
  rw [State.target, hr, translate_mapped s.windows hs (bankPlace s.cfg s.backend r.bank).region
    (s.regAddr r) hap (by omega) (by rw [ha]; simp only [Addr] at *; omega)
    (by rw [ha]; simp only [Addr] at *; omega) hl]
  have hphys : (s.windows.getD (bankPlace s.cfg s.backend r.bank).region default).base
      + (s.regAddr r - hs.getD (bankPlace s.cfg s.backend r.bank).region 0)
      = physAddr s.cfg s.backend r := by
    rw [physAddr, ha]
    simp only [hwin, Addr]
    omega
  rw [hphys]
  exact regAt_physAddr _ _ hdistinct r hm

/-- A mapping loop that ends with every region mapped was granted every request (R83). -/
theorem granted_of_allMapped (ws : List Window) :
    ∀ (r : Nat) (s t : State), mapFrom r ws s = .allMapped t →
      ∃ hs : List Addr, hs.length = ws.length ∧ s.Grants hs := by
  induction ws with
  | nil => intro r s t _; exact ⟨[], rfl, by intro r h; simp at h⟩
  | cons w ws ih =>
    intro r s t h
    rw [mapFrom] at h
    split at h
    · next hd hn =>
      obtain ⟨hs, h1, h2⟩ := ih _ _ _ h
      refine ⟨hd :: hs, by simp [h1], ?_⟩
      intro j hj
      cases j with
      | zero => rw [← nextAnswer_eq]; exact hn
      | succ j =>
        have := h2 j (by simpa using hj)
        rw [answerAt_succ s _ rfl rfl] at this
        exact this
    · cases h

end Sys2Proof.Machine
end

