-- ==== Sys2Proof/Laws/Registers.lean ====
section
/-! SUPPORT. Registers by index: a register written reads back, every other register is as it was; the
closed form of the direction loop, one pin at a time. -/

namespace Sys2Proof.Machine

/-! ### Writing and reading back -/

theorem getD_of_lt {n : Nat} (v : Vector Word n) (i : Nat) (d : Word) (h : i < n) :
    v.getD i d = v[i] := by
  simp [Vector.getD, h]

theorem getD_of_not_lt {n : Nat} (v : Vector Word n) (i : Nat) (d : Word) (h : ¬ i < n) :
    v.getD i d = d := by
  simp [Vector.getD, h]

theorem getD_setIfInBounds {n : Nat} (v : Vector Word n) (i j : Nat) (x d : Word) (hi : i < n) :
    (v.setIfInBounds i x).getD j d = if j = i then x else v.getD j d := by
  by_cases hj : j < n
  · rw [getD_of_lt _ _ _ hj, getD_of_lt _ _ _ hj, Vector.getElem_setIfInBounds]
    by_cases h : i = j
    · simp [h]
    · simp [h, Ne.symm h]
  · have : j ≠ i := by omega
    rw [getD_of_not_lt _ _ _ hj, getD_of_not_lt _ _ _ hj, if_neg this]

@[simp] theorem CtlA.fselWord_setFsel (c : CtlA) (w w' : Nat) (v : Word) (hw : w < 6) :
    (c.setFsel w v).fselWord w' = if w' = w then v else c.fselWord w' :=
  getD_setIfInBounds c.fsel w w' v 0 hw

@[simp] theorem CtlA.latchWord_setFsel (c : CtlA) (w b : Nat) (v : Word) :
    (c.setFsel w v).latchWord b = c.latchWord b := rfl

@[simp] theorem CtlA.latchWord_setLatch (c : CtlA) (b b' : Nat) (v : Word) (hb : b < 2) :
    (c.setLatch b v).latchWord b' = if b' = b then v else c.latchWord b' :=
  getD_setIfInBounds c.latch b b' v 0 hb

@[simp] theorem CtlA.fselWord_setLatch (c : CtlA) (b w : Nat) (v : Word) :
    (c.setLatch b v).fselWord w = c.fselWord w := rfl

@[simp] theorem CtlB.oeWord_setOe (c : CtlB) (b b' : Nat) (v : Word) (hb : b < 6) :
    (c.setOe b v).oeWord b' = if b' = b then v else c.oeWord b' :=
  getD_setIfInBounds c.oe b b' v 0 hb

@[simp] theorem CtlB.dataOutWord_setOe (c : CtlB) (b b' : Nat) (v : Word) :
    (c.setOe b v).dataOutWord b' = c.dataOutWord b' := rfl

@[simp] theorem CtlB.dataOutWord_setDataOut (c : CtlB) (b b' : Nat) (v : Word) (hb : b < 6) :
    (c.setDataOut b v).dataOutWord b' = if b' = b then v else c.dataOutWord b' :=
  getD_setIfInBounds c.dataOut b b' v 0 hb

@[simp] theorem CtlB.oeWord_setDataOut (c : CtlB) (b b' : Nat) (v : Word) :
    (c.setDataOut b v).oeWord b' = c.oeWord b' := rfl

theorem setIfInBounds_twice {n : Nat} (v : Vector Word n) (i : Nat) (x y : Word) :
    (v.setIfInBounds i x).setIfInBounds i y = v.setIfInBounds i y := by
  ext j hj
  simp only [Vector.getElem_setIfInBounds]
  by_cases h : i = j <;> simp [h]

@[simp] theorem CtlA.setLatch_setLatch (c : CtlA) (b : Nat) (x y : Word) :
    (c.setLatch b x).setLatch b y = c.setLatch b y := by
  simp only [CtlA.setLatch, setIfInBounds_twice]

@[simp] theorem CtlB.setDataOut_setDataOut (c : CtlB) (b : Nat) (x y : Word) :
    (c.setDataOut b x).setDataOut b y = c.setDataOut b y := by
  simp only [CtlB.setDataOut, setIfInBounds_twice]

/-- Two Backend A controllers with the same registers are the same. -/
theorem CtlA.eq_of_words {c d : CtlA} (hf : ∀ w < 6, c.fselWord w = d.fselWord w)
    (hl : ∀ b < 2, c.latchWord b = d.latchWord b) : c = d := by
  cases c with | mk cf cl => cases d with | mk df dl =>
  have h1 : cf = df := by
    ext1 w hw
    simpa only [CtlA.fselWord, getD_of_lt _ _ _ hw] using hf w hw
  have h2 : cl = dl := by
    ext1 w hw
    simpa only [CtlA.latchWord, getD_of_lt _ _ _ hw] using hl w hw
  rw [h1, h2]

/-! ### set and then clear is `withLevels` -/

/-- The set write and the clear write of `set_output` together (R92, R93). -/
theorem set_clear_levels (old m value : Word) :
    (old ||| (m &&& value)) &&& ~~~(m &&& ~~~value) = withLevels old m value := by
  apply word_ext
  intro i hi
  simp only [withLevels, BitVec.getLsbD_and, BitVec.getLsbD_or, BitVec.getLsbD_not, hi, decide_true,
    Bool.true_and]
  cases old.getLsbD i <;> cases m.getLsbD i <;> cases value.getLsbD i <;> rfl

/-- Output bit i after the level writes. -/
theorem withLevels_getLsbD (old m value : Word) (i : Nat) :
    (withLevels old m value).getLsbD i
      = if m.getLsbD i then value.getLsbD i else old.getLsbD i := by
  by_cases hi : i < 32
  · simp only [withLevels, BitVec.getLsbD_and, BitVec.getLsbD_or, BitVec.getLsbD_not, hi,
      decide_true, Bool.true_and]
    cases old.getLsbD i <;> cases m.getLsbD i <;> cases value.getLsbD i <;> rfl
  · simp [BitVec.getLsbD_of_ge _ i (Nat.le_of_not_lt hi)]

/-! ### The closed form of the direction loop -/

@[simp] theorem CtlA.latchWord_withDirections (c : CtlA) (b b' : Nat) (code m : Word) :
    (c.withDirections b code m).latchWord b' = c.latchWord b' := rfl

theorem CtlA.fselWord_withDirections (c : CtlA) (b w : Nat) (code m : Word) (hw : w < 6) :
    (c.withDirections b code m).fselWord w = wordOfBits fun j =>
      if bitSelected m b w j then code.getLsbD (j % 3) else (c.fselWord w).getLsbD j := by
  simp [CtlA.withDirections, CtlA.fselWord, getD_of_lt _ _ _ hw]

theorem CtlA.fselWord_withDirections_getLsbD (c : CtlA) (b w j : Nat) (code m : Word) (hw : w < 6)
    (hj : j < 32) :
    ((c.withDirections b code m).fselWord w).getLsbD j
      = if bitSelected m b w j then code.getLsbD (j % 3) else (c.fselWord w).getLsbD j := by
  rw [CtlA.fselWord_withDirections _ _ _ _ _ hw, wordOfBits_getLsbD]
  simp only [hj, decide_true, Bool.true_and]

/-- Selecting no pin changes nothing. -/
theorem CtlA.withDirections_none (c : CtlA) (b : Nat) (code m : Word)
    (hm : ∀ i, m.getLsbD i = false) : c.withDirections b code m = c := by
  apply CtlA.eq_of_words
  · intro w hw
    apply word_ext
    intro j hj
    simp [CtlA.fselWord_withDirections_getLsbD _ _ _ _ _ _ hw hj, bitSelected, hm]
  · intro w _
    rfl

theorem pinsBelow_zero (m : Word) (i : Nat) : (pinsBelow m 0).getLsbD i = false := by
  simp [pinsBelow_getLsbD]

theorem pinsBelow_all (m : Word) : pinsBelow m 32 = m := by
  apply word_ext
  intro i hi
  rw [pinsBelow_getLsbD _ _ _ (Nat.le_refl _)]
  simp only [hi, decide_true, Bool.and_true]

/-- A pin the mask does not select adds nothing. -/
theorem pinsBelow_succ_skip (m : Word) (i : Nat) (hi : i < 32) (hm : m.getLsbD i = false) :
    pinsBelow m (i + 1) = pinsBelow m i := by
  apply word_ext
  intro j _
  rw [pinsBelow_getLsbD _ _ _ (by omega), pinsBelow_getLsbD _ _ _ (by omega)]
  by_cases h : j = i
  · simp [h, hm]
  · rw [show decide (j < i + 1) = decide (j < i) by rw [decide_eq_decide]; omega]

/-- The bits of one pin's field: the word and the field of R29. -/
theorem bitSelected_succ (m : Word) (b i w j : Nat) (hi : i < 32) (hm : m.getLsbD i = true) :
    bitSelected (pinsBelow m (i + 1)) b w j
      = (bitSelected (pinsBelow m i) b w j
          || (decide (w = (pinPlace b i).word) && decide ((pinPlace b i).shift ≤ j)
              && decide (j < (pinPlace b i).shift + 3))) := by
  have hw : (pinPlace b i).word = (32 * b + i) / 10 := rfl
  have hs : (pinPlace b i).shift = (32 * b + i) % 10 * 3 := rfl
  rw [Bool.eq_iff_iff]
  simp only [bitSelected, hw, hs, Bool.and_eq_true, Bool.or_eq_true, decide_eq_true_eq,
    pinsBelow_getLsbD m (i + 1) _ (by omega), pinsBelow_getLsbD m i _ (by omega)]
  constructor
  · rintro ⟨⟨h30, hb⟩, hmj, hlt⟩
    by_cases hg : 10 * w + j / 3 - 32 * b = i
    · right; omega
    · left; exact ⟨⟨h30, hb⟩, hmj, by omega⟩
  · rintro (⟨⟨h30, hb⟩, hmj, hlt⟩ | ⟨⟨h1, h2⟩, h3⟩)
    · exact ⟨⟨h30, hb⟩, hmj, by omega⟩
    · have hg : 10 * w + j / 3 - 32 * b = i := by omega
      exact ⟨⟨by omega, by omega⟩, by rw [hg]; exact hm, by omega⟩

/-- The read-modify-write of pin i takes the closed form from the pins below i to the pins below
i + 1 (R92, R95). -/
theorem setFsel_withDirections (c : CtlA) (b i : Nat) (code m : Word) (hi : i < 32)
    (hw : (pinPlace b i).word < 6) (hm : m.getLsbD i = true)
    (hc : ∀ k, 3 ≤ k → code.getLsbD k = false) :
    (c.withDirections b code (pinsBelow m i)).setFsel (pinPlace b i).word
        (setField ((c.withDirections b code (pinsBelow m i)).fselWord (pinPlace b i).word)
          (pinPlace b i).shift code)
      = c.withDirections b code (pinsBelow m (i + 1)) := by
  apply CtlA.eq_of_words
  · intro w hw6
    rw [CtlA.fselWord_setFsel _ _ _ _ hw]
    apply word_ext
    intro j hj
    rw [CtlA.fselWord_withDirections_getLsbD _ _ _ _ _ _ hw6 hj, bitSelected_succ m b i w j hi hm]
    by_cases h : w = (pinPlace b i).word
    · subst h
      simp only [if_true, decide_true, Bool.true_and]
      rw [setField_getLsbD _ _ _ _ hc hj]
      by_cases hin : (pinPlace b i).shift ≤ j ∧ j < (pinPlace b i).shift + 3
      · rw [if_pos hin]
        have hmod : j - (pinPlace b i).shift = j % 3 := by
          simp only [pinPlace] at hin ⊢; omega
        simp [hin.1, hin.2, hmod]
      · rw [if_neg hin, CtlA.fselWord_withDirections_getLsbD _ _ _ _ _ _ hw6 hj]
        have : (decide ((pinPlace b i).shift ≤ j) && decide (j < (pinPlace b i).shift + 3)) = false := by
          rw [← Bool.decide_and, decide_eq_false_iff_not]; exact hin
        rw [this, Bool.or_false]
    · rw [if_neg h, CtlA.fselWord_withDirections_getLsbD _ _ _ _ _ _ hw6 hj]
      simp [h]
  · intro b' _
    simp

/-- The owning word of a pin the bank has is one of the six (R29). -/
theorem pinPlace_word_lt {cfg : Config} {b i : Nat} {m : Word} (hb : b < 2)
    (hm : (m &&& validMask cfg .A b).getLsbD i = true) : (pinPlace b i).word < 6 := by
  have hi : i < 32 := BitVec.lt_of_getLsbD hm
  have hb' : b = 0 ∨ b = 1 := by omega
  rcases hb' with rfl | rfl
  · simp only [pinPlace]; omega
  · rw [validMask_A_one, BitVec.getLsbD_and, narrowMask_getLsbD] at hm
    simp only [Bool.and_eq_true, decide_eq_true_eq] at hm
    simp only [pinPlace]; omega

/-- The field of a pin after the loop: `code` if the pin was selected, as before if not (R91, R94). -/
theorem fieldOf_withDirections (c : CtlA) (b b' i : Nat) (code m : Word)
    (hw : (pinPlace b' i).word < 6)
    (hc : ∀ k, 3 ≤ k → code.getLsbD k = false) :
    (c.withDirections b code m).fieldOf b' i
      = if decide (32 * b ≤ 32 * b' + i) && m.getLsbD (32 * b' + i - 32 * b) then code
        else c.fieldOf b' i := by
  apply word_ext
  intro k _
  simp only [CtlA.fieldOf]
  rw [getField_getLsbD]
  by_cases hk : k < 3
  · have hj : (pinPlace b' i).shift + k < 32 := by simp only [pinPlace]; omega
    rw [CtlA.fselWord_withDirections_getLsbD _ _ _ _ _ _ hw hj]
    have hsel : bitSelected m b (pinPlace b' i).word ((pinPlace b' i).shift + k)
        = (decide (32 * b ≤ 32 * b' + i) && m.getLsbD (32 * b' + i - 32 * b)) := by
      have e1 : 10 * (pinPlace b' i).word + ((pinPlace b' i).shift + k) / 3 = 32 * b' + i := by
        simp only [pinPlace]; omega
      have e2 : (pinPlace b' i).shift + k < 30 := by simp only [pinPlace]; omega
      simp only [bitSelected, e1, decide_eq_true e2, Bool.true_and]
    have hmod : ((pinPlace b' i).shift + k) % 3 = k := by simp only [pinPlace]; omega
    rw [hsel, hmod]
    split
    · simp [hk]
    · rw [getField_getLsbD]
  · split
    · simp [hk, hc k (by omega)]
    · rw [getField_getLsbD]; simp [hk]

end Sys2Proof.Machine
end

