-- ==== Sys2Proof/Laws/Loops.lean ====
section
/-! SUPPORT. What each register-bus sequence of the per-bank operations does, in closed form, when the
registers are reached and the bus completes the accesses. -/

namespace Sys2Proof.Machine

theorem backend_with_a (s : State) (c d : CtlA) (h : s.ctl = .a c) :
    ({ s with ctl := .a d } : State).backend = s.backend := by
  simp [State.backend, h]

theorem backend_with_b (s : State) (c d : CtlB) (h : s.ctl = .b c) :
    ({ s with ctl := .b d } : State).backend = s.backend := by
  simp [State.backend, h]

theorem Access.andThen_done {α β : Type} (v : α) (s : State) (f : α → State → Access β) :
    (Access.done v s).andThen f = f v s := rfl

theorem Access.andThen_failed {α β : Type} (s : State) (f : α → State → Access β) :
    (Access.failed s).andThen f = .failed s := rfl

/-- Reaching the registers is kept by a new controller of the same backend and by events. -/
theorem reaches_update_a {s : State} {c : CtlA} (h : s.ctl = .a c) (d : CtlA) (evs : List Event)
    (hR : s.Reaches) : ({ s with ctl := .a d }.afterEvents evs : State).Reaches :=
  ((sameMap_ctl s (.a d) (backend_with_a s c d h)).trans (sameMap_afterEvents _ evs)).reaches.mpr hR

theorem reaches_update_b {s : State} {c : CtlB} (h : s.ctl = .b c) (d : CtlB) (evs : List Event)
    (hR : s.Reaches) : ({ s with ctl := .b d }.afterEvents evs : State).Reaches :=
  ((sameMap_ctl s (.b d) (backend_with_b s c d h)).trans (sameMap_afterEvents _ evs)).reaches.mpr hR

/-! ### The read-modify-write sequences -/

/-- One function-select field: read the word, write it with the field replaced (R92, R95). -/
theorem rmwField_done {s : State} {d : CtlA} (b : Nat) (code : Word) (i : Nat) (hctl : s.ctl = .a d)
    (hR : s.Reaches) (hw : (pinPlace b i).word < 6) (hbus : s.BusCompletes 2) :
    rmwField b code i s = .done ()
      ({ s with ctl := .a (d.setFsel (pinPlace b i).word
          (setField (d.fselWord (pinPlace b i).word) (pinPlace b i).shift code)) }.afterEvents
        [s.readEvent (.fsel (pinPlace b i).word) (d.fselWord (pinPlace b i).word),
         s.writeEvent (.fsel (pinPlace b i).word)
          (setField (d.fselWord (pinPlace b i).word) (pinPlace b i).shift code)]) := by
  have hk : s.backend = .A := backend_a hctl
  have hmem : Reg.fsel (pinPlace b i).word ∈ controllerRegs s.backend := by
    rw [hk]; exact fsel_mem hw
  have hread := regRead_done (v := d.fselWord (pinPlace b i).word) hR hmem
    (by simp [State.regValue, hctl]) (BusCompletes_mono hbus (by omega))
  rw [rmwField, hread, Access.andThen_done]
  let s1 := s.afterEvents [s.readEvent (.fsel (pinPlace b i).word) (d.fselWord (pinPlace b i).word)]
  have hR1 : s1.Reaches := (sameMap_afterEvents s _).reaches.mpr hR
  have hwrite := regWrite_done (s := s1) (r := .fsel (pinPlace b i).word)
    (v := setField (d.fselWord (pinPlace b i).word) (pinPlace b i).shift code)
    (ctl := .a (d.setFsel (pinPlace b i).word
      (setField (d.fselWord (pinPlace b i).word) (pinPlace b i).shift code))) hR1
    (by have : s1.backend = s.backend := rfl
        rw [this]; exact hmem)
    (by simp [s1, storeReg, hctl])
    (busCompletes_afterEvents s _ 1 hbus)
  show regWrite _ _ s1 = _
  rw [hwrite]
  show Access.done () ((({ s with ctl := _ } : State).afterEvents _).afterEvents _) = _
  rw [afterEvents_append]
  rfl

/-- The whole-word read-modify-write of an output-enable register (R93, R96). -/
theorem rmwOe_done {s : State} {d : CtlB} (b : Nat) (f : Word → Word) (hctl : s.ctl = .b d)
    (hR : s.Reaches) (hb : b < 6) (hbus : s.BusCompletes 2) :
    rmwOe b f s = .done ()
      ({ s with ctl := .b (d.setOe b (f (d.oeWord b))) }.afterEvents
        [s.readEvent (.oe b) (d.oeWord b), s.writeEvent (.oe b) (f (d.oeWord b))]) := by
  have hk : s.backend = .B := backend_b hctl
  have hmem : Reg.oe b ∈ controllerRegs s.backend := by rw [hk]; exact oe_mem hb
  have hread := regRead_done (v := d.oeWord b) hR hmem
    (by simp [State.regValue, hctl]) (BusCompletes_mono hbus (by omega))
  rw [rmwOe, hread, Access.andThen_done]
  let s1 := s.afterEvents [s.readEvent (.oe b) (d.oeWord b)]
  have hR1 : s1.Reaches := (sameMap_afterEvents s _).reaches.mpr hR
  have hwrite := regWrite_done (s := s1) (r := .oe b) (v := f (d.oeWord b))
    (ctl := .b (d.setOe b (f (d.oeWord b)))) hR1
    (by have : s1.backend = s.backend := rfl
        rw [this]; exact hmem)
    (by simp [s1, storeReg, hctl])
    (busCompletes_afterEvents s _ 1 hbus)
  show regWrite _ _ s1 = _
  rw [hwrite]
  show Access.done () ((({ s with ctl := _ } : State).afterEvents _).afterEvents _) = _
  rw [afterEvents_append]
  rfl

/-! ### The per-pin loop -/

/-- The selected pins among `n` pins from pin `i` on. -/
def selectedFrom (m : Word) (i n : Nat) : List Nat :=
  (List.range' i n).filter fun j => m.getLsbD j

theorem selectedPins_eq (m : Word) : selectedPins m = selectedFrom m 0 32 := by
  simp [selectedPins, selectedFrom, pinsAscending, List.range_eq_range']

theorem selectedFrom_succ (m : Word) (i n : Nat) :
    selectedFrom m i (n + 1)
      = if m.getLsbD i then i :: selectedFrom m (i + 1) n else selectedFrom m (i + 1) n := by
  simp [selectedFrom, List.range'_succ, List.filter_cons]

theorem filter_rmwEvents (s : State) (c : CtlA) (b : Nat) (code m : Word) (l : List Nat) :
    ((l.flatMap (s.rmwEvents c b code m)).filter Event.isAccess).length = 2 * l.length := by
  induction l with
  | nil => rfl
  | cons i l ih =>
    rw [List.flatMap_cons, List.filter_append, List.length_append, ih, List.length_cons]
    have : ((s.rmwEvents c b code m i).filter Event.isAccess).length = 2 := rfl
    omega

/-- The direction loop over `n` pins from pin `i` on, the pins below `i` done (R92, R95). -/
theorem forPins_rmw_done (c : CtlA) (b : Nat) (code m : Word)
    (hword : ∀ i, m.getLsbD i = true → (pinPlace b i).word < 6)
    (hc : ∀ k, 3 ≤ k → code.getLsbD k = false) (n : Nat) :
    ∀ (i : Nat) (s : State), i + n ≤ 32 →
      s.ctl = .a (c.withDirections b code (pinsBelow m i)) → s.Reaches →
      s.BusCompletes (2 * (selectedFrom m i n).length) →
      forPins m (rmwField b code) (List.range' i n) s = .done ()
        ({ s with ctl := .a (c.withDirections b code (pinsBelow m (i + n))) }.afterEvents
          ((selectedFrom m i n).flatMap (s.rmwEvents c b code m))) := by
  induction n with
  | zero =>
    intro i s _ hctl _ _
    have : ({ s with ctl := .a (c.withDirections b code (pinsBelow m (i + 0))) } : State) = s := by
      rw [Nat.add_zero, ← hctl]
    rw [this]
    simp [selectedFrom, forPins]
  | succ n ih =>
    intro i s hn hctl hR hbus
    rw [List.range'_succ, forPins, selectedFrom_succ]
    by_cases hm : m.getLsbD i = true
    · rw [if_pos hm, if_pos hm]
      rw [selectedFrom_succ, if_pos hm, List.length_cons] at hbus
      have hw := hword i hm
      rw [rmwField_done b code i hctl hR hw (BusCompletes_mono hbus (by omega)),
        Access.andThen_done]
      rw [setFsel_withDirections c b i code m (by omega) hw hm hc]
      rw [ih (i + 1) _ (by omega) rfl (reaches_update_a hctl _ _ hR)
        (busCompletes_afterEvents _ _ _ (by
          have : ((([s.readEvent (.fsel (pinPlace b i).word)
              ((c.withDirections b code (pinsBelow m i)).fselWord (pinPlace b i).word),
            s.writeEvent (.fsel (pinPlace b i).word)
              (setField ((c.withDirections b code (pinsBelow m i)).fselWord (pinPlace b i).word)
                (pinPlace b i).shift code)] : List Event).filter Event.isAccess).length) = 2 := rfl
          rw [this]
          exact BusCompletes_mono hbus (by omega)))]
      show Access.done () (((({ s with ctl := _ } : State).afterEvents _)).afterEvents _) = _
      rw [afterEvents_append, List.flatMap_cons, show i + 1 + n = i + (n + 1) by omega]
      rfl
    · have hmf : m.getLsbD i = false := by simpa using hm
      rw [if_neg hm, if_neg hm]
      rw [selectedFrom_succ, if_neg hm] at hbus
      rw [ih (i + 1) s (by omega) (by rw [pinsBelow_succ_skip m i (by omega) hmf]; exact hctl) hR hbus,
        show i + 1 + n = i + (n + 1) by omega]

/-- The whole direction loop (R92, R95). -/
theorem directionLoop_done {s : State} {c : CtlA} (b : Nat) (code m : Word) (hctl : s.ctl = .a c)
    (hR : s.Reaches) (hword : ∀ i, m.getLsbD i = true → (pinPlace b i).word < 6)
    (hc : ∀ k, 3 ≤ k → code.getLsbD k = false)
    (hbus : s.BusCompletes (2 * (selectedPins m).length)) :
    forPins m (rmwField b code) pinsAscending s = .done ()
      ({ s with ctl := .a (c.withDirections b code m) }.afterEvents
        (s.directionEvents c b code m)) := by
  have h0 : c.withDirections b code (pinsBelow m 0) = c :=
    CtlA.withDirections_none c b code _ (pinsBelow_zero m)
  have h := forPins_rmw_done c b code m hword hc 32 0 s (by omega) (by rw [h0]; exact hctl) hR
    (by rw [← selectedPins_eq]; exact hbus)
  rw [pinsAscending, List.range_eq_range', h, Nat.zero_add, pinsBelow_all, State.directionEvents,
    selectedPins_eq]

/-! ### The reading loop of get_direction -/

/-- The result of the reading loop, the any bits as drawn at the moment of each read (R98). -/
def directionResult (c : CtlA) (b : Nat) : List Nat → Nat → Word → Word
  | [], _, r => r
  | i :: is, n, r =>
    directionResult c b is (n + 1)
      (if directionBit (c.fieldOf b i) n then r ||| ((1 : Word) <<< i) else r)

/-- The reading loop over `n` pins from pin `i` on (R98). -/
theorem readDirections_done {c : CtlA} (b : Nat) (m : Word)
    (hword : ∀ i, m.getLsbD i = true → (pinPlace b i).word < 6) (n : Nat) :
    ∀ (i : Nat) (r : Word) (s : State), s.ctl = .a c → s.Reaches →
      s.BusCompletes (selectedFrom m i n).length →
      readDirections b m (List.range' i n) r s =
        .done (directionResult c b (selectedFrom m i n) s.moment r)
          (s.afterEvents ((selectedFrom m i n).map fun j =>
            s.readEvent (.fsel (pinPlace b j).word) (c.fselWord (pinPlace b j).word))) := by
  induction n with
  | zero =>
    intro i r s _ _ _
    simp [selectedFrom, readDirections, directionResult]
  | succ n ih =>
    intro i r s hctl hR hbus
    rw [List.range'_succ, readDirections, selectedFrom_succ]
    by_cases hm : m.getLsbD i = true
    · rw [if_pos hm, if_pos hm]
      rw [selectedFrom_succ, if_pos hm, List.length_cons] at hbus
      have hw := hword i hm
      have hread := regRead_done (v := c.fselWord (pinPlace b i).word) hR
        (by rw [backend_a hctl]; exact fsel_mem hw)
        (by simp [State.regValue, hctl]) (BusCompletes_mono hbus (by omega))
      rw [hread, Access.andThen_done]
      let e := s.readEvent (.fsel (pinPlace b i).word) (c.fselWord (pinPlace b i).word)
      rw [show (s.afterRead (.fsel (pinPlace b i).word)).afterEvents [e] = s.afterEvents [e] from rfl,
        ih (i + 1) _ (s.afterEvents [e]) hctl ((sameMap_afterEvents s [e]).reaches.mpr hR)
          (busCompletes_afterEvents s [e] _ hbus)]
      rw [List.map_cons, directionResult]
      show Access.done _ ((s.afterEvents _).afterEvents _) = _
      rw [afterEvents_append]
      rfl
    · rw [if_neg hm, if_neg hm]
      rw [selectedFrom_succ, if_neg hm] at hbus
      exact ih (i + 1) r s hctl hR hbus

/-- Bit j of the result of the reading loop: a pin not listed keeps its bit. -/
theorem directionResult_other (c : CtlA) (b j : Nat) (l : List Nat) :
    ∀ (n : Nat) (r : Word), (∀ i ∈ l, i < 32) → j ∉ l →
      (directionResult c b l n r).getLsbD j = r.getLsbD j := by
  induction l with
  | nil => intros; rfl
  | cons i l ih =>
    intro n r hl hj
    simp only [List.mem_cons, not_or] at hj
    rw [directionResult, ih _ _ (fun k hk => hl k (by simp [hk])) hj.2]
    split
    · rw [BitVec.getLsbD_or, one_shiftLeft_getLsbD _ _ (hl i (by simp))]
      simp [hj.1]
    · rfl

/-- Bit j of the result for a listed pin whose field is input or output (R98). -/
theorem directionResult_listed (c : CtlA) (b j : Nat) (l : List Nat) :
    ∀ (n : Nat) (r : Word), (∀ i ∈ l, i < 32) → l.Nodup → j ∈ l → r.getLsbD j = false →
      (c.fieldOf b j = fselOut ∨ c.fieldOf b j = fselIn) →
      (directionResult c b l n r).getLsbD j = decide (c.fieldOf b j = fselOut) := by
  induction l with
  | nil => intro _ _ _ _ hj; simp at hj
  | cons i l ih =>
    intro n r hl hnd hj hr hf
    rw [directionResult]
    have hnd' := List.nodup_cons.mp hnd
    rcases List.mem_cons.mp hj with rfl | hjl
    · rw [directionResult_other c b j l _ _ (fun k hk => hl k (by simp [hk])) hnd'.1]
      rcases hf with hf | hf
      · have hbit : directionBit (c.fieldOf b j) n = true := by simp [directionBit, hf]
        rw [if_pos hbit, BitVec.getLsbD_or, one_shiftLeft_getLsbD _ _ (hl j (by simp))]
        simp [hf]
      · have hbit : directionBit (c.fieldOf b j) n = false := by
          simp [directionBit, hf, Ne.symm fselOut_ne_fselIn]
        have hne : ¬ c.fieldOf b j = fselOut := by rw [hf]; exact Ne.symm fselOut_ne_fselIn
        rw [hbit]
        simp only [Bool.false_eq_true, if_false, hr, hne, decide_false]
    · refine ih _ _ (fun k hk => hl k (by simp [hk])) hnd'.2 hjl ?_ hf
      have hne : j ≠ i := fun h => hnd'.1 (h ▸ hjl)
      split
      · rw [BitVec.getLsbD_or, one_shiftLeft_getLsbD _ _ (hl i (by simp))]
        simp [hr, hne]
      · exact hr

end Sys2Proof.Machine
end

