-- ==== Sys2Proof/Laws/Fault.lean ====
section
/-! SUPPORT. What any sequence of register-bus accesses can do, whether the accesses complete or not:
its frame, and that a bus which fails after k accesses cuts the sequence after k accesses and changes
nothing before (R122, R127). -/

namespace Sys2Proof.Machine

/-! ### The frame of a sequence of accesses -/

/-- What accesses leave alone and what they add: only the controller, by the writes on the bus, the
pin samples, the bus and the record of the ports change. -/
structure BusFrame (s t : State) : Prop where
  map : SameMap s t
  ctx : t.ctx = s.ctx
  platErr : t.platErr = s.platErr
  cmds : t.cmds = s.cmds
  mapAnswers : t.mapAnswers = s.mapAnswers
  added : ∃ evs, t.trace = s.trace ++ evs ∧ t.moment = s.moment + evs.length ∧
    t.ctl = replay s.ctl evs ∧ ∀ e ∈ evs, e.isAccess = true

theorem BusFrame.refl (s : State) : BusFrame s s :=
  ⟨SameMap.refl s, rfl, rfl, rfl, rfl, [], by simp, rfl, rfl, by simp⟩

theorem replay_append (ctl : Controller) (xs ys : List Event) :
    replay ctl (xs ++ ys) = replay (replay ctl xs) ys := by
  simp [replay, List.foldl_append]

theorem BusFrame.trans {s t u : State} (h : BusFrame s t) (h' : BusFrame t u) : BusFrame s u := by
  obtain ⟨xs, x1, x2, x3, x4⟩ := h.added
  obtain ⟨ys, y1, y2, y3, y4⟩ := h'.added
  refine ⟨h.map.trans h'.map, h'.ctx.trans h.ctx, h'.platErr.trans h.platErr,
    h'.cmds.trans h.cmds, h'.mapAnswers.trans h.mapAnswers, xs ++ ys, ?_, ?_, ?_, ?_⟩
  · rw [y1, x1, List.append_assoc]
  · rw [y2, x2, List.length_append]; omega
  · rw [y3, x3, replay_append]
  · intro e he
    rcases List.mem_append.mp he with he | he
    · exact x4 e he
    · exact y4 e he

/-- A sequence of accesses, completed or not, keeps the frame. -/
def Access.Framed {α : Type} (s : State) : Access α → Prop
  | .done _ t => BusFrame s t
  | .failed t => BusFrame s t

theorem Access.Framed.andThen {α β : Type} {s : State} {x : Access α} {f : α → State → Access β}
    (hx : x.Framed s) (hf : ∀ v t, (f v t).Framed t) : (x.andThen f).Framed s := by
  cases x with
  | failed t => exact hx
  | done v t =>
    have := hf v t
    show (f v t).Framed s
    revert this
    cases f v t with
    | done w u => exact fun h => BusFrame.trans hx h
    | failed u => exact fun h => BusFrame.trans hx h

theorem busTick_eq {s s1 : State} (h : s.busTick = some s1) : ∃ l, s1 = { s with busLife := l } := by
  cases hl : s.busLife with
  | none => simp [State.busTick, hl] at h; exact ⟨none, by rw [← h, ← hl]⟩
  | some k =>
    cases k with
    | zero => simp [State.busTick, hl] at h
    | succ k => simp [State.busTick, hl] at h; exact ⟨some k, h.symm⟩

theorem backend_storeReg {ctl ctl' : Controller} {r : Reg} {v : Word}
    (h : storeReg ctl r v = some ctl') (s : State) (hs : s.ctl = ctl) :
    ({ s with ctl := ctl' } : State).backend = s.backend := by
  subst hs
  revert h
  rw [State.backend, State.backend]
  cases s.ctl <;> cases r <;> simp only [storeReg, reduceCtorEq, false_implies, Option.some.injEq] <;>
    (intro h; subst h; rfl)

theorem memRead_framed (a : Addr) (s : State) : (memRead a s).Framed s := by
  rw [memRead]
  cases ht : s.busTick with
  | none => exact BusFrame.refl s
  | some s1 =>
    obtain ⟨l, rfl⟩ := busTick_eq ht
    cases s.target a with
    | none => exact BusFrame.refl s
    | some r =>
      cases hv : s.regValue r with
      | none => simp only [hv]; exact BusFrame.refl s
      | some v =>
        simp only [hv]
        refine ⟨⟨by simp, by simp [State.backend], by simp, by simp⟩, by simp, by simp, by simp,
          by simp, [.read a r v], by simp, by simp, by simp [replay, replayEvent], by simp⟩

theorem memWrite_framed (a : Addr) (v : Word) (s : State) : (memWrite a v s).Framed s := by
  rw [memWrite]
  cases ht : s.busTick with
  | none => exact BusFrame.refl s
  | some s1 =>
    obtain ⟨l, rfl⟩ := busTick_eq ht
    cases s.target a with
    | none => exact BusFrame.refl s
    | some r =>
      cases hv : storeReg s.ctl r v with
      | none => simp only [hv]; exact BusFrame.refl s
      | some ctl =>
        simp only [hv]
        refine ⟨⟨rfl, backend_storeReg hv s rfl, rfl, rfl⟩, rfl, rfl, rfl, rfl,
          [.write a r v], rfl, rfl, ?_, by simp⟩
        simp [replay, replayEvent, hv]

theorem regRead_framed (r : Reg) (s : State) : (regRead r s).Framed s := memRead_framed _ s

theorem regWrite_framed (r : Reg) (v : Word) (s : State) : (regWrite r v s).Framed s :=
  memWrite_framed _ v s

theorem done_framed {α : Type} (v : α) (s : State) : (Access.done v s).Framed s := BusFrame.refl s

theorem rmwField_framed (b : Nat) (code : Word) (i : Nat) (s : State) :
    (rmwField b code i s).Framed s :=
  (regRead_framed _ s).andThen fun _ t => regWrite_framed _ _ t

theorem rmwOe_framed (b : Nat) (f : Word → Word) (s : State) : (rmwOe b f s).Framed s :=
  (regRead_framed _ s).andThen fun _ t => regWrite_framed _ _ t

theorem forPins_framed (m : Word) (body : Nat → State → Access Unit)
    (hbody : ∀ i s, (body i s).Framed s) (l : List Nat) :
    ∀ s, (forPins m body l s).Framed s := by
  induction l with
  | nil => intro s; exact done_framed () s
  | cons i l ih =>
    intro s
    rw [forPins]
    split
    · exact (hbody i s).andThen fun _ t => ih t
    · exact ih s

theorem readDirections_framed (b : Nat) (m : Word) (l : List Nat) :
    ∀ (r : Word) (s : State), (readDirections b m l r s).Framed s := by
  induction l with
  | nil => intro r s; exact done_framed r s
  | cons i l ih =>
    intro r s
    rw [readDirections]
    split
    · exact (regRead_framed _ s).andThen fun _ t => ih _ t
    · exact ih r s

theorem setOutputA_framed (b : Nat) (m v : Word) (s : State) : (setOutputA b m v s).Framed s :=
  Access.Framed.andThen ((regWrite_framed _ _ s).andThen fun _ t => regWrite_framed _ _ t)
    fun _ t => forPins_framed m _ (rmwField_framed b _) _ t

theorem setOutputB_framed (b : Nat) (m v : Word) (s : State) : (setOutputB b m v s).Framed s :=
  Access.Framed.andThen ((regWrite_framed _ _ s).andThen fun _ t => regWrite_framed _ _ t)
    fun _ t => rmwOe_framed b _ t

theorem setInputA_framed (b : Nat) (m : Word) (s : State) : (setInputA b m s).Framed s :=
  forPins_framed m _ (rmwField_framed b _) _ s

theorem setInputB_framed (b : Nat) (m : Word) (s : State) : (setInputB b m s).Framed s :=
  rmwOe_framed b _ s

theorem getDirectionA_framed (b : Nat) (m : Word) (s : State) : (getDirectionA b m s).Framed s :=
  readDirections_framed b m _ 0 s

theorem getDirectionB_framed (b : Nat) (m : Word) (s : State) : (getDirectionB b m s).Framed s :=
  (regRead_framed _ s).andThen fun _ t => done_framed _ t

theorem getDatainA_framed (b : Nat) (m : Word) (s : State) : (getDatainA b m s).Framed s :=
  (regRead_framed _ s).andThen fun _ t => done_framed _ t

theorem getDatainB_framed (b : Nat) (m : Word) (s : State) : (getDatainB b m s).Framed s :=
  (regRead_framed _ s).andThen fun _ t =>
    (regRead_framed _ t).andThen fun _ u =>
      (regRead_framed _ u).andThen fun _ v => done_framed _ v

/-! ### A bus that fails cuts the sequence -/

/-- The same state with another bus. -/
def State.withBus (s : State) (l : Option Nat) : State := { s with busLife := l }

/-- The state a sequence ends in. -/
def Access.final {α : Type} : Access α → State
  | .done _ s => s
  | .failed s => s

@[simp] theorem Access.final_done {α : Type} (v : α) (s : State) :
    (Access.done v s).final = s := rfl

@[simp] theorem Access.final_failed {α : Type} (s : State) :
    (Access.failed s : Access α).final = s := rfl

@[simp] theorem State.withBus_trace (s : State) (l : Option Nat) : (s.withBus l).trace = s.trace := rfl

@[simp] theorem State.withBus_busLife (s : State) (l : Option Nat) : (s.withBus l).busLife = l := rfl

/-- The same end with another bus. -/
def Access.withBus {α : Type} (x : Access α) (l : Option Nat) : Access α :=
  match x with
  | .done v s => .done v (s.withBus l)
  | .failed s => .failed (s.withBus l)

/-- On a bus that fails after `k` accesses, a sequence that would make the accesses `evs` and end as
`x` ends the same way if they are at most `k`, and otherwise fails after the first `k` of them. -/
def CutsLike {α : Type} (s : State) (k : Nat) (x y : Access α) : Prop :=
  ∃ evs, x.final.trace = s.trace ++ evs ∧ x.final.busLife = none ∧
    (evs.length ≤ k → y = x.withBus (some (k - evs.length))) ∧
    (k < evs.length → ∃ u, y = .failed u ∧ u.busLife = some 0 ∧ u.trace = s.trace ++ evs.take k)

/-- A sequence of accesses in which the bus decides nothing but where it is cut. -/
def BusUniform {α : Type} (f : State → Access α) : Prop :=
  ∀ (s : State) (k : Nat), CutsLike s k (f (s.withBus none)) (f (s.withBus (some k)))

theorem busUniform_done {α : Type} (v : α) : BusUniform (fun s => Access.done v s) := by
  intro s k
  exact ⟨[], by simp, rfl, fun _ => rfl, fun h => absurd h (by simp)⟩

theorem memRead_uniform (a : State → Addr) (ha : ∀ s l, a (s.withBus l) = a s) :
    BusUniform (fun s => memRead (a s) s) := by
  intro s k
  simp only [ha, memRead]
  have hn : (s.withBus none).busTick = some (s.withBus none) := rfl
  rw [hn]
  have ht : ∀ l, (s.withBus l).target (a s) = s.target (a s) := fun _ => rfl
  have hv : ∀ l r, (s.withBus l).regValue r = s.regValue r := fun _ _ => rfl
  simp only [ht, hv]
  cases k with
  | zero =>
    have hz : (s.withBus (some 0)).busTick = none := rfl
    rw [hz]
    cases s.target (a s) with
    | none => exact ⟨[], by simp, rfl, fun _ => rfl, fun h => absurd h (by simp)⟩
    | some r =>
      cases hr : s.regValue r with
      | none =>
        simp only [hr]
        exact ⟨[], by simp, rfl, fun _ => rfl, fun h => absurd h (by simp)⟩
      | some v =>
        simp only [hr]
        exact ⟨[.read (a s) r v], by simp, by simp,
          fun h => absurd h (by simp), fun _ => ⟨_, rfl, rfl, by simp⟩⟩
  | succ k =>
    have hz : (s.withBus (some (k + 1))).busTick = some (s.withBus (some k)) := rfl
    rw [hz]
    cases s.target (a s) with
    | none => exact ⟨[], by simp, rfl, fun _ => rfl, fun h => absurd h (by simp)⟩
    | some r =>
      cases hr : s.regValue r with
      | none =>
        simp only [hr]
        exact ⟨[], by simp, rfl, fun _ => rfl, fun h => absurd h (by simp)⟩
      | some v =>
        simp only [hr]
        refine ⟨[.read (a s) r v], by simp, by simp, fun _ => ?_,
          fun h => absurd h (by simp)⟩
        cases r <;> rfl

theorem memWrite_uniform (a : State → Addr) (ha : ∀ s l, a (s.withBus l) = a s) (v : Word) :
    BusUniform (fun s => memWrite (a s) v s) := by
  intro s k
  simp only [ha, memWrite]
  have hn : (s.withBus none).busTick = some (s.withBus none) := rfl
  rw [hn]
  have ht : ∀ l, (s.withBus l).target (a s) = s.target (a s) := fun _ => rfl
  have hv : ∀ l, (s.withBus l).ctl = s.ctl := fun _ => rfl
  simp only [ht, hv]
  cases k with
  | zero =>
    have hz : (s.withBus (some 0)).busTick = none := rfl
    rw [hz]
    cases s.target (a s) with
    | none => exact ⟨[], by simp, rfl, fun _ => rfl, fun h => absurd h (by simp)⟩
    | some r =>
      cases hr : storeReg s.ctl r v with
      | none =>
        simp only [hr]
        exact ⟨[], by simp, rfl, fun _ => rfl, fun h => absurd h (by simp)⟩
      | some ctl =>
        simp only [hr]
        exact ⟨[.write (a s) r v], by simp, rfl,
          fun h => absurd h (by simp), fun _ => ⟨_, rfl, rfl, by simp⟩⟩
  | succ k =>
    have hz : (s.withBus (some (k + 1))).busTick = some (s.withBus (some k)) := rfl
    rw [hz]
    cases s.target (a s) with
    | none => exact ⟨[], by simp, rfl, fun _ => rfl, fun h => absurd h (by simp)⟩
    | some r =>
      cases hr : storeReg s.ctl r v with
      | none =>
        simp only [hr]
        exact ⟨[], by simp, rfl, fun _ => rfl, fun h => absurd h (by simp)⟩
      | some ctl =>
        simp only [hr]
        exact ⟨[.write (a s) r v], by simp, rfl, fun _ => rfl,
          fun h => absurd h (by simp)⟩

theorem regRead_uniform (r : Reg) : BusUniform (regRead r) :=
  memRead_uniform (fun s => s.regAddr r) fun _ _ => rfl

theorem regWrite_uniform (r : Reg) (v : Word) : BusUniform (regWrite r v) :=
  memWrite_uniform (fun s => s.regAddr r) (fun _ _ => rfl) v

theorem withBus_none_eq {t : State} (h : t.busLife = none) : t.withBus none = t := by
  cases t; simp_all [State.withBus]

theorem withBus_withBus (t : State) (l l' : Option Nat) : (t.withBus l).withBus l' = t.withBus l' := rfl

/-- One sequence after another, which may use the moment the first began at. -/
theorem BusUniform.andThenAt {α β : Type} {f : State → Access α} {g' : Nat → α → State → Access β}
    (hf : BusUniform f) (hg' : ∀ n v, BusUniform (g' n v)) :
    BusUniform (fun s => (f s).andThen (g' s.moment)) := by
  intro s k
  obtain ⟨evs, e1, e2, e3, e4⟩ := hf s k
  have hg := hg' s.moment
  generalize hgs : g' s.moment = g at hg
  have hga : ∀ l, g' (s.withBus l).moment = g := fun _ => hgs
  simp only [hga]
  show CutsLike s k ((f (s.withBus none)).andThen g) ((f (s.withBus (some k))).andThen g)
  revert e1 e2 e3 e4
  cases f (s.withBus none) with
  | failed t =>
    intro e1 e2 e3 e4
    refine ⟨evs, e1, e2, fun h => ?_, fun h => ?_⟩
    · rw [e3 h]; rfl
    · obtain ⟨u, u1, u2, u3⟩ := e4 h
      exact ⟨u, by rw [u1]; rfl, u2, u3⟩
  | done v t =>
    intro e1 e2 e3 e4
    obtain ⟨ys, y1, y2, y3, y4⟩ := hg v t (k - evs.length)
    rw [withBus_none_eq (t := t) e2] at y1 y2 y3
    refine ⟨evs ++ ys, by rw [Access.andThen_done, y1]; exact (congrArg (· ++ ys) e1).trans (by simp),
      y2, fun h => ?_, fun h => ?_⟩
    · rw [List.length_append] at h
      rw [e3 (by omega)]
      show g v (t.withBus (some (k - evs.length))) = (g v t).withBus _
      rw [y3 (by omega), List.length_append, Nat.sub_sub]
    · by_cases hk : k < evs.length
      · obtain ⟨u, u1, u2, u3⟩ := e4 hk
        exact ⟨u, by rw [u1]; rfl, u2, by rw [u3, List.take_append_of_le_length (by omega)]⟩
      · rw [List.length_append] at h
        rw [e3 (by omega)]
        obtain ⟨u, u1, u2, u3⟩ := y4 (by omega)
        refine ⟨u, u1, u2, ?_⟩
        rw [u3, show t.trace = s.trace ++ evs from e1, List.append_assoc, List.take_append,
          List.take_of_length_le (l := evs) (by omega)]

/-- One sequence after another. -/
theorem BusUniform.andThen {α β : Type} {f : State → Access α} {g : α → State → Access β}
    (hf : BusUniform f) (hg : ∀ v, BusUniform (g v)) :
    BusUniform (fun s => (f s).andThen g) :=
  hf.andThenAt (g' := fun _ => g) fun _ => hg

theorem rmwField_uniform (b : Nat) (code : Word) (i : Nat) : BusUniform (rmwField b code i) :=
  (regRead_uniform _).andThen fun _ => regWrite_uniform _ _

theorem rmwOe_uniform (b : Nat) (f : Word → Word) : BusUniform (rmwOe b f) :=
  (regRead_uniform _).andThen fun _ => regWrite_uniform _ _

theorem forPins_uniform (m : Word) (body : Nat → State → Access Unit)
    (hbody : ∀ i, BusUniform (body i)) (l : List Nat) : BusUniform (forPins m body l) := by
  induction l with
  | nil => exact busUniform_done ()
  | cons i l ih =>
    by_cases hm : m.getLsbD i = true
    · have : forPins m body (i :: l) = fun s => (body i s).andThen fun _ s1 => forPins m body l s1 := by
        funext s; rw [forPins, if_pos hm]
      rw [this]
      exact (hbody i).andThen fun _ => ih
    · have : forPins m body (i :: l) = forPins m body l := by
        funext s; rw [forPins, if_neg hm]
      rw [this]
      exact ih

theorem setOutputA_uniform (b : Nat) (m v : Word) : BusUniform (setOutputA b m v) :=
  BusUniform.andThen ((regWrite_uniform _ _).andThen fun _ => regWrite_uniform _ _)
    fun _ => forPins_uniform m _ (rmwField_uniform b _) _

theorem setOutputB_uniform (b : Nat) (m v : Word) : BusUniform (setOutputB b m v) :=
  BusUniform.andThen ((regWrite_uniform _ _).andThen fun _ => regWrite_uniform _ _)
    fun _ => rmwOe_uniform b _

theorem setInputA_uniform (b : Nat) (m : Word) : BusUniform (setInputA b m) :=
  forPins_uniform m _ (rmwField_uniform b _) _

theorem setInputB_uniform (b : Nat) (m : Word) : BusUniform (setInputB b m) := rmwOe_uniform b _

theorem readDirections_uniform (b : Nat) (m : Word) (l : List Nat) :
    ∀ r : Word, BusUniform (readDirections b m l r) := by
  induction l with
  | nil => intro r; exact busUniform_done r
  | cons i l ih =>
    intro r
    by_cases hm : m.getLsbD i = true
    · have : readDirections b m (i :: l) r = fun s =>
          (regRead (.fsel (pinPlace b i).word) s).andThen ((fun n t s1 =>
            readDirections b m l
              (if directionBit (getField t (pinPlace b i).shift) n then r ||| ((1 : Word) <<< i)
                else r) s1) s.moment) := by
        funext s; rw [readDirections, if_pos hm]
      rw [this]
      exact (regRead_uniform _).andThenAt (g' := fun n t s1 =>
            readDirections b m l
              (if directionBit (getField t (pinPlace b i).shift) n then r ||| ((1 : Word) <<< i)
                else r) s1) fun n t => ih _
    · have : readDirections b m (i :: l) r = readDirections b m l r := by
        funext s; rw [readDirections, if_neg hm]
      rw [this]
      exact ih r

theorem getDirectionA_uniform (b : Nat) (m : Word) : BusUniform (getDirectionA b m) :=
  readDirections_uniform b m _ 0

theorem getDirectionB_uniform (b : Nat) (m : Word) : BusUniform (getDirectionB b m) :=
  (regRead_uniform _).andThen fun t => busUniform_done (t &&& m)

theorem getDatainA_uniform (b : Nat) (m : Word) : BusUniform (getDatainA b m) :=
  (regRead_uniform _).andThen fun t => busUniform_done (t &&& m)

theorem getDatainB_uniform (b : Nat) (m : Word) : BusUniform (getDatainB b m) :=
  (regRead_uniform _).andThen fun oe =>
    (regRead_uniform _).andThen fun di =>
      (regRead_uniform _).andThen fun dout => busUniform_done (reconstruct oe di dout &&& m)

/-! ### What the cut means for a sequence whose course on a sound bus is known -/

theorem withBus_self {s : State} {l : Option Nat} (h : s.busLife = l) : s.withBus l = s := by
  subst h; rfl

/-- A sequence known to complete on a sound bus with the accesses `evs` fails on a bus that fails
earlier, having made the accesses before the failing one and no other (R122, R127). -/
theorem BusUniform.failed_of_short {α : Type} {f : State → Access α} (hf : BusUniform f) {s : State}
    {v : α} {t : State} {evs : List Event} (h : f (s.withBus none) = .done v t)
    (ht : t.trace = s.trace ++ evs) {k : Nat} (hk : s.busLife = some k) (hlt : k < evs.length) :
    ∃ u, f s = .failed u ∧ u.busLife = some 0 ∧ u.trace = s.trace ++ evs.take k := by
  obtain ⟨evs', e1, _, _, e4⟩ := hf s k
  rw [h, withBus_self hk] at *
  have : evs' = evs := by
    have : s.trace ++ evs' = s.trace ++ evs := by rw [← e1, ← ht]; rfl
    simpa using this
  subst this
  exact e4 hlt

/-- A bus that does not complete `n` accesses fails at one of them. -/
theorem not_busCompletes {s : State} {n : Nat} (h : ¬ s.BusCompletes n) :
    ∃ k, s.busLife = some k ∧ k < n := by
  cases hl : s.busLife with
  | none => exact absurd (fun k hk => by simp [hl] at hk) h
  | some k =>
    refine ⟨k, rfl, ?_⟩
    apply Nat.lt_of_not_le
    intro hle
    exact h (fun j hj => by simp [hl] at hj; omega)

end Sys2Proof.Machine
end

