-- ==== Sys2Proof/Laws/Commands.lean ====
section
/-! SUPPORT. The frame of a per-bank command (R90), the level writes of `set_output`, and what the
views of a pin are in terms of the controller's words (R25, R26). -/

namespace Sys2Proof.Machine

/-! ### The frame of a per-bank command -/

/-- With the preconditions met the command runs (R90). -/
theorem withBank_ready {s : State} {b : Nat} (h : s.Ready b)
    (run : State → Host.Outcome State Fault Refusal) : withBank b s run = run s := by
  simp [withBank, h.1, h.2.1]

/-- The end of a command with output "none" (R73). -/
theorem finishWrite_done {s : State} {ctl : Controller} {evs : List Event} :
    finishWrite (.done () ({ s with ctl := ctl }.afterEvents evs))
      = .next (s.afterWriteCommand ctl evs) := by
  simp [finishWrite, State.afterWriteCommand, State.afterEvents, State.loseError, State.respond,
    State.log]
  omega

/-- The end of a command with output "bitmask", `n` samples taken (R73). -/
theorem finishRead_done {s : State} {v : Word} {evs : List Event} (n : Nat) (l : List Word)
    (hl : l = s.pinIn.drop n) :
    finishRead (.done v ({ s with pinIn := l }.afterEvents evs))
      = .next (s.afterReadCommand evs n v) := by
  subst hl
  simp [finishRead, State.afterReadCommand, State.afterEvents, State.respond, State.log]
  omega

@[simp] theorem afterWriteCommand_response (s : State) (ctl : Controller) (evs : List Event) :
    (s.afterWriteCommand ctl evs).response = some ⟨.ok, 0⟩ := by
  simp [State.response, State.afterWriteCommand, State.afterEvents]

@[simp] theorem afterReadCommand_response (s : State) (evs : List Event) (n : Nat) (r : Word) :
    (s.afterReadCommand evs n r).response = some ⟨.ok, r⟩ := by
  simp [State.response, State.afterReadCommand, State.afterEvents]

@[simp] theorem afterWriteCommand_ctl (s : State) (ctl : Controller) (evs : List Event) :
    (s.afterWriteCommand ctl evs).ctl = ctl := rfl

@[simp] theorem afterReadCommand_ctl (s : State) (evs : List Event) (n : Nat) (r : Word) :
    (s.afterReadCommand evs n r).ctl = s.ctl := rfl

theorem afterWriteCommand_sameContext {s : State} (ctl : Controller) (evs : List Event)
    (h : ({ s with ctl := ctl } : State).backend = s.backend) :
    s.SameContext (s.afterWriteCommand ctl evs) :=
  ⟨rfl, h, rfl, rfl, rfl, rfl, rfl⟩

theorem afterReadCommand_sameContext (s : State) (evs : List Event) (n : Nat) (r : Word) :
    s.SameContext (s.afterReadCommand evs n r) :=
  ⟨rfl, rfl, rfl, rfl, rfl, rfl, rfl⟩

/-- A bank is ready in a state with the same context. -/
theorem State.SameContext.ready {s t : State} {b : Nat} (hs : s.SameContext t) (h : s.Ready b) :
    t.Ready b := by
  obtain ⟨h1, h2, h3, h4, h5, _⟩ := hs
  exact ⟨h3.trans h.1, by rw [h2]; exact h.2.1, (SameMap.reaches ⟨h1, h2, h4, h5⟩).mpr h.2.2⟩

theorem State.SameContext.clip {s t : State} (hs : s.SameContext t) (b : Nat) (mask : Word) :
    t.clip b mask = s.clip b mask := by
  obtain ⟨h1, h2, _⟩ := hs
  simp [State.clip, State.validMask, h1, h2]

/-! ### A single access on a bus that does not complete it -/

theorem regWrite_failed_one (r : Reg) (v : Word) {s : State} (h : ¬ s.BusCompletes 1) :
    regWrite r v s = .failed s := by
  obtain ⟨k, hk, hl⟩ := not_busCompletes h
  exact regWrite_failed r v (by rw [hk]; congr 1; omega)

theorem regRead_failed_one (r : Reg) {s : State} (h : ¬ s.BusCompletes 1) :
    regRead r s = .failed s := by
  obtain ⟨k, hk, hl⟩ := not_busCompletes h
  exact regRead_failed r (by rw [hk]; congr 1; omega)

/-! ### The level writes of set_output -/

/-- The owning word of a selected pin is one of the six (R29). -/
theorem clip_word_lt {s : State} (hA : s.backend = .A) {b : Nat} (hb : b < 2) (mask : Word) :
    ∀ i, (s.clip b mask).getLsbD i = true → (pinPlace b i).word < 6 := by
  intro i hi
  exact pinPlace_word_lt (cfg := s.cfg) hb (m := mask)
    (by simpa [State.clip, State.validMask, hA] using hi)

/-- The two level writes, Backend A (R92). -/
theorem setLevelsA_done {s : State} {c : CtlA} (hc : s.ctl = .a c) {b : Nat} (hb : b < 2)
    (hR : s.Reaches) (m v : Word) (hbus : s.BusCompletes 2) :
    setLevelsA b m v s = .done ()
      ({ s with ctl := .a (c.withLevels b m v) }.afterEvents (s.levelEventsA b m v)) := by
  have hA := backend_a hc
  rw [setLevelsA, regWrite_done hR (by rw [hA]; exact set_mem hb) (by rw [hc]; rfl)
    (BusCompletes_mono hbus (by omega)), Access.andThen_done]
  have hclr := regWrite_done
    (s := ({ s with ctl := .a (c.setLatch b (c.latchWord b ||| (m &&& v))) }.afterEvents
      [s.writeEvent (.set b) (m &&& v)])) (r := .clr b) (v := m &&& ~~~v)
    (reaches_update_a hc _ _ hR) (by show _ ∈ controllerRegs .A; exact clr_mem hb) rfl
    (busCompletes_afterEvents _ _ _ (by exact hbus))
  rw [hclr]
  congr 1
  show (State.afterEvents { s with ctl := _ } _).afterEvents _ = _
  rw [afterEvents_append]
  have hlevels : ((c.setLatch b (c.latchWord b ||| (m &&& v))).setLatch b
      ((c.setLatch b (c.latchWord b ||| (m &&& v))).latchWord b &&& ~~~(m &&& ~~~v)))
      = c.withLevels b m v := by
    rw [CtlA.latchWord_setLatch _ _ _ _ hb, if_pos rfl, set_clear_levels, CtlA.setLatch_setLatch]
    rfl
  rw [hlevels]
  rfl

/-- The two level writes, Backend B (R93). -/
theorem setLevelsB_done {s : State} {c : CtlB} (hc : s.ctl = .b c) {b : Nat} (hb : b < 6)
    (hR : s.Reaches) (m v : Word) (hbus : s.BusCompletes 2) :
    setLevelsB b m v s = .done ()
      ({ s with ctl := .b (c.withLevels b m v) }.afterEvents (s.levelEventsB b m v)) := by
  have hB := backend_b hc
  rw [setLevelsB, regWrite_done hR (by rw [hB]; exact setDataOut_mem hb) (by rw [hc]; rfl)
    (BusCompletes_mono hbus (by omega)), Access.andThen_done]
  have hclr := regWrite_done
    (s := ({ s with ctl := .b (c.setDataOut b (c.dataOutWord b ||| (m &&& v))) }.afterEvents
      [s.writeEvent (.setDataOut b) (m &&& v)])) (r := .clearDataOut b) (v := m &&& ~~~v)
    (reaches_update_b hc _ _ hR) (by show _ ∈ controllerRegs .B; exact clearDataOut_mem hb) rfl
    (busCompletes_afterEvents _ _ _ (by exact hbus))
  rw [hclr]
  congr 1
  show (State.afterEvents { s with ctl := _ } _).afterEvents _ = _
  rw [afterEvents_append]
  have hlevels : ((c.setDataOut b (c.dataOutWord b ||| (m &&& v))).setDataOut b
      ((c.setDataOut b (c.dataOutWord b ||| (m &&& v))).dataOutWord b &&& ~~~(m &&& ~~~v)))
      = c.withLevels b m v := by
    rw [CtlB.dataOutWord_setDataOut _ _ _ _ hb, if_pos rfl, set_clear_levels,
      CtlB.setDataOut_setDataOut]
    rfl
  rw [hlevels]
  rfl

/-! ### The views of a pin -/

theorem dir_of_a {s : State} {c : CtlA} (h : s.ctl = .a c) (b i : Nat) :
    s.dir b i = if c.fieldOf b i = fselOut then .output
      else if c.fieldOf b i = fselIn then .input else .other := by
  simp [State.dir, h]

theorem dir_of_b {s : State} {c : CtlB} (h : s.ctl = .b c) (b i : Nat) :
    s.dir b i = if (c.oeWord b).getLsbD i then .output else .input := by
  simp [State.dir, h]

theorem dirCode_of_a {s : State} {c : CtlA} (h : s.ctl = .a c) (b i : Nat) :
    s.dirCode b i = c.fieldOf b i := by
  simp [State.dirCode, h]

theorem dirCode_of_b {s : State} {c : CtlB} (h : s.ctl = .b c) (b i : Nat) :
    s.dirCode b i = if (c.oeWord b).getLsbD i then 1 else 0 := by
  simp [State.dirCode, h]

theorem out_of_a {s : State} {c : CtlA} (h : s.ctl = .a c) (b i : Nat) :
    s.out b i = (c.latchWord b).getLsbD i := by
  simp [State.out, State.outWord, h]

theorem out_of_b {s : State} {c : CtlB} (h : s.ctl = .b c) (b i : Nat) :
    s.out b i = (c.dataOutWord b).getLsbD i := by
  simp [State.out, State.outWord, h]

/-- A selected pin is a pin the bank has (R24). -/
theorem hasPin_of_clip {s : State} {b i : Nat} {mask : Word} (hb : b < nbanks s.backend)
    (h : (s.clip b mask).getLsbD i = true) : s.hasPin b i = true := by
  simp [State.clip] at h
  simp [State.hasPin, hb, h.2]

/-- The field of a pin the controller has, after the direction loop of bank `b`: `code` if the pin
was selected, as before if not, whichever words banks share (R69, R91, R94). -/
theorem fieldOf_withDirections_pin {s : State} {c : CtlA} (hc : s.ctl = .a c) (d : CtlA) {b : Nat}
    (mask code : Word) (hcode : ∀ k, 3 ≤ k → code.getLsbD k = false) (b' i : Nat)
    (hp : s.hasPin b' i = true) :
    (d.withDirections b code (s.clip b mask)).fieldOf b' i
      = if b' = b ∧ (s.clip b mask).getLsbD i = true then code else d.fieldOf b' i := by
  have hA := backend_a hc
  simp [State.hasPin, hA, State.validMask] at hp
  have hi : i < 32 := BitVec.lt_of_getLsbD hp.2
  have hb' : b' < 2 := by simpa [nbanks] using hp.1
  have hw : (pinPlace b' i).word < 6 := pinPlace_word_lt (cfg := s.cfg) hb' (m := fullMask)
    (by simp [fullMask_getLsbD, hi, hp.2])
  rw [fieldOf_withDirections _ _ _ _ _ _ hw hcode]
  by_cases hbb : b' = b
  · subst hbb
    have : 32 * b' + i - 32 * b' = i := by omega
    simp [this]
  · have hno : (decide (32 * b ≤ 32 * b' + i) && (s.clip b mask).getLsbD (32 * b' + i - 32 * b))
        = false := by
      by_cases hlt : 32 * b ≤ 32 * b' + i
      · have : 32 ≤ 32 * b' + i - 32 * b := by omega
        rw [BitVec.getLsbD_of_ge _ _ this]
        simp
      · simp [hlt]
    simp [hno, hbb]

end Sys2Proof.Machine
end

