-- ==== Sys2Proof/Laws/Encoding.lean ====
section
/-! SUPPORT. The four fields of a packed command word read back (R70). -/

namespace Sys2Proof

@[simp] theorem op_packCmd (op bank : BitVec 4) (mask value : Word) :
    Cmd.op (packCmd op bank mask value) = op := by
  apply BitVec.eq_of_getLsbD_eq
  intro i hi
  simp only [Cmd.op, packCmd, BitVec.getLsbD_extractLsb', BitVec.getLsbD_append, hi]
  have h1 : ¬ (68 + i < 32) := by omega
  have h2 : ¬ (68 + i - 32 < 32) := by omega
  have h3 : ¬ (68 + i - 32 - 32 < 4) := by omega
  have h4 : 68 + i - 32 - 32 - 4 = i := by omega
  simp only [h1, h2, h3, h4, if_false, decide_true, Bool.true_and]

@[simp] theorem bank_packCmd (op bank : BitVec 4) (mask value : Word) :
    Cmd.bank (packCmd op bank mask value) = bank.toNat := by
  rw [Cmd.bank]
  congr 1
  apply BitVec.eq_of_getLsbD_eq
  intro i hi
  simp only [packCmd, BitVec.getLsbD_extractLsb', BitVec.getLsbD_append, hi]
  have h1 : ¬ (64 + i < 32) := by omega
  have h2 : ¬ (64 + i - 32 < 32) := by omega
  have h4 : 64 + i - 32 - 32 = i := by omega
  simp only [h1, h2, h4, hi, if_false, if_true, decide_true, Bool.true_and]

@[simp] theorem mask_packCmd (op bank : BitVec 4) (mask value : Word) :
    Cmd.mask (packCmd op bank mask value) = mask := by
  apply BitVec.eq_of_getLsbD_eq
  intro i hi
  simp only [Cmd.mask, packCmd, BitVec.getLsbD_extractLsb', BitVec.getLsbD_append, hi]
  have h1 : ¬ (32 + i < 32) := by omega
  have h4 : 32 + i - 32 = i := by omega
  simp only [h1, h4, hi, if_false, if_true, decide_true, Bool.true_and]

@[simp] theorem value_packCmd (op bank : BitVec 4) (mask value : Word) :
    Cmd.value (packCmd op bank mask value) = value := by
  apply BitVec.eq_of_getLsbD_eq
  intro i hi
  simp only [Cmd.value, packCmd, BitVec.getLsbD_extractLsb', BitVec.getLsbD_append, hi, Nat.zero_add,
    if_true, decide_true, Bool.true_and]

/-- Every word is made of its four fields. -/
theorem packCmd_fields (w : Cmd) :
    packCmd (Cmd.op w) (w.extractLsb' 64 4) (Cmd.mask w) (Cmd.value w) = w := by
  apply BitVec.eq_of_getLsbD_eq
  intro i hi
  simp only [packCmd, Cmd.op, Cmd.mask, Cmd.value, BitVec.getLsbD_append,
    BitVec.getLsbD_extractLsb']
  by_cases h1 : i < 32
  · simp [h1]
  · by_cases h2 : i - 32 < 32
    · simp only [h1, h2]
      simp
      congr 1
      omega
    · by_cases h3 : i - 32 - 32 < 4
      · simp only [h1, h2, h3]
        simp
        congr 1
        omega
      · have h4 : i - 32 - 32 - 4 < 4 := by omega
        simp only [h1, h2, h3, h4]
        simp
        congr 1
        omega

end Sys2Proof
end

