-- ==== Sys2Proof/Laws/Midway.lean ====
section
/-! SUPPORT. What holds at every point within a sequence of register-bus accesses, whether they complete
or not: the way to statements about prefixes of a command's events and about the state a bus fault
leaves (R122). -/

namespace Sys2Proof.Machine

/-- `I` holds of the controller at every point of the sequence: after each prefix of its events. -/
def Access.Along {α : Type} (I : Controller → Prop) (s : State) (x : Access α) : Prop :=
  SameMap s x.final ∧ ∃ evs, x.final.trace = s.trace ++ evs ∧ x.final.ctl = replay s.ctl evs ∧
    ∀ pre, pre <+: evs → I (replay s.ctl pre)

theorem prefix_append_cases {α : Type} {pre xs ys : List α} (h : pre <+: xs ++ ys) :
    pre <+: xs ∨ ∃ zs, zs <+: ys ∧ pre = xs ++ zs := by
  by_cases hl : pre.length ≤ xs.length
  · exact .inl (List.prefix_of_prefix_length_le h (List.prefix_append _ _) hl)
  · obtain ⟨zs, rfl⟩ := List.prefix_of_prefix_length_le (List.prefix_append xs ys) h (by omega)
    exact .inr ⟨zs, (List.prefix_append_right_inj xs).mp h, rfl⟩

/-- At the end too. -/
theorem Access.Along.final {α : Type} {I : Controller → Prop} {s : State} {x : Access α}
    (h : x.Along I s) : I x.final.ctl := by
  obtain ⟨_, evs, _, h2, h3⟩ := h
  exact h2 ▸ h3 evs (List.prefix_refl evs)

theorem Access.Along.mono {α : Type} {I J : Controller → Prop} {s : State} {x : Access α}
    (h : x.Along I s) (hij : ∀ c, I c → J c) : x.Along J s := by
  obtain ⟨h0, evs, h1, h2, h3⟩ := h
  exact ⟨h0, evs, h1, h2, fun pre hp => hij _ (h3 pre hp)⟩

/-- No access. -/
theorem along_stay {α : Type} {I : Controller → Prop} {s : State} {x : Access α} (hx : x.final = s)
    (h : I s.ctl) : x.Along I s := by
  refine ⟨hx ▸ SameMap.refl s, [], by simp [hx], by rw [hx]; rfl, fun pre hp => ?_⟩
  rw [List.prefix_nil.mp hp]
  exact h

/-- One sequence after another; the second may use how the first ended. -/
theorem Access.Along.andThen {α β : Type} {I : Controller → Prop} {s : State} {x : Access α}
    {f : α → State → Access β} (hx : x.Along I s)
    (hf : ∀ v t, x = .done v t → SameMap s t → I t.ctl → (f v t).Along I t) :
    (x.andThen f).Along I s := by
  cases x with
  | failed t => exact hx
  | done v t =>
    obtain ⟨g0, ys, g1, g2, g3⟩ := hf v t rfl hx.1 hx.final
    obtain ⟨h0, xs, h1, h2, h3⟩ := hx
    simp only [final_done] at h0 h1 h2
    refine ⟨h0.trans g0, xs ++ ys, ?_, ?_, fun pre hp => ?_⟩
    · exact g1.trans (by rw [h1, List.append_assoc])
    · exact g2.trans (by rw [h2, replay_append])
    · rcases prefix_append_cases hp with hp | ⟨zs, hz, rfl⟩
      · exact h3 pre hp
      · rw [replay_append, ← h2]; exact g3 zs hz

/-- One access completes with its value, or leaves the state as it was. -/
theorem regRead_cases {s : State} {r : Reg} {v : Word} (hR : s.Reaches)
    (hr : r ∈ controllerRegs s.backend) (hv : s.regValue r = some v) :
    regRead r s = .done v ((s.afterRead r).afterEvents [s.readEvent r v]) ∨
      regRead r s = .failed s := by
  by_cases hb : s.BusCompletes 1
  · exact .inl (regRead_done hR hr hv hb)
  · exact .inr (regRead_failed_one r hb)

@[inherit_doc regRead_cases]
theorem regWrite_cases {s : State} {r : Reg} {v : Word} {ctl : Controller} (hR : s.Reaches)
    (hr : r ∈ controllerRegs s.backend) (hv : storeReg s.ctl r v = some ctl) :
    regWrite r v s = .done () ({ s with ctl := ctl }.afterEvents [s.writeEvent r v]) ∨
      regWrite r v s = .failed s := by
  by_cases hb : s.BusCompletes 1
  · exact .inl (regWrite_done hR hr hv hb)
  · exact .inr (regWrite_failed_one r v hb)

theorem prefix_singleton {α : Type} {pre : List α} {e : α} (h : pre <+: [e]) :
    pre = [] ∨ pre = [e] := by
  cases pre with
  | nil => exact .inl rfl
  | cons x l =>
    obtain ⟨rfl, hl⟩ := List.cons_prefix_cons.mp h
    rw [List.prefix_nil.mp hl]
    exact .inr rfl

/-- A read changes no register. -/
theorem regRead_along {I : Controller → Prop} {s : State} {r : Reg} {v : Word} (hR : s.Reaches)
    (hr : r ∈ controllerRegs s.backend) (hv : s.regValue r = some v) (h : I s.ctl) :
    (regRead r s).Along I s := by
  rcases regRead_cases hR hr hv with he | he <;> rw [he]
  · refine ⟨(sameMap_afterRead s r).trans (sameMap_afterEvents _ _), [s.readEvent r v], by simp,
      by simp [replay, replayEvent, State.readEvent], fun pre hp => ?_⟩
    rcases prefix_singleton hp with rfl | rfl
    · exact h
    · exact h
  · exact along_stay rfl h

/-- A write has its side effect, whole. -/
theorem regWrite_along {I : Controller → Prop} {s : State} {r : Reg} {v : Word} {ctl : Controller}
    (hR : s.Reaches) (hr : r ∈ controllerRegs s.backend) (hv : storeReg s.ctl r v = some ctl)
    (h : I s.ctl) (h' : I ctl) : (regWrite r v s).Along I s := by
  rcases regWrite_cases hR hr hv with he | he <;> rw [he]
  · have hk : replay s.ctl [s.writeEvent r v] = ctl := by
      simp [replay, replayEvent, State.writeEvent, hv]
    refine ⟨⟨rfl, backend_storeReg hv s rfl, rfl, rfl⟩, [s.writeEvent r v], rfl, hk.symm,
      fun pre hp => ?_⟩
    rcases prefix_singleton hp with rfl | rfl
    · exact h
    · rw [hk]; exact h'
  · exact along_stay rfl h

/-- The value a completed read gave. -/
theorem regRead_value {s t : State} {r : Reg} {v w : Word} (hR : s.Reaches)
    (hr : r ∈ controllerRegs s.backend) (hv : s.regValue r = some v) (h : regRead r s = .done w t) :
    w = v ∧ t.ctl = s.ctl := by
  rcases regRead_cases hR hr hv with he | he <;> rw [he] at h <;> cases h
  exact ⟨rfl, by simp⟩

/-- What a completed write left. -/
theorem regWrite_value {s t : State} {r : Reg} {v : Word} {ctl : Controller} (hR : s.Reaches)
    (hr : r ∈ controllerRegs s.backend) (hv : storeReg s.ctl r v = some ctl)
    (h : regWrite r v s = .done () t) : t.ctl = ctl := by
  rcases regWrite_cases hR hr hv with he | he <;> rw [he] at h <;> cases h
  rfl

/-- The read-modify-write of one field: whole or not at all (R92, R95). -/
theorem rmwField_along {I : Controller → Prop} {s : State} {c : CtlA} (b : Nat) (code : Word) (i : Nat)
    (hc : s.ctl = .a c) (hR : s.Reaches) (hw : (pinPlace b i).word < 6) (h : I (.a c))
    (h' : I (.a (c.setFsel (pinPlace b i).word
      (setField (c.fselWord (pinPlace b i).word) (pinPlace b i).shift code)))) :
    (rmwField b code i s).Along I s := by
  have hv : s.regValue (.fsel (pinPlace b i).word) = some (c.fselWord (pinPlace b i).word) := by
    simp [State.regValue, hc]
  have hr : Reg.fsel (pinPlace b i).word ∈ controllerRegs s.backend := by
    rw [backend_a hc]; exact fsel_mem hw
  refine Access.Along.andThen (regRead_along hR hr hv (hc ▸ h)) fun v t ht hm hi => ?_
  obtain ⟨rfl, htc⟩ := regRead_value hR hr hv ht
  exact regWrite_along (hm.reaches.mpr hR) (hm.backend ▸ hr)
    (ctl := .a (c.setFsel _ (setField _ (pinPlace b i).shift code)))
    (by rw [htc, hc]; rfl) hi h'

/-- The read-modify-write of an output-enable word: whole or not at all (R93, R96). -/
theorem rmwOe_along {I : Controller → Prop} {s : State} {c : CtlB} (b : Nat) (f : Word → Word)
    (hc : s.ctl = .b c) (hR : s.Reaches) (hb : b < 6) (h : I (.b c))
    (h' : I (.b (c.setOe b (f (c.oeWord b))))) : (rmwOe b f s).Along I s := by
  have hv : s.regValue (.oe b) = some (c.oeWord b) := by simp [State.regValue, hc]
  have hr : Reg.oe b ∈ controllerRegs s.backend := by rw [backend_b hc]; exact oe_mem hb
  refine Access.Along.andThen (regRead_along hR hr hv (hc ▸ h)) fun v t ht hm hi => ?_
  obtain ⟨rfl, htc⟩ := regRead_value hR hr hv ht
  exact regWrite_along (hm.reaches.mpr hR) (hm.backend ▸ hr) (ctl := .b (c.setOe b (f (c.oeWord b))))
    (by rw [htc, hc]; rfl) hi h'

/-- The direction loop keeps what each of its read-modify-writes keeps (R92, R95). -/
theorem forPins_along {I : Controller → Prop} (b : Nat) (code m : Word)
    (hword : ∀ i, m.getLsbD i = true → (pinPlace b i).word < 6)
    (hstep : ∀ i, m.getLsbD i = true → ∀ c : CtlA, I (.a c) →
      I (.a (c.setFsel (pinPlace b i).word
        (setField (c.fselWord (pinPlace b i).word) (pinPlace b i).shift code)))) (l : List Nat) :
    ∀ (s : State), s.backend = .A → s.Reaches → I s.ctl →
      (forPins m (rmwField b code) l s).Along I s := by
  induction l with
  | nil => intro s _ _ h; exact along_stay rfl h
  | cons i l ih =>
    intro s hA hR h
    rw [forPins]
    split
    · rename_i hm
      obtain ⟨c, hc⟩ : ∃ c, s.ctl = .a c := by
        cases hs : s.ctl with
        | a c => exact ⟨c, rfl⟩
        | b c => rw [backend_b hs] at hA; cases hA
      rw [hc] at h
      exact (rmwField_along b code i hc hR (hword i hm) h (hstep i hm c h)).andThen
        fun _ t _ hmap hi => ih t (hmap.backend.trans hA) (hmap.reaches.mpr hR) hi
    · exact ih s hA hR h

/-- The field of pin `i'` after the read-modify-write of pin `i` (R29, R92, R95): distinct pins of the
controller have distinct fields. -/
theorem fieldOf_setFsel_setField (c : CtlA) (b i b' i' : Nat) (code : Word)
    (hw : (pinPlace b i).word < 6) (hcode : ∀ k, 3 ≤ k → code.getLsbD k = false) :
    (c.setFsel (pinPlace b i).word
        (setField (c.fselWord (pinPlace b i).word) (pinPlace b i).shift code)).fieldOf b' i'
      = if 32 * b' + i' = 32 * b + i then code else c.fieldOf b' i' := by
  simp only [CtlA.fieldOf, CtlA.fselWord_setFsel _ _ _ _ hw]
  have w1 : (pinPlace b i).word = (32 * b + i) / 10 := rfl
  have s1 : (pinPlace b i).shift = (32 * b + i) % 10 * 3 := rfl
  have w2 : (pinPlace b' i').word = (32 * b' + i') / 10 := rfl
  have s2 : (pinPlace b' i').shift = (32 * b' + i') % 10 * 3 := rfl
  apply word_ext
  intro k _
  by_cases he : (pinPlace b' i').word = (pinPlace b i).word
  · rw [if_pos he, getField_getLsbD]
    by_cases hk : k < 3
    · rw [setField_getLsbD _ _ _ _ hcode (by omega)]
      by_cases hg : 32 * b' + i' = 32 * b + i
      · rw [if_pos hg, if_pos (by omega)]
        rw [show (pinPlace b' i').shift + k - (pinPlace b i).shift = k by omega]
        simp [hk]
      · rw [if_neg hg, if_neg (by omega), getField_getLsbD, he]
    · have hk3 : 3 ≤ k := by omega
      by_cases hg : 32 * b' + i' = 32 * b + i
      · rw [if_pos hg]; simp [hk, hcode k hk3]
      · rw [if_neg hg, getField_getLsbD]; simp [hk]
  · have hg : ¬ 32 * b' + i' = 32 * b + i := by omega
    rw [if_neg he, if_neg hg]

/-! ### From the sequence to the command -/

/-- How a command can end that is not refused: with a next state or with the state a bus fault
left. -/
def EndsIn (o : Host.Outcome State Fault Refusal) (t : State) : Prop :=
  o = .next t ∨ o = .fault (.busFault t)

/-- A per-bank command that ends in a state met its preconditions and ran (R90). -/
theorem withBank_endsIn {s t : State} {b : Nat} {run : State → Host.Outcome State Fault Refusal}
    (h : EndsIn (withBank b s run) t) : s.ctx = .valid ∧ b < nbanks s.backend ∧ EndsIn (run s) t := by
  rw [withBank] at h
  cases hc : s.ctx <;> rw [hc] at h
  · rcases h with h | h <;> cases h
  · dsimp only at h
    split at h
    · exact ⟨rfl, ‹_›, h⟩
    · rcases h with h | h <;> cases h

/-- `I` at every point of the events of a command that ended in `t`. -/
def CommandAlong (I : Controller → Prop) (s t : State) : Prop :=
  ∃ evs, t.trace = s.trace ++ evs ∧ t.ctl = replay s.ctl evs ∧ ∀ pre, pre <+: evs → I (replay s.ctl pre)

/-- The response changes no register. -/
theorem along_respond {α : Type} {I : Controller → Prop} {s t : State} {x : Access α} {r : Response}
    (h : x.Along I s) (htr : t.trace = x.final.trace ++ [.respond r]) (hctl : t.ctl = x.final.ctl) :
    CommandAlong I s t := by
  have hI := h.final
  obtain ⟨_, evs, h1, h2, h3⟩ := h
  have hr : replay s.ctl (evs ++ [.respond r]) = x.final.ctl := by
    rw [replay_append, h2]; rfl
  refine ⟨evs ++ [.respond r], by rw [htr, h1, List.append_assoc], by rw [hctl, hr], fun pre hp => ?_⟩
  rcases prefix_append_cases hp with hp | ⟨zs, hz, rfl⟩
  · exact h3 pre hp
  · rcases prefix_singleton hz with rfl | rfl
    · rw [List.append_nil, ← h2]; exact hI
    · rw [hr]; exact hI

theorem finishWrite_along {I : Controller → Prop} {s t : State} {x : Access Unit} (h : x.Along I s)
    (he : EndsIn (finishWrite x) t) : CommandAlong I s t := by
  cases x with
  | done v u =>
    rcases he with he | he <;> cases he
    exact along_respond h rfl rfl
  | failed u =>
    rcases he with he | he <;> cases he
    exact h.2

theorem finishRead_along {I : Controller → Prop} {s t : State} {x : Access Word} (h : x.Along I s)
    (he : EndsIn (finishRead x) t) : CommandAlong I s t := by
  cases x with
  | done v u =>
    rcases he with he | he <;> cases he
    exact along_respond h rfl rfl
  | failed u =>
    rcases he with he | he <;> cases he
    exact h.2

/-- At the end of the command too. -/
theorem CommandAlong.final {I : Controller → Prop} {s t : State} (h : CommandAlong I s t) : I t.ctl := by
  obtain ⟨evs, _, h2, h3⟩ := h
  exact h2 ▸ h3 evs (List.prefix_refl evs)

end Sys2Proof.Machine
end

