-- ==== Sys2Proof/Laws/PerInstr.lean ====
section
/-! SUPPORT. One statement per operation about its encoding: the opcode of the table (R71), the
operands it uses in their fields and zeros in the fields it does not use (R72, R77). -/

namespace Sys2Proof.Laws.OpcodeField

open Sys2Proof.Machine

/-- What the four fields of the encoding of `i` hold. -/
def Statement (i : Instr) : Prop :=
  Cmd.op (encode i) = i.opcode ∧
  match bankMask i with
  | none => Cmd.bank (encode i) = 0 ∧ Cmd.mask (encode i) = 0 ∧ Cmd.value (encode i) = 0
  | some (bank, mask) => (i.wf = true → Cmd.bank (encode i) = bank) ∧ Cmd.mask (encode i) = mask

/-- A bank that fits the field is read back from it. -/
theorem bank_of_fits {bank : Nat} (h : bankFits bank = true) : (BitVec.ofNat 4 bank).toNat = bank := by
  simp only [bankFits, decide_eq_true_eq] at h
  rw [BitVec.toNat_ofNat]
  exact Nat.mod_eq_of_lt h

theorem initializeContext : Statement .initializeContext := by
  simp [Statement, encode, bankMask]

theorem finalizeContext : Statement .finalizeContext := by
  simp [Statement, encode, bankMask]

theorem setOutput (bank : Nat) (mask value : Word) : Statement (.setOutput bank mask value) :=
  ⟨op_packCmd _ _ _ _, fun h => (bank_packCmd _ _ _ _).trans (bank_of_fits h), mask_packCmd _ _ _ _⟩

theorem setInput (bank : Nat) (mask : Word) : Statement (.setInput bank mask) :=
  ⟨op_packCmd _ _ _ _, fun h => (bank_packCmd _ _ _ _).trans (bank_of_fits h), mask_packCmd _ _ _ _⟩

theorem getDirection (bank : Nat) (mask : Word) : Statement (.getDirection bank mask) :=
  ⟨op_packCmd _ _ _ _, fun h => (bank_packCmd _ _ _ _).trans (bank_of_fits h), mask_packCmd _ _ _ _⟩

theorem setDataout (bank : Nat) (mask : Word) : Statement (.setDataout bank mask) :=
  ⟨op_packCmd _ _ _ _, fun h => (bank_packCmd _ _ _ _).trans (bank_of_fits h), mask_packCmd _ _ _ _⟩

theorem clrDataout (bank : Nat) (mask : Word) : Statement (.clrDataout bank mask) :=
  ⟨op_packCmd _ _ _ _, fun h => (bank_packCmd _ _ _ _).trans (bank_of_fits h), mask_packCmd _ _ _ _⟩

theorem getDatain (bank : Nat) (mask : Word) : Statement (.getDatain bank mask) :=
  ⟨op_packCmd _ _ _ _, fun h => (bank_packCmd _ _ _ _).trans (bank_of_fits h), mask_packCmd _ _ _ _⟩

end Sys2Proof.Laws.OpcodeField
end

