-- ==== Sys2Proof/Tests/Slice0.lean ====
section
/-! SUPPORT. The model's own tests. Expected words come from the spec's vectors (95_test_vectors.md),
named in the comments; the parameters and handles are invented. -/

namespace Sys2Proof.Tests

open Sys2Proof.Machine

/-! ### Small states -/

/-- Invented parameters: two windows for Backend A, six for Backend B, bank 3 of B narrow. -/
def cfg : Config where
  layoutA := ⟨"a", [⟨0x1000, 0x100⟩, ⟨0x2000, 0x100⟩], #v[⟨0, 0⟩, ⟨1, 0x40⟩]⟩
  layoutB := ⟨"b", [⟨0x1000, 0x100⟩, ⟨0x2000, 0x100⟩, ⟨0x3000, 0x100⟩, ⟨0x4000, 0x100⟩,
      ⟨0x5000, 0x100⟩, ⟨0x6000, 0x100⟩],
    #v[⟨0, 0⟩, ⟨1, 0⟩, ⟨2, 0⟩, ⟨3, 0⟩, ⟨4, 0⟩, ⟨5, 0⟩]⟩
  offA := ⟨0x00, 0x1C, 0x28, 0x34⟩
  offB := ⟨0x34, 0x38, 0x3C, 0x94, 0x90⟩
  narrowB := #v[false, false, false, true, false, false]

/-- Out of reset, with the given controller. -/
def fresh (ctl : Controller) : State := State.afterReset cfg ctl none

/-- With a context, Backend A. -/
def stateA (fsel : Vector Word 6) (latch : Vector Word 2) : State :=
  { fresh (.a ⟨fsel, latch⟩) with
    ctx := .valid
    regions := [.mapped 0x10000, .mapped 0x20000]
    bankBase := [0x10000, 0x20040] }

/-- With a context, Backend B. -/
def stateB (oe dataOut : Vector Word 6) : State :=
  { fresh (.b ⟨oe, dataOut⟩) with
    ctx := .valid
    regions := [.mapped 0x10000, .mapped 0x20000, .mapped 0x30000, .mapped 0x40000,
      .mapped 0x50000, .mapped 0x60000]
    bankBase := [0x10000, 0x20000, 0x30000, 0x40000, 0x50000, 0x60000] }

/-- All registers zero. -/
def plainA : State := stateA #v[0, 0, 0, 0, 0, 0] #v[0, 0]

@[inherit_doc plainA]
def plainB : State := stateB #v[0, 0, 0, 0, 0, 0] #v[0, 0, 0, 0, 0, 0]

/-- The next state, if there is one. -/
def nextOf : Host.Outcome State Fault Refusal → Option State
  | .next t => some t
  | _ => none

/-- The response and the controller a command leaves. -/
def shown (o : Host.Outcome State Fault Refusal) : Option (Option Response × Controller) :=
  (nextOf o).map fun t => (t.response, t.ctl)

/-- The registers accessed, in order, with the word written where it was a write. -/
def accesses (o : Host.Outcome State Fault Refusal) : Option (List (Reg × Option Word)) :=
  (nextOf o).map fun t => t.trace.filterMap fun
    | .read _ r _ => some (r, none)
    | .write _ r v => some (r, some v)
    | _ => none

/-! ### WellFormed -/

theorem test_wf_setOutput_refused : (Instr.setOutput 16 1 1).wf = false := by decide
theorem test_wf_setInput_refused : (Instr.setInput 16 1).wf = false := by decide
theorem test_wf_getDirection_refused : (Instr.getDirection 16 1).wf = false := by decide
theorem test_wf_setDataout_refused : (Instr.setDataout 16 1).wf = false := by decide
theorem test_wf_clrDataout_refused : (Instr.clrDataout 16 1).wf = false := by decide
theorem test_wf_getDatain_refused : (Instr.getDatain 16 1).wf = false := by decide
theorem test_wf_accepted : (Instr.getDatain 15 0xFFFFFFFF).wf = true := by decide

theorem test_config_accepted : configWf cfg = true := by decide
theorem test_config_no_region_refused :
    hasRegion { cfg with layoutA := ⟨"a", [], #v[⟨0, 0⟩, ⟨1, 0⟩]⟩ } .A = false := by decide
theorem test_config_bank_outside_refused :
    banksPlaced { cfg with layoutA := ⟨"a", [⟨0, 0x100⟩], #v[⟨0, 0⟩, ⟨1, 0⟩]⟩ } .A = false := by decide
theorem test_config_unaligned_refused :
    wordAligned { cfg with offA := ⟨0, 0x1D, 0x28, 0x34⟩ } .A = false := by decide
theorem test_config_outside_window_refused :
    regsInWindow { cfg with offA := ⟨0, 0x1C, 0x28, 0xFE⟩ } .A = false := by decide
theorem test_config_shared_address_refused :
    regsDistinct { cfg with offA := ⟨0, 0x1C, 0x1C, 0x34⟩ } .A = false := by decide
theorem test_config_one_region_each_refused :
    someTwoRegions { cfg with
      layoutA := ⟨"a", [⟨0, 0x100⟩], #v[⟨0, 0⟩, ⟨0, 0x40⟩]⟩
      layoutB := ⟨"b", [⟨0, 0x100⟩], #v[⟨0, 0⟩, ⟨0, 0⟩, ⟨0, 0⟩, ⟨0, 0⟩, ⟨0, 0⟩, ⟨0, 0⟩]⟩ } = false := by
  decide
theorem test_config_no_narrow_refused :
    someNarrowB { cfg with narrowB := #v[false, false, false, false, false, false] } = false := by decide

/-! ### Decoding: the words of R70 and of vectors E1 to E13 -/

-- E1, E11
theorem test_decode_initialize : decode 0x000000000000000000 = .instr .initializeContext := by decide
theorem test_decode_initialize_junk :
    decode 0x0FDEADBEEF12345678 = .instr .initializeContext := by decide
-- E2
theorem test_decode_finalize : decode 0x100000000000000000 = .instr .finalizeContext := by decide
-- E3
theorem test_decode_set_output : decode 0x210000000500000004 = .instr (.setOutput 1 5 4) := by decide
-- E4
theorem test_decode_set_input : decode 0x300000000800000000 = .instr (.setInput 0 8) := by decide
-- E5, E12
theorem test_decode_get_direction :
    decode 0x40000003FF00000000 = .instr (.getDirection 0 0x3FF) := by decide
theorem test_decode_get_direction_junk :
    decode 0x40000003FFFFFFFFFF = .instr (.getDirection 0 0x3FF) := by decide
-- E6
theorem test_decode_set_dataout :
    decode 0x558000000100000000 = .instr (.setDataout 5 0x80000001) := by decide
-- E7
theorem test_decode_clr_dataout :
    decode 0x600000003C00000000 = .instr (.clrDataout 0 0x3C) := by decide
-- E8
theorem test_decode_get_datain :
    decode 0x720000FFFF00000000 = .instr (.getDatain 2 0xFFFF) := by decide
-- E9, E10
theorem test_decode_reserved :
    decode 0x930000123400005678 = .reserved 0x9 ∧ decode 0xFFFFFFFFFFFFFFFFFF = .reserved 0xF := by
  decide
-- the first reserved opcode
theorem test_decode_reserved_first : decode 0x800000000000000000 = .reserved 0x8 := by decide
-- E3, by hand from R70
theorem test_encode_set_output : encode (.setOutput 1 5 4) = 0x210000000500000004 := by decide
-- the table's words: E6, and no instruction for E9
theorem test_table_word : decodeTableWord 72 0x558000000100000000
    = some (.setDataout 5 0x80000001) := by decide
theorem test_table_word_reserved : decodeTableWord 72 0x930000123400005678 = none := by decide

/-! ### Responses and text (E14, E15, R77) -/

-- E14, E15, E9
theorem test_response_words :
    Response.word ⟨.ok, 0xA35⟩ = 0x000000A35 ∧ Response.word ⟨.mapFail, 0xD⟩ = 0x10000000D ∧
    Response.word ⟨.illegalOp, 0⟩ = 0x200000000 := by decide
-- the example of R77
theorem test_assemble :
    assemble "set_output 1, 0x00000005, 0x00000004" = some 0x210000000500000004 := by decide
theorem test_command_text :
    commandText (.setDataout 5 0x80000001) = "set_dataout 5, 0x80000001" := by decide
theorem test_command_text_bank_two_digits :
    parseCommand (commandText (.getDatain 15 0xFFFFFFFF)) = some (.getDatain 15 0xFFFFFFFF) := by decide
theorem test_assemble_refused : assemble "set_output 1, 0x5" = none := by decide
theorem test_result_text : resultText 0xA35 = "-> 0x00000A35" := by decide

/-! ### Lifecycle -/

/-- Two regions; the platform answers as listed. -/
def asked (answers : List MapAnswer) : State :=
  { fresh (.a ⟨#v[0, 0, 0, 0, 0, 0], #v[0, 0]⟩) with mapAnswers := answers }

/-- An error code. -/
def code13 : ErrCode := ⟨0xD, by decide⟩

-- L6 with two regions: BANKBASE = HANDLE[BANK_REGION] + BANK_OFFSET
theorem test_initialize_ok :
    (nextOf (exec .initializeContext (asked [.ok 0x10000, .ok 0x20000]))).map
      (fun t => (t.ctx, t.regions, t.bankBase, t.response))
      = some (.valid, [.mapped 0x10000, .mapped 0x20000], [0x10000, 0x20040], some ⟨.ok, 0⟩) := by
  decide
-- L3
theorem test_initialize_second_fails :
    (nextOf (exec .initializeContext (asked [.ok 0x10000, .fail code13]))).map
      (fun t => (t.ctx, t.regions, t.platErr, t.trace))
      = some (.none, [.unmapped, .unmapped], 0xD,
        [.map 0x1000 0x100 (.ok 0x10000), .map 0x2000 0x100 (.fail code13), .unmap 0x10000 0x100,
          .respond ⟨.mapFail, 0xD⟩]) := by
  decide
-- L4
theorem test_initialize_first_fails :
    (nextOf (exec .initializeContext (asked [.fail code13]))).map (fun t => t.trace)
      = some [.map 0x1000 0x100 (.fail code13), .respond ⟨.mapFail, 0xD⟩] := by
  decide
-- L7
theorem test_finalize :
    (nextOf (exec .finalizeContext plainA)).map (fun t => (t.ctx, t.regions, t.bankBase, t.trace))
      = some (.none, [.unmapped, .unmapped], [],
        [.unmap 0x10000 0x100, .unmap 0x20000 0x100, .respond ⟨.ok, 0⟩]) := by
  decide
-- L9, L10, E13
theorem test_undefined_refused :
    exec .initializeContext plainA = .refused .contextExists ∧
    exec .finalizeContext (asked []) = .refused .noContext ∧
    exec (.setDataout 0 1) (asked []) = .refused .noContext ∧
    exec (.setDataout 2 1) plainA = .refused .bankOutOfRange :=
  ⟨rfl, rfl, rfl, rfl⟩
-- E9 in both states
theorem test_reserved_answered :
    shown (step { plainA with cmds := [0x930000123400005678] })
      = some (some ⟨.illegalOp, 0⟩, plainA.ctl) ∧
    shown (step { asked [] with cmds := [0x930000123400005678] })
      = some (some ⟨.illegalOp, 0⟩, plainA.ctl) := by
  decide

/-! ### Backend A -/

-- DA2
theorem test_set_output_a_fields :
    shown (exec (.setOutput 0 0x8 0x0)
      (stateA #v[0x35688F08, 0, 0, 0, 0, 0] #v[0xFFFFFFFF, 0]))
      = some (some ⟨.ok, 0⟩, .a ⟨#v[0x35688308, 0, 0, 0, 0, 0], #v[0xFFFFFFF7, 0]⟩) := by decide
-- DA6, its accesses
theorem test_set_output_a_accesses :
    accesses (exec (.setOutput 1 0x00200000 0x00200000) plainA)
      = some [(.set 1, some 0x00200000), (.clr 1, some 0), (.fsel 5, none), (.fsel 5, some 0x200)] := by
  decide
-- DA10: two read-modify-writes of the word both banks share
theorem test_set_input_a_shared_word :
    accesses (exec (.setInput 0 0xC0000000) (stateA #v[0, 0, 0, 0x09249249, 0, 0] #v[0, 0]))
      = some [(.fsel 3, none), (.fsel 3, some 0x09249248), (.fsel 3, none),
        (.fsel 3, some 0x09249240)] := by decide
-- DA9
theorem test_set_input_a :
    shown (exec (.setInput 0 0x8) (stateA #v[0x09249249, 0, 0, 0, 0, 0] #v[8, 0]))
      = some (some ⟨.ok, 0⟩, .a ⟨#v[0x09249049, 0, 0, 0, 0, 0], #v[8, 0]⟩) := by decide
-- DA15
theorem test_get_direction_a :
    (nextOf (exec (.getDirection 0 0x3FF) (stateA #v[0x01208041, 0, 0, 0, 0, 0] #v[0, 0]))).map
      State.response = some (some ⟨.ok, 0x1A5⟩) := by decide
-- XA1
theorem test_set_dataout_a_clipped :
    shown (exec (.setDataout 1 0xFFFFFFFF) plainA)
      = some (some ⟨.ok, 0⟩, .a ⟨#v[0, 0, 0, 0, 0, 0], #v[0, 0x003FFFFF]⟩) := by decide
-- XA3
theorem test_clr_dataout_a :
    shown (exec (.clrDataout 0 0xC) (stateA #v[0, 0, 0, 0, 0, 0] #v[0xF, 0]))
      = some (some ⟨.ok, 0⟩, .a ⟨#v[0, 0, 0, 0, 0, 0], #v[0x3, 0]⟩) := by decide
-- XA6
theorem test_get_datain_a :
    (nextOf (exec (.getDatain 0 0xF)
      { stateA #v[0x9, 0, 0, 0, 0, 0] #v[1, 0] with pinIn := [0xC] })).map
      State.response = some (some ⟨.ok, 0xD⟩) := by decide
-- F2: the bus fails at the write of FSEL[0] for pin 1, the sixth access
theorem test_bus_fault_partial :
    (match exec (.setOutput 0 0x3 0x3) { plainA with busLife := some 5 } with
      | .fault (.busFault left) => some left.ctl
      | _ => none) = some (.a ⟨#v[0x1, 0, 0, 0, 0, 0], #v[0x3, 0]⟩) := by decide

/-! ### Backend B -/

-- DB1
theorem test_set_output_b :
    shown (exec (.setOutput 2 0xF0F 0xA05) (stateB #v[0, 0, 0xFF00, 0, 0, 0] #v[0, 0, 0xF0, 0, 0, 0]))
      = some (some ⟨.ok, 0⟩, .b ⟨#v[0, 0, 0xFF0F, 0, 0, 0], #v[0, 0, 0xAF5, 0, 0, 0]⟩) := by decide
-- DB3, bank 3 narrow
theorem test_set_output_b_narrow :
    accesses (exec (.setOutput 3 0xFFFFFFFF 0xFFFFFFFF)
      (stateB #v[0, 0, 0, 0xABC00000, 0, 0] #v[0, 0, 0, 0, 0, 0]))
      = some [(.setDataOut 3, some 0x003FFFFF), (.clearDataOut 3, some 0), (.oe 3, none),
        (.oe 3, some 0xABFFFFFF)] := by decide
-- DB6
theorem test_set_input_b_narrow :
    shown (exec (.setInput 3 0xFFFFFFFF) (stateB #v[0, 0, 0, 0xABFFFFFF, 0, 0] #v[0, 0, 0, 7, 0, 0]))
      = some (some ⟨.ok, 0⟩, .b ⟨#v[0, 0, 0, 0xABC00000, 0, 0], #v[0, 0, 0, 7, 0, 0]⟩) := by decide
-- DB9
theorem test_get_direction_b_narrow :
    (nextOf (exec (.getDirection 3 0xFFFFFFFF)
      (stateB #v[0, 0, 0, 0xABFFFFFF, 0, 0] #v[0, 0, 0, 0, 0, 0]))).map
      State.response = some (some ⟨.ok, 0x003FFFFF⟩) := by decide
-- XB1
theorem test_set_dataout_b :
    shown (exec (.setDataout 5 0x80000001) (stateB #v[0, 0, 0, 0, 0, 0] #v[0, 0, 0, 0, 0, 0x10]))
      = some (some ⟨.ok, 0⟩, .b ⟨#v[0, 0, 0, 0, 0, 0], #v[0, 0, 0, 0, 0, 0x80000011]⟩) := by decide
-- XB3
theorem test_clr_dataout_b :
    shown (exec (.clrDataout 0 0xC) (stateB #v[0, 0, 0, 0, 0, 0] #v[0xF, 0, 0, 0, 0, 0]))
      = some (some ⟨.ok, 0⟩, .b ⟨#v[0, 0, 0, 0, 0, 0], #v[0x3, 0, 0, 0, 0, 0]⟩) := by decide
-- XB5, the reads in their order, and the formula
theorem test_get_datain_b_order :
    accesses (exec (.getDatain 2 0xFFFF) plainB)
      = some [(.oe 2, none), (.dataIn 2, none), (.dataOut 2, none)] := by decide
theorem test_get_datain_b_formula :
    reconstruct 0xFF0F 0x1234 0xAF5 &&& 0xFFFF = 0xA35 := by decide

/-! ### Pads (R37) -/

-- DA1: the pad of pin 3, before and after
theorem test_pad :
    plainA.pad 0 3 = .z ∧
    (nextOf (exec (.setOutput 0 0x8 0x8) plainA)).map (fun t => t.pad 0 3) = some .high := by decide

/-! ### Witnesses: for each statement with hypotheses, states and operands that meet all of them
together, at the ends of their ranges -/

/-- The state with a bus that completes k accesses. -/
def onBus (s : State) (k : Nat) : State := { s with busLife := some k }

theorem ready_a : ∀ b < 2, plainA.Ready b := by decide
theorem ready_b : ∀ b < 6, plainB.Ready b := by decide

theorem completes_onBus (s : State) (k : Nat) : (onBus s k).BusCompletes k := by
  intro j hj
  cases hj
  exact Nat.le_refl k

theorem not_completes_onBus (s : State) (k : Nat) : ¬ (onBus s k).BusCompletes (k + 1) := by
  intro h
  exact absurd (h k rfl) (Nat.not_succ_le_self k)

theorem ready_a_bus (k : Nat) : ∀ b < 2, (onBus plainA k).Ready b := ready_a
theorem ready_b_bus (k : Nat) : ∀ b < 6, (onBus plainB k).Ready b := ready_b

/-- Backend A, both banks: ready with a bus that completes exactly n accesses. -/
def MeetsA (n : Nat) : Prop := ∀ b < 2,
  (onBus plainA n).ctl = .a ⟨#v[0, 0, 0, 0, 0, 0], #v[0, 0]⟩ ∧ (onBus plainA n).Ready b ∧
    (onBus plainA n).BusCompletes n

/-- Backend A, both banks: ready with a bus that completes one access fewer than n + 1. -/
def FailsA (n : Nat) : Prop := ∀ b < 2,
  (onBus plainA n).ctl = .a ⟨#v[0, 0, 0, 0, 0, 0], #v[0, 0]⟩ ∧ (onBus plainA n).Ready b ∧
    ¬ (onBus plainA n).BusCompletes (n + 1)

/-- Backend B, all six banks. -/
def MeetsB (n : Nat) : Prop := ∀ b < 6,
  (onBus plainB n).ctl = .b ⟨#v[0, 0, 0, 0, 0, 0], #v[0, 0, 0, 0, 0, 0]⟩ ∧
    (onBus plainB n).Ready b ∧ (onBus plainB n).BusCompletes n

@[inherit_doc MeetsB]
def FailsB (n : Nat) : Prop := ∀ b < 6,
  (onBus plainB n).ctl = .b ⟨#v[0, 0, 0, 0, 0, 0], #v[0, 0, 0, 0, 0, 0]⟩ ∧
    (onBus plainB n).Ready b ∧ ¬ (onBus plainB n).BusCompletes (n + 1)

theorem meets_a (n : Nat) : MeetsA n :=
  fun b hb => ⟨rfl, ready_a_bus n b hb, completes_onBus _ n⟩
theorem fails_a (n : Nat) : FailsA n :=
  fun b hb => ⟨rfl, ready_a_bus n b hb, not_completes_onBus _ n⟩
theorem meets_b (n : Nat) : MeetsB n :=
  fun b hb => ⟨rfl, ready_b_bus n b hb, completes_onBus _ n⟩
theorem fails_b (n : Nat) : FailsB n :=
  fun b hb => ⟨rfl, ready_b_bus n b hb, not_completes_onBus _ n⟩

theorem witness_DecodeEncodeRoundTrip :
    (Instr.setOutput 15 0xFFFFFFFF 0xFFFFFFFF).wf = true ∧ (Instr.getDatain 0 0).wf = true := by
  decide
theorem witness_EncodeGivesTheWordBack :
    decode 0x40000003FFFFFFFFFF = .instr (.getDirection 0 0x3FF) ∧
    decode 0x2FFFFFFFFFFFFFFFFF = .instr (.setOutput 15 0xFFFFFFFF 0xFFFFFFFF) ∧
    decode 0x1FFFFFFFFFFFFFFFFF = .instr .finalizeContext := by decide
theorem witness_ResponseWordRoundTrip :
    Response.ofWord 0x10000000D = some ⟨.mapFail, 0xD⟩ ∧
    3 ≤ ((0x3FFFFFFFF : BitVec 36).extractLsb' 32 4).toNat ∧
    3 ≤ ((0xF00000000 : BitVec 36).extractLsb' 32 4).toNat := by decide
theorem witness_CommandTextRoundTrip :
    (Instr.setDataout 15 0x89ABCDEF).wf = true ∧ Instr.initializeContext.wf = true := by decide
theorem witness_StepRunsTheDecodedCommand :
    ({ plainA with cmds := [0x210000000500000004] } : State).cmds = 0x210000000500000004 :: [] ∧
    decode 0x210000000500000004 = .instr (.setOutput 1 5 4) := by decide
theorem witness_ReservedOpcodeOnlyAnswers :
    ({ plainA with cmds := [0x800000000000000000] } : State).cmds = 0x800000000000000000 :: [] ∧
    8 ≤ (Cmd.op 0x800000000000000000).toNat ∧ 8 ≤ (Cmd.op 0xFFFFFFFFFFFFFFFFFF).toNat := by decide
/-- Every row of the table: a refusal, a next state in either outcome of `initialize`, a reserved
opcode. -/
theorem witness_LifecycleTable :
    exec .initializeContext plainA = .refused .contextExists ∧
    exec (.getDatain 6 0) plainB = .refused .bankOutOfRange ∧
    (nextOf (exec .initializeContext (asked [.ok 0x10000, .ok 0x20000]))).isSome = true ∧
    (nextOf (exec .initializeContext (asked [.fail code13]))).isSome = true ∧
    (nextOf (exec .finalizeContext plainA)).isSome = true ∧
    (nextOf (exec (.setOutput 1 1 1) plainA)).isSome = true ∧
    (nextOf (exec (.setInput 1 1) plainA)).isSome = true ∧
    (nextOf (exec (.getDirection 1 1) plainA)).isSome = true ∧
    (nextOf (exec (.setDataout 5 1) plainB)).isSome = true ∧
    (nextOf (exec (.clrDataout 5 1) plainB)).isSome = true ∧
    (nextOf (exec (.getDatain 5 1) plainB)).isSome = true ∧
    8 ≤ (Cmd.op 0x800000000000000000).toNat :=
  ⟨rfl, rfl, by decide, by decide, by decide, by decide, by decide, by decide, by decide, by decide,
    by decide, by decide⟩
/-- A context already; every request granted; the first refused; the last refused. -/
theorem witness_InitializeMapsOrReleases :
    plainA.ctx = .valid ∧
    ((asked [.ok 0x10000, .ok 0x20000]).ctx = .none ∧
      (asked [.ok 0x10000, .ok 0x20000]).ContextInv ∧
      (asked [.ok 0x10000, .ok 0x20000]).Grants [0x10000, 0x20000] ∧
      [0x10000, 0x20000].length = (asked [.ok 0x10000, .ok 0x20000]).windows.length) ∧
    ((asked [.fail code13]).ContextInv ∧ (asked [.fail code13]).Grants [] ∧
      0 < (asked [.fail code13]).windows.length ∧ (asked [.fail code13]).answerAt 0 = .fail code13) ∧
    ((asked [.ok 0x10000, .fail code13]).ContextInv ∧
      (asked [.ok 0x10000, .fail code13]).Grants [0x10000] ∧
      1 < (asked [.ok 0x10000, .fail code13]).windows.length ∧
      (asked [.ok 0x10000, .fail code13]).answerAt 1 = .fail code13) := by
  refine ⟨rfl, ⟨rfl, by decide, ?_, rfl⟩, ⟨by decide, ?_, by decide, rfl⟩,
    ⟨by decide, ?_, by decide, rfl⟩⟩
  · intro r h
    match r, h with
    | 0, _ => rfl
    | 1, _ => rfl
  · intro r h
    exact absurd h (Nat.not_lt_zero r)
  · intro r h
    match r, h with
    | 0, _ => rfl
theorem witness_FinalizeReleasesEverything :
    (asked []).ctx = .none ∧ plainA.ctx = .valid ∧
    plainA.regions = [0x10000, 0x20000].map .mapped ∧
    [0x10000, 0x20000].length = plainA.windows.length := ⟨rfl, rfl, rfl, rfl⟩
theorem witness_FinalizeLeavesNothingReachable :
    plainA.ContextInv ∧ ∃ t, exec .finalizeContext plainA = .next t := ⟨by decide, _, rfl⟩
theorem witness_LifecycleTouchesNoRegister :
    (∃ t, exec .initializeContext (asked [.ok 0x10000, .ok 0x20000]) = .next t) ∧
    (∃ t, exec .finalizeContext plainA = .next t) ∧ plainA.dir 0 0 ≠ .other :=
  ⟨⟨_, rfl⟩, ⟨_, rfl⟩, by decide⟩
/-- A state with a context, and one without whose next command opens it. -/
theorem witness_ContextInvariantKept :
    plainA.ContextInv ∧ (∃ t, step plainA = .next t) ∧
    ({ asked [.ok 0x10000, .ok 0x20000] with cmds := [0] } : State).ContextInv ∧
    ∃ t, step { asked [.ok 0x10000, .ok 0x20000] with cmds := [0] } = .next t :=
  ⟨by decide, ⟨_, rfl⟩, by decide, _, rfl⟩

/-- Out of reset, about to open a context with the handles of `plainA`. -/
def opening : State := { asked [.ok 0x10000, .ok 0x20000] with cmds := [0] }

theorem opening_handles : ∀ hs : List Addr, hs.length = opening.windows.length → opening.Grants hs →
    HandlesApart opening.windows hs := by
  intro hs hl hg
  match hs, hl, hg with
  | [h, h'], _, hg =>
    have h0 : MapAnswer.ok 0x10000 = MapAnswer.ok h := hg 0 (Nat.succ_pos 1)
    have h1 : MapAnswer.ok 0x20000 = MapAnswer.ok h' := hg 1 (Nat.lt_succ_self 1)
    cases h0
    cases h1
    decide

theorem witness_RegistersStayReachable :
    configWf opening.cfg = true ∧ opening.ContextInv ∧ (opening.ctx = .valid → opening.Reaches) ∧
    (∀ hs, hs.length = opening.windows.length → opening.Grants hs →
      HandlesApart opening.windows hs) ∧
    ∃ t, step opening = .next t ∧ t.ctx = .valid :=
  ⟨by decide, by decide, fun h => absurd h (by decide), opening_handles, _, rfl, rfl⟩
theorem witness_ParametersAndStrapNeverChange :
    (∃ t, step opening = .next t) ∧
    ∃ t, step { onBus plainB 0 with cmds := [0x558000000100000000] } = .fault (.busFault t) :=
  ⟨⟨_, rfl⟩, _, rfl⟩
theorem witness_ControllerIsMadeByTheBusWrites :
    (∃ t, step plainA = .next t) ∧
    ∃ t, step { plainA with cmds := [0x210000000500000004] } = .next t := ⟨⟨_, rfl⟩, _, rfl⟩
theorem witness_ReservedBitsNeverChange :
    (plainA.ctx = .valid → plainA.Reaches) ∧
    (∃ t, step { plainA with cmds := [0x21FFFFFFFFFFFFFFFF] } = .next t) ∧
    (plainB.ctx = .valid → plainB.Reaches) ∧
    (∃ t, step { plainB with cmds := [0x23FFFFFFFFFFFFFFFF] } = .next t) ∧
    (∃ t, step { onBus plainA 5 with cmds := [0x21FFFFFFFFFFFFFFFF] } = .fault (.busFault t)) ∧
    ∃ t, step { onBus plainB 3 with cmds := [0x23FFFFFFFFFFFFFFFF] } = .fault (.busFault t) :=
  ⟨by decide, ⟨_, rfl⟩, by decide, ⟨_, rfl⟩, ⟨_, rfl⟩, _, rfl⟩
theorem witness_SetAndClearRegistersOfBackendA : ∀ b < 2,
    (onBus plainA 1).ctl = .a ⟨#v[0, 0, 0, 0, 0, 0], #v[0, 0]⟩ ∧ (onBus plainA 1).Reaches ∧
    (onBus plainA 1).BusCompletes 1 :=
  fun b hb => ⟨rfl, (ready_a_bus 1 b hb).2.2, completes_onBus _ 1⟩
theorem witness_SetAndClearRegistersOfBackendB : ∀ b < 6,
    (onBus plainB 1).ctl = .b ⟨#v[0, 0, 0, 0, 0, 0], #v[0, 0, 0, 0, 0, 0]⟩ ∧
    (onBus plainB 1).Reaches ∧ (onBus plainB 1).BusCompletes 1 :=
  fun b hb => ⟨rfl, (ready_b_bus 1 b hb).2.2, completes_onBus _ 1⟩
/-- A pin of each direction, and the last pin of the narrow bank. -/
theorem witness_LevelRegisterReads :
    (stateA #v[0x8, 0, 0, 0, 0, 0] #v[0, 0]).Reaches ∧
    (stateA #v[0x8, 0, 0, 0, 0, 0] #v[0, 0]).BusCompletes 1 ∧
    CtlA.fieldOf ⟨#v[0x8, 0, 0, 0, 0, 0], #v[0, 0]⟩ 0 1 = 0b001 ∧
    CtlA.fieldOf ⟨#v[0x8, 0, 0, 0, 0, 0], #v[0, 0]⟩ 0 0 = 0b000 ∧
    plainA.hasPin 1 21 = true ∧ plainA.hasPin 0 31 = true ∧ plainA.hasPin 1 22 = false :=
  ⟨by decide, (fun _ h => nomatch h), by decide, by decide, by decide, by decide, by decide⟩
theorem witness_DataInRegisterReads :
    plainB.Reaches ∧ plainB.BusCompletes 1 ∧ plainB.hasPin 3 21 = true ∧
    plainB.hasPin 3 22 = false ∧ plainB.hasPin 5 31 = true :=
  ⟨by decide, (fun _ h => nomatch h), by decide, by decide, by decide⟩
theorem witness_PlainStorageReadsBack :
    ((onBus plainA 2).Reaches ∧ (onBus plainA 2).BusCompletes 2) ∧
    ((onBus plainB 2).Reaches ∧ (onBus plainB 2).BusCompletes 2) :=
  ⟨⟨(ready_a_bus 2 0 (by decide)).2.2, completes_onBus _ 2⟩,
    ⟨(ready_b_bus 2 0 (by decide)).2.2, completes_onBus _ 2⟩⟩

/-! For the operations: a bus that completes exactly the accesses of the operands named here (the whole
of a full bank, the whole of the narrow one, no pin at all), and one that completes one fewer. -/

theorem selected_counts :
    (selectedPins (plainA.clip 0 0xFFFFFFFF)).length = 32 ∧
    (selectedPins (plainA.clip 1 0xFFFFFFFF)).length = 22 ∧
    (selectedPins (plainA.clip 1 0xFFC00000)).length = 0 := by decide

theorem witness_SetOutputOnBackendA :
    ((onBus plainA 66).Ready 0 ∧
      (onBus plainA 66).BusCompletes (2 + 2 * (selectedPins (plainA.clip 0 0xFFFFFFFF)).length)) ∧
    ((onBus plainA 1).Ready 1 ∧
      ¬ (onBus plainA 1).BusCompletes (2 + 2 * (selectedPins (plainA.clip 1 0xFFC00000)).length)) :=
  ⟨⟨ready_a_bus 66 0 (by decide), completes_onBus _ 66⟩,
    ⟨ready_a_bus 1 1 (by decide), not_completes_onBus _ 1⟩⟩
theorem witness_SetInputOnBackendA :
    ((onBus plainA 64).Ready 0 ∧
      (onBus plainA 64).BusCompletes (2 * (selectedPins (plainA.clip 0 0xFFFFFFFF)).length)) ∧
    ((onBus plainA 43).Ready 1 ∧
      ¬ (onBus plainA 43).BusCompletes (2 * (selectedPins (plainA.clip 1 0xFFFFFFFF)).length)) :=
  ⟨⟨ready_a_bus 64 0 (by decide), completes_onBus _ 64⟩,
    ⟨ready_a_bus 43 1 (by decide), not_completes_onBus _ 43⟩⟩
theorem witness_GetDirectionOnBackendA :
    ((onBus plainA 32).Ready 0 ∧
      (onBus plainA 32).BusCompletes (selectedPins (plainA.clip 0 0xFFFFFFFF)).length) ∧
    ((onBus plainA 21).Ready 1 ∧
      ¬ (onBus plainA 21).BusCompletes (selectedPins (plainA.clip 1 0xFFFFFFFF)).length) ∧
    CtlA.fieldOf ⟨#v[0x8, 0, 0, 0, 0, 0], #v[0, 0]⟩ 0 1 = 0b001 ∧
    CtlA.fieldOf ⟨#v[0x8, 0, 0, 0, 0, 0], #v[0, 0]⟩ 0 0 = 0b000 :=
  ⟨⟨ready_a_bus 32 0 (by decide), completes_onBus _ 32⟩,
    ⟨ready_a_bus 21 1 (by decide), not_completes_onBus _ 21⟩, by decide, by decide⟩
theorem witness_SetDataoutOnBackendA : MeetsA 1 ∧ FailsA 0 := ⟨meets_a 1, fails_a 0⟩
theorem witness_ClrDataoutOnBackendA : MeetsA 1 ∧ FailsA 0 := ⟨meets_a 1, fails_a 0⟩
theorem witness_GetDatainOnBackendA : MeetsA 1 ∧ FailsA 0 := ⟨meets_a 1, fails_a 0⟩
theorem witness_SetOutputOnBackendB : MeetsB 4 ∧ FailsB 3 := ⟨meets_b 4, fails_b 3⟩
theorem witness_SetInputOnBackendB : MeetsB 2 ∧ FailsB 1 := ⟨meets_b 2, fails_b 1⟩
theorem witness_GetDirectionOnBackendB : MeetsB 1 ∧ FailsB 0 := ⟨meets_b 1, fails_b 0⟩
theorem witness_SetDataoutOnBackendB : MeetsB 1 ∧ FailsB 0 := ⟨meets_b 1, fails_b 0⟩
theorem witness_ClrDataoutOnBackendB : MeetsB 1 ∧ FailsB 0 := ⟨meets_b 1, fails_b 0⟩
theorem witness_GetDatainOnBackendB : MeetsB 3 ∧ FailsB 2 := ⟨meets_b 3, fails_b 2⟩

theorem bus_sound (n : Nat) : plainA.BusCompletes n ∧ plainB.BusCompletes n :=
  ⟨(fun _ h => nomatch h), (fun _ h => nomatch h)⟩

/-- Both backends, every bank, any number of accesses. -/
def MeetsContract (n : Nat) : Prop :=
  (∀ b < 2, plainA.Ready b ∧ plainA.BusCompletes n) ∧
  ∀ b < 6, plainB.Ready b ∧ plainB.BusCompletes n

theorem meets_contract (n : Nat) : MeetsContract n :=
  ⟨fun b hb => ⟨ready_a b hb, (bus_sound n).1⟩, fun b hb => ⟨ready_b b hb, (bus_sound n).2⟩⟩

theorem witness_SetOutputContract : MeetsContract 66 := meets_contract 66
theorem witness_SetInputContract : MeetsContract 64 := meets_contract 64
theorem witness_GetDirectionContract : MeetsContract 32 := meets_contract 32
theorem witness_SetDataoutContract : MeetsContract 1 := meets_contract 1
theorem witness_ClrDataoutContract : MeetsContract 1 := meets_contract 1
theorem witness_GetDatainContract : MeetsContract 3 := meets_contract 3
theorem witness_MaskBitsOutsideTheBankNeverMatter :
    plainB.validMask 3 = 0x003FFFFF ∧ plainB.validMask 2 = 0xFFFFFFFF := by decide
/-- A level and a direction that do change; and in the state a fault leaves, a level that has changed
and a direction that has not. -/
theorem witness_OnlySelectedPinsChange :
    ((plainA.ctx = .valid → plainA.Reaches) ∧ plainA.hasPin 0 3 = true ∧
    (nextOf (exec (.setOutput 0 8 8) plainA)).map
      (fun t => (t.out 0 3, plainA.out 0 3, t.dirCode 0 3, plainA.dirCode 0 3))
      = some (true, false, 1, 0)) ∧
    (onBus plainA 2).Reaches ∧
    ∃ t, exec (.setOutput 0 8 8) (onBus plainA 2) = .fault (.busFault t) ∧ t.out 0 3 = true ∧
      t.dirCode 0 3 = 0 :=
  ⟨by decide, by decide, _, rfl, by decide, by decide⟩
/-- A command that completes and one that ends in a fault. -/
theorem witness_AccessesOnlyThroughTheBanksRegisters :
    (plainA.ctx = .valid → plainA.Reaches) ∧
    (∃ t, exec (.setOutput 1 0x00200000 0) plainA = .next t) ∧
    ((onBus plainB 3).ctx = .valid → (onBus plainB 3).Reaches) ∧
    ∃ t, exec (.setOutput 2 1 1) (onBus plainB 3) = .fault (.busFault t) :=
  ⟨by decide, ⟨_, rfl⟩, by decide, _, rfl⟩
theorem witness_EveryAccessIsWordAligned :
    configWf plainB.cfg = true ∧ plainB.ContextInv ∧ (∀ r ∈ plainB.regions, r.aligned = true) ∧
    (∃ t, exec (.getDatain 5 1) plainB = .next t) ∧
    ∃ t, exec (.setOutput 2 1 1) (onBus plainB 3) = .fault (.busFault t) :=
  ⟨by decide, by decide, by decide, ⟨_, rfl⟩, _, rfl⟩
/-- For the statements over two or three commands: both backends, every bank, a sound bus. -/
def MeetsSequence : Prop :=
  (∀ b < 2, plainA.Ready b ∧ plainA.busLife = none) ∧
  ∀ b < 6, plainB.Ready b ∧ plainB.busLife = none

theorem meets_sequence : MeetsSequence :=
  ⟨fun b hb => ⟨ready_a b hb, rfl⟩, fun b hb => ⟨ready_b b hb, rfl⟩⟩

theorem witness_DirectionReadsBack : MeetsSequence := meets_sequence
theorem witness_LevelReadsBack : MeetsSequence := meets_sequence
theorem witness_SetThenClear : MeetsSequence := meets_sequence
theorem witness_RepeatingSetsNothingNew : MeetsSequence := meets_sequence
theorem witness_StaleLevelStaysBehindAnInput :
    plainA.Ready 1 ∧ plainA.busLife = none ∧ (plainA.clip 1 0xFFFFFFFF).getLsbD 21 = true ∧
    plainB.Ready 3 ∧ plainB.busLife = none ∧ (plainB.clip 3 0xFFFFFFFF).getLsbD 21 = true := by decide
/-- Both backends: a command that completes, and one that ends in a fault with some pins switched; a
selected pin whose direction does change. -/
theorem witness_LevelBeforeDirection :
    plainA.Ready 1 ∧ (plainA.clip 1 0xFFFFFFFF).getLsbD 21 = true ∧
    (∃ t, exec (.setOutput 1 0xFFFFFFFF 0) plainA = .next t) ∧
    (onBus plainA 4).Ready 0 ∧
    (∃ t, exec (.setOutput 0 3 1) (onBus plainA 4) = .fault (.busFault t) ∧
      t.dirCode 0 0 ≠ plainA.dirCode 0 0 ∧ t.dirCode 0 1 = plainA.dirCode 0 1) ∧
    plainB.Ready 3 ∧ (plainB.clip 3 0xFFFFFFFF).getLsbD 21 = true ∧
    (∃ t, exec (.setOutput 3 0xFFFFFFFF 0) plainB = .next t) ∧
    (onBus plainB 3).Ready 5 ∧
    ∃ t, exec (.setOutput 5 1 1) (onBus plainB 3) = .fault (.busFault t) :=
  ⟨by decide, by decide, ⟨_, rfl⟩, by decide, ⟨_, rfl, by decide, by decide⟩, by decide, by decide,
    ⟨_, rfl⟩, by decide, _, rfl⟩
theorem witness_CommandsMakeBoundedAccesses :
    (∃ t, exec (.setOutput 0 0xFFFFFFFF 0) plainA = .next t) ∧
    (∃ t, exec .initializeContext (asked [.ok 0x10000, .fail code13]) = .next t) ∧
    (asked [.ok 0x10000, .fail code13]).ContextInv := ⟨⟨_, rfl⟩, ⟨_, rfl⟩, by decide⟩
/-- A fault at the first access and one at the last. -/
theorem witness_BusFaultIsPrecise :
    (onBus plainB 0).Reaches ∧ (onBus plainB 0).busLife = some 0 ∧
    (∃ left, exec (.setOutput 2 1 1) (onBus plainB 0) = .fault (.busFault left)) ∧
    (onBus plainB 3).Reaches ∧ (onBus plainB 3).busLife = some 3 ∧
    ∃ left, exec (.setOutput 2 1 1) (onBus plainB 3) = .fault (.busFault left) :=
  ⟨by decide, rfl, ⟨_, rfl⟩, by decide, rfl, _, rfl⟩
/-- A step that completes, one that faults; the first bank that is not there, and the last that is, in
both backends. -/
theorem witness_CapabilityOutputsAreConstant :
    (∃ t, step opening = .next t) ∧
    (∃ t, step { onBus plainB 0 with cmds := [0x558000000100000000] } = .fault (.busFault t)) ∧
    (plainA.ctx = .valid ∧ bankMask (.setInput 2 1) = some (2, 1) ∧ plainA.capNBanks = 2 ∧
      plainA.capName = "a") ∧
    plainB.ctx = .valid ∧ bankMask (.setInput 5 1) = some (5, 1) ∧ plainB.capNBanks = 6 ∧
      plainB.capName = "b" :=
  ⟨⟨_, rfl⟩, ⟨_, rfl⟩, by decide, by decide⟩
/-- The word at `a` lies outside a window mapped as the region record says. -/
def outside (a : Addr) (w : Window) : Region → Bool
  | .unmapped => true
  | .mapped h => a < h || h + w.len < a + 4

theorem outside_of_all (s : State) (a : Addr)
    (h : ((s.windows.zip s.regions).all fun x => outside a x.1 x.2) = true) :
    ∀ (r : Nat) (w : Window) (h : Addr), s.windows[r]? = some w → s.regions[r]? = some (.mapped h) →
      a < h ∨ h + w.len < a + 4 := by
  intro r w h' h1 h2
  have hz : (s.windows.zip s.regions)[r]? = some (w, .mapped h') := by
    simp [List.getElem?_zip_eq_some, h1, h2]
  simpa [outside] using List.all_eq_true.mp h _ (List.mem_of_getElem? hz)

/-- A word just below a window, one of which two bytes lie above it, one with no region mapped; the
first and the last word of a window, and what they reach. -/
theorem witness_OnlyMappedWindowsAreReached :
    (∀ (r : Nat) (w : Window) (h : Addr), plainA.windows[r]? = some w →
      plainA.regions[r]? = some (.mapped h) → 0xFFFC < h ∨ h + w.len < 0xFFFC + 4) ∧
    (∀ (r : Nat) (w : Window) (h : Addr), plainA.windows[r]? = some w →
      plainA.regions[r]? = some (.mapped h) → 0x100FE < h ∨ h + w.len < 0x100FE + 4) ∧
    (∀ (r : Nat) (w : Window) (h : Addr), (asked []).windows[r]? = some w →
      (asked []).regions[r]? = some (.mapped h) → 0x10000 < h ∨ h + w.len < 0x10000 + 4) ∧
    (plainA.regions = [0x10000, 0x20000].map .mapped ∧
      HandlesApart plainA.windows [0x10000, 0x20000] ∧
      plainA.windows[1]? = some ⟨0x2000, 0x100⟩ ∧
      ([0x10000, 0x20000] : List Addr)[1]? = some 0x20000 ∧ 0xFC + 4 ≤ 0x100) ∧
    translate plainA.windows plainA.regions 0x20000 = some 0x2000 ∧
    translate plainA.windows plainA.regions 0x200FC = some 0x20FC :=
  ⟨outside_of_all _ _ (by decide), outside_of_all _ _ (by decide), outside_of_all _ _ (by decide),
    by decide, by decide, by decide⟩

end Sys2Proof.Tests
end

section
/-! SUPPORT. How a step can end, said once per shared operation, and what no step changes: the
parameters of R5 and the strap of R9. -/

namespace Sys2Proof.Machine

/-! ### How an outcome ends in a state -/

@[simp] theorem endsIn_next {u t : State} : EndsIn (.next u) t ↔ t = u := by
  simp [EndsIn, eq_comm]

@[simp] theorem endsIn_busFault {u t : State} : EndsIn (.fault (.busFault u)) t ↔ t = u := by
  simp [EndsIn, eq_comm]

@[simp] theorem not_endsIn_refused {r : Refusal} {t : State} : ¬ EndsIn (.refused r) t := by
  simp [EndsIn]

/-! ### A step by its command word -/

theorem step_wait {s : State} (hs : s.cmds = []) : step s = .next s := by
  simp [step, hs]

theorem step_instr {s : State} {w : Cmd} {rest : List Cmd} {i : Instr} (hs : s.cmds = w :: rest)
    (hw : decode w = .instr i) : step s = exec i { s with cmds := rest } := by
  simp [step, hs, hw]

theorem step_reserved {s : State} {w : Cmd} {rest : List Cmd} {op : BitVec 4}
    (hs : s.cmds = w :: rest) (hw : decode w = .reserved op) :
    step s = .next (takeIllegalOp { s with cmds := rest }) := by
  simp [step, hs, hw]

/-- A step that ends in a state waited, ran the decoded command, or answered a reserved opcode. -/
theorem step_endsIn {s t : State} (h : EndsIn (step s) t) :
    (s.cmds = [] ∧ t = s) ∨
    ∃ w rest, s.cmds = w :: rest ∧
      ((∃ i, decode w = .instr i ∧ EndsIn (exec i { s with cmds := rest }) t) ∨
       (∃ op, decode w = .reserved op ∧ t = takeIllegalOp { s with cmds := rest })) := by
  cases hs : s.cmds with
  | nil =>
    exact .inl ⟨rfl, endsIn_next.mp (step_wait hs ▸ h)⟩
  | cons w rest =>
    refine .inr ⟨w, rest, rfl, ?_⟩
    cases hw : decode w with
    | instr i => exact .inl ⟨i, rfl, step_instr hs hw ▸ h⟩
    | reserved op => exact .inr ⟨op, rfl, endsIn_next.mp (step_reserved hs hw ▸ h)⟩

/-! ### A per-bank command past its preconditions -/

/-- How a per-bank command ends once its preconditions hold: its accesses led to `u`, and either it
responds from there, or `u` is what a bus fault left (R73, R122). -/
inductive AccessEnd (s : State) : Host.Outcome State Fault Refusal → Prop where
  | wrote {u : State} (h : BusFrame s u) : AccessEnd s (.next (u.loseError.respond .ok 0))
  | answered {u : State} (r : Word) (h : BusFrame s u) : AccessEnd s (.next (u.respond .ok r))
  | faulted {u : State} (h : BusFrame s u) : AccessEnd s (.fault (.busFault u))

theorem finishWrite_accessEnd {s : State} {x : Access Unit} (h : x.Framed s) :
    AccessEnd s (finishWrite x) := by
  cases x with
  | done _ u => exact .wrote h
  | failed u => exact .faulted h

theorem finishRead_accessEnd {s : State} {x : Access Word} (h : x.Framed s) :
    AccessEnd s (finishRead x) := by
  cases x with
  | done r u => exact .answered r h
  | failed u => exact .faulted h

theorem AccessEnd.not_refused {s : State} {o : Host.Outcome State Fault Refusal} (h : AccessEnd s o)
    (r : Refusal) : o ≠ .refused r := by
  rintro rfl
  cases h

/-- The two backend forms of an operation, each keeping the frame. -/
theorem framed_byBackend {α : Type} {s : State} (k : Backend) {x y : Access α} (hx : x.Framed s)
    (hy : y.Framed s) : (match k with | .A => x | .B => y).Framed s := by
  cases k with
  | A => exact hx
  | B => exact hy

/-- Every per-bank command checks its preconditions and then makes its accesses (R90). -/
theorem exec_perBank {i : Instr} {bank : Nat} {mask : Word} (hi : bankMask i = some (bank, mask)) :
    ∃ run, (∀ s, exec i s = withBank bank s run) ∧ ∀ s, AccessEnd s (run s) := by
  cases i with
  | initializeContext => cases hi
  | finalizeContext => cases hi
  | setOutput b m v =>
    cases hi
    exact ⟨_, fun _ => rfl, fun s => finishWrite_accessEnd <| framed_byBackend s.backend
      (setOutputA_framed _ _ _ s) (setOutputB_framed _ _ _ s)⟩
  | setInput b m =>
    cases hi
    exact ⟨_, fun _ => rfl, fun s => finishWrite_accessEnd <| framed_byBackend s.backend
      (setInputA_framed _ _ s) (setInputB_framed _ _ s)⟩
  | getDirection b m =>
    cases hi
    exact ⟨_, fun _ => rfl, fun s => finishRead_accessEnd <| framed_byBackend s.backend
      (getDirectionA_framed _ _ s) (getDirectionB_framed _ _ s)⟩
  | setDataout b m =>
    cases hi
    exact ⟨_, fun _ => rfl, fun s => finishWrite_accessEnd <| framed_byBackend s.backend
      (regWrite_framed _ _ s) (regWrite_framed _ _ s)⟩
  | clrDataout b m =>
    cases hi
    exact ⟨_, fun _ => rfl, fun s => finishWrite_accessEnd <| framed_byBackend s.backend
      (regWrite_framed _ _ s) (regWrite_framed _ _ s)⟩
  | getDatain b m =>
    cases hi
    exact ⟨_, fun _ => rfl, fun s => finishRead_accessEnd <| framed_byBackend s.backend
      (getDatainA_framed _ _ s) (getDatainB_framed _ _ s)⟩

/-- The commands that name no bank. -/
theorem bankMask_eq_none {i : Instr} (h : bankMask i = none) :
    i = .initializeContext ∨ i = .finalizeContext := by
  cases i <;> simp_all [bankMask]

/-- With a context, a bank that is not there is the only reason to refuse its bank (R90, R123). -/
theorem withBank_bankOutOfRange_iff {s : State} {bank : Nat}
    {run : State → Host.Outcome State Fault Refusal} (hc : s.ctx = .valid)
    (hrun : run s ≠ .refused .bankOutOfRange) :
    withBank bank s run = .refused .bankOutOfRange ↔ nbanks s.backend ≤ bank := by
  by_cases hb : bank < nbanks s.backend
  · simp [withBank, hc, hb, hrun]
  · simp [withBank, hc, hb, Nat.le_of_not_lt hb]

/-! ### The lifecycle commands -/

@[simp] theorem releaseAll_cfg (s : State) : (releaseAll s).cfg = s.cfg :=
  (releaseFrom_frame s.windows 0 s).1

@[simp] theorem releaseAll_ctl (s : State) : (releaseAll s).ctl = s.ctl :=
  (releaseFrom_frame s.windows 0 s).2.1

@[simp] theorem takeMapFailure_cfg (e : ErrCode) (s : State) : (takeMapFailure e s).cfg = s.cfg :=
  releaseAll_cfg s

@[simp] theorem takeMapFailure_ctl (e : ErrCode) (s : State) : (takeMapFailure e s).ctl = s.ctl :=
  releaseAll_ctl s

/-- `initialize` leaves the parameters and the controller, whether or not every region is mapped. -/
theorem openContext_cfg_ctl (s : State) :
    (openContext s).cfg = s.cfg ∧ (openContext s).ctl = s.ctl := by
  obtain ⟨hcfg, hctl, _⟩ := mapFrom_frame s.windows 0 s
  rw [openContext]
  cases hm : mapFrom 0 s.windows s with
  | allMapped u =>
    rw [hm] at hcfg hctl
    exact ⟨hcfg, hctl⟩
  | failedWith e u =>
    rw [hm] at hcfg hctl
    exact ⟨(takeMapFailure_cfg e u).trans hcfg, (takeMapFailure_ctl e u).trans hctl⟩

theorem execInitialize_endsIn {s t : State} (h : EndsIn (execInitialize s) t) :
    s.ctx = .none ∧ t = openContext s := by
  rw [execInitialize] at h
  cases hc : s.ctx with
  | none =>
    rw [hc] at h
    exact ⟨rfl, endsIn_next.mp h⟩
  | valid =>
    rw [hc] at h
    exact absurd h not_endsIn_refused

theorem execFinalize_endsIn {s t : State} (h : EndsIn (execFinalize s) t) :
    s.ctx = .valid ∧ t = (releaseAll s).loseError.respond .ok 0 := by
  rw [execFinalize] at h
  cases hc : s.ctx with
  | none =>
    rw [hc] at h
    exact absurd h not_endsIn_refused
  | valid =>
    rw [hc] at h
    exact ⟨rfl, endsIn_next.mp h⟩

/-! ### What an implementation fixes stays fixed -/

/-- The two states have the same parameters and the same strap (R5, R9). -/
structure SameBoard (s t : State) : Prop where
  cfg : t.cfg = s.cfg
  backend : t.backend = s.backend

theorem sameBoard_of_ctl {s t : State} (hcfg : t.cfg = s.cfg) (hctl : t.ctl = s.ctl) :
    SameBoard s t :=
  ⟨hcfg, by simp [State.backend, hctl]⟩

theorem AccessEnd.sameBoard {s t : State} {o : Host.Outcome State Fault Refusal}
    (h : AccessEnd s o) (ht : EndsIn o t) : SameBoard s t := by
  cases h with
  | wrote hu => exact endsIn_next.mp ht ▸ ⟨hu.map.cfg, hu.map.backend⟩
  | answered r hu => exact endsIn_next.mp ht ▸ ⟨hu.map.cfg, hu.map.backend⟩
  | faulted hu => exact endsIn_busFault.mp ht ▸ ⟨hu.map.cfg, hu.map.backend⟩

theorem exec_sameBoard {i : Instr} {s t : State} (h : EndsIn (exec i s) t) : SameBoard s t := by
  cases hi : bankMask i with
  | none =>
    rcases bankMask_eq_none hi with rfl | rfl
    · obtain ⟨-, rfl⟩ := execInitialize_endsIn h
      obtain ⟨hcfg, hctl⟩ := openContext_cfg_ctl s
      exact sameBoard_of_ctl hcfg hctl
    · obtain ⟨-, rfl⟩ := execFinalize_endsIn h
      exact sameBoard_of_ctl (releaseAll_cfg s) (releaseAll_ctl s)
  | some bm =>
    obtain ⟨run, hrun, hend⟩ := exec_perBank hi
    rw [hrun] at h
    obtain ⟨-, -, h⟩ := withBank_endsIn h
    exact (hend s).sameBoard h

theorem step_sameBoard {s t : State} (h : EndsIn (step s) t) : SameBoard s t := by
  rcases step_endsIn h with ⟨-, rfl⟩ | ⟨w, rest, -, ⟨i, -, hi⟩ | ⟨op, -, rfl⟩⟩
  · exact ⟨rfl, rfl⟩
  · obtain ⟨hcfg, hbackend⟩ := exec_sameBoard hi
    exact ⟨hcfg, hbackend⟩
  · exact ⟨rfl, rfl⟩

theorem SameBoard.capNBanks {s t : State} (h : SameBoard s t) : t.capNBanks = s.capNBanks := by
  rw [State.capNBanks, State.capNBanks, h.backend]

theorem SameBoard.capName {s t : State} (h : SameBoard s t) : t.capName = s.capName := by
  rw [State.capName, State.capName, h.backend, h.cfg]

/-- With a context, `CAP_NBANKS` is the bound of the banks a command may name (R10, R90, R123). -/
theorem exec_bankOutOfRange_iff {s : State} {i : Instr} {bank : Nat} {mask : Word}
    (hc : s.ctx = .valid) (hi : bankMask i = some (bank, mask)) :
    exec i s = .refused .bankOutOfRange ↔ s.capNBanks ≤ bank := by
  obtain ⟨run, hrun, hend⟩ := exec_perBank hi
  rw [hrun]
  exact withBank_bankOutOfRange_iff hc ((hend s).not_refused _)

/-! ### The obligations -/

/-- Settles O7: the command word is taken from the host's list and its instruction run. -/
theorem stepRunsTheDecodedCommand : Obligations.StepRunsTheDecodedCommand :=
  fun _ _ _ _ hs hw => step_instr hs hw

/-- Settles O18: no access, request, response or release touches the parameters or the strap. -/
theorem parametersAndStrapNeverChange : Obligations.ParametersAndStrapNeverChange := by
  intro s t h
  obtain ⟨hcfg, hbackend⟩ := step_sameBoard h
  exact ⟨hcfg, hbackend⟩

/-- Settles O56: the outputs are functions of the parameters and the strap, which no step changes,
and the precondition on the bank is the bound `CAP_NBANKS`. -/
theorem capabilityOutputsAreConstant : Obligations.CapabilityOutputsAreConstant := by
  refine ⟨fun s => ⟨rfl, rfl, fun t h => ?_⟩, fun s i bank mask hc hi => ?_⟩
  · have hboard := step_sameBoard h
    exact ⟨hboard.capNBanks, hboard.capName⟩
  · exact exec_bankOutOfRange_iff hc hi

end Sys2Proof.Machine
end

section
/-! SUPPORT. The lifecycle: the context invariant at reset and over every step (R21, R22, R82, R83), and
the frame of the two lifecycle commands (R43, R84, R126). -/

namespace Sys2Proof.Machine

/-! ### The context invariant -/

/-- The invariant speaks of the address map and of `CTX` alone. -/
theorem SameMap.contextInv {s t : State} (h : SameMap s t) (hctx : t.ctx = s.ctx)
    (hi : s.ContextInv) : t.ContextInv := by
  have hwin : t.windows = s.windows := by simp only [State.windows, h.cfg, h.backend]
  have hder : t.derivedBases = s.derivedBases := by
    simp only [State.derivedBases, State.handle, h.cfg, h.backend, h.regions]
  simpa only [State.ContextInv, hwin, hder, hctx, h.regions, h.bankBase] using hi

/-- Without a context: no region mapped and no bank base (R22, R82). -/
theorem contextInv_of_noContext {s : State} (hlen : s.regions.length = s.windows.length)
    (hctx : s.ctx = .none) (hreg : ∀ r ∈ s.regions, r = .unmapped) (hbase : s.bankBase = []) :
    s.ContextInv := by
  refine ⟨hlen, fun hv => ?_, fun _ => ⟨fun r hr => ?_, hbase⟩⟩
  · rw [hctx] at hv
    cases hv
  · rw [hreg r hr]
    rfl

/-- With a context: every region mapped and the bank bases derived (R21, R22). -/
theorem contextInv_of_handles {s : State} (hs : List Addr) (hlen : hs.length = s.windows.length)
    (hctx : s.ctx = .valid) (hreg : s.regions = hs.map .mapped) (hbase : s.bankBase = s.derivedBases) :
    s.ContextInv := by
  refine ⟨by rw [hreg, List.length_map, hlen], fun _ => ⟨fun r hr => ?_, hbase⟩, fun hn => ?_⟩
  · obtain ⟨h, -, rfl⟩ := List.mem_map.mp (hreg ▸ hr)
    rfl
  · rw [hctx] at hn
    cases hn

theorem afterReset_regions_unmapped (cfg : Config) (ctl : Controller) (bus : Option Nat) :
    ∀ r ∈ (State.afterReset cfg ctl bus).regions, r = .unmapped := by
  intro r hr
  obtain ⟨w, -, rfl⟩ := List.mem_map.mp hr
  rfl

theorem afterReset_regions_length (cfg : Config) (ctl : Controller) (bus : Option Nat) :
    (State.afterReset cfg ctl bus).regions.length = (State.afterReset cfg ctl bus).windows.length :=
  List.length_map _

theorem reset_backend : State.reset.backend = Config.strap := by
  show State.backend (State.afterReset _ (Controller.zeros Config.strap) _) = Config.strap
  cases Config.strap <;> rfl

theorem releaseAll_contextInv {s : State} (hlen : s.regions.length = s.windows.length) :
    (releaseAll s).ContextInv := by
  obtain ⟨e, he⟩ := releaseAll_eq hlen
  rw [he]
  refine contextInv_of_noContext List.length_replicate rfl (fun r hr => ?_) rfl
  exact List.eq_of_mem_replicate hr

/-- `initialize` leaves the whole context, or, refused a region, none of it (R83). -/
theorem openContext_contextInv {s : State} (hlen : s.regions.length = s.windows.length) :
    (openContext s).ContextInv := by
  rw [openContext]
  cases hm : mapFrom 0 s.windows s with
  | allMapped u =>
    obtain ⟨hs, hl, hg⟩ := granted_of_allMapped _ _ _ _ hm
    have hrun : mapFrom 0 s.windows s = _ := mapFrom_granted s.windows hs [] s.regions s hl hlen rfl hg
    rw [hrun] at hm
    cases hm
    exact contextInv_of_handles hs hl rfl rfl rfl
  | failedWith e u =>
    obtain ⟨hcfg, hctl, -, -, -, -, -, hreg, -⟩ := mapFrom_frame s.windows 0 s
    rw [hm] at hcfg hctl hreg
    have hwin : u.windows = s.windows := by
      obtain ⟨hcfg, hbackend⟩ : SameBoard s u := sameBoard_of_ctl hcfg hctl
      rw [State.windows, State.windows, hcfg, hbackend]
    have hu : (releaseAll u).ContextInv := releaseAll_contextInv (hreg.trans (hlen.trans (hwin ▸ rfl)))
    exact SameMap.contextInv ⟨rfl, rfl, rfl, rfl⟩ rfl hu

theorem AccessEnd.contextInv {s t : State} {o : Host.Outcome State Fault Refusal}
    (h : AccessEnd s o) (ht : EndsIn o t) (hi : s.ContextInv) : t.ContextInv := by
  cases h with
  | wrote hu =>
    rw [endsIn_next.mp ht]
    exact (hu.map.trans ⟨rfl, rfl, rfl, rfl⟩).contextInv hu.ctx hi
  | answered r hu =>
    rw [endsIn_next.mp ht]
    exact (hu.map.trans ⟨rfl, rfl, rfl, rfl⟩).contextInv hu.ctx hi
  | faulted hu =>
    rw [endsIn_busFault.mp ht]
    exact hu.map.contextInv hu.ctx hi

theorem exec_contextInv {i : Instr} {s t : State} (h : EndsIn (exec i s) t) (hi : s.ContextInv) :
    t.ContextInv := by
  cases hb : bankMask i with
  | none =>
    rcases bankMask_eq_none hb with rfl | rfl
    · obtain ⟨-, rfl⟩ := execInitialize_endsIn h
      exact openContext_contextInv hi.1
    · obtain ⟨-, rfl⟩ := execFinalize_endsIn h
      exact SameMap.contextInv ⟨rfl, rfl, rfl, rfl⟩ rfl (releaseAll_contextInv hi.1)
  | some bm =>
    obtain ⟨run, hrun, hend⟩ := exec_perBank hb
    rw [hrun] at h
    obtain ⟨-, -, h⟩ := withBank_endsIn h
    exact (hend s).contextInv h hi

theorem step_contextInv {s t : State} (h : EndsIn (step s) t) (hi : s.ContextInv) : t.ContextInv := by
  rcases step_endsIn h with ⟨-, rfl⟩ | ⟨w, rest, -, ⟨i, -, hx⟩ | ⟨op, -, rfl⟩⟩
  · exact hi
  · exact exec_contextInv hx hi
  · exact SameMap.contextInv (s := s) ⟨rfl, rfl, rfl, rfl⟩ rfl hi

/-! ### The frame of a lifecycle command -/

/-- What the platform requests and the response of a lifecycle command leave alone: the parameters, the
controller, the bus, the pin samples and the commands; no register-bus access passes (R43, R84). -/
structure PlatformFrame (s t : State) : Prop where
  cfg : t.cfg = s.cfg
  ctl : t.ctl = s.ctl
  busLife : t.busLife = s.busLife
  pinIn : t.pinIn = s.pinIn
  cmds : t.cmds = s.cmds
  added : ∃ evs, t.trace = s.trace ++ evs ∧ ∀ e ∈ evs, e.isAccess = false

theorem PlatformFrame.trans {s t u : State} (h : PlatformFrame s t) (h' : PlatformFrame t u) :
    PlatformFrame s u := by
  obtain ⟨xs, htrace, hxs⟩ := h.added
  obtain ⟨ys, htrace', hys⟩ := h'.added
  refine ⟨h'.cfg.trans h.cfg, h'.ctl.trans h.ctl, h'.busLife.trans h.busLife, h'.pinIn.trans h.pinIn,
    h'.cmds.trans h.cmds, xs ++ ys, by rw [htrace', htrace, List.append_assoc], fun e he => ?_⟩
  rcases List.mem_append.mp he with he | he
  · exact hxs e he
  · exact hys e he

/-- The response, from a state that may also differ in the context and in `PLAT_ERR`. -/
theorem platformFrame_respond {s u : State} {st : Status} {d : Word} (hcfg : u.cfg = s.cfg)
    (hctl : u.ctl = s.ctl) (hbus : u.busLife = s.busLife) (hpin : u.pinIn = s.pinIn)
    (hcmds : u.cmds = s.cmds) (htrace : u.trace = s.trace) : PlatformFrame s (u.respond st d) :=
  ⟨hcfg, hctl, hbus, hpin, hcmds, [.respond ⟨st, d⟩], by simp [htrace], by simp⟩

theorem isAccess_of_isMap {e : Event} (h : e.isMap = true) : e.isAccess = false := by
  cases e with
  | map _ _ _ => rfl
  | _ => cases h

theorem isAccess_of_isUnmap {e : Event} (h : e.isUnmap = true) : e.isAccess = false := by
  cases e with
  | unmap _ _ => rfl
  | _ => cases h

theorem mapFrom_platformFrame (s : State) : PlatformFrame s (mapFrom 0 s.windows s).final := by
  obtain ⟨hcfg, hctl, -, -, hcmds, hpin, hbus, -, evs, htrace, -, hmap, -⟩ :=
    mapFrom_frame s.windows 0 s
  exact ⟨hcfg, hctl, hbus, hpin, hcmds, evs, htrace, fun e he => isAccess_of_isMap (hmap e he)⟩

theorem releaseAll_platformFrame (s : State) : PlatformFrame s (releaseAll s) := by
  obtain ⟨hcfg, hctl, -, -, hcmds, hpin, hbus, -, -, evs, htrace, -, hunmap, -⟩ :=
    releaseFrom_frame s.windows 0 s
  exact ⟨hcfg, hctl, hbus, hpin, hcmds, evs, htrace, fun e he => isAccess_of_isUnmap (hunmap e he)⟩

theorem openContext_platformFrame (s : State) : PlatformFrame s (openContext s) := by
  have hmap := mapFrom_platformFrame s
  rw [openContext]
  cases hm : mapFrom 0 s.windows s with
  | allMapped u =>
    rw [hm] at hmap
    exact hmap.trans (platformFrame_respond rfl rfl rfl rfl rfl rfl)
  | failedWith e u =>
    rw [hm] at hmap
    exact (hmap.trans (releaseAll_platformFrame u)).trans
      (platformFrame_respond rfl rfl rfl rfl rfl rfl)

theorem execFinalize_platformFrame (s : State) :
    PlatformFrame s ((releaseAll s).loseError.respond .ok 0) :=
  (releaseAll_platformFrame s).trans (platformFrame_respond rfl rfl rfl rfl rfl rfl)

theorem execInitialize_not_fault (s : State) (f : Fault) : execInitialize s ≠ .fault f := by
  rw [execInitialize]
  cases s.ctx <;> simp

theorem execFinalize_not_fault (s : State) (f : Fault) : execFinalize s ≠ .fault f := by
  rw [execFinalize]
  cases s.ctx <;> simp

/-- A lifecycle command does not fault, and its next state keeps the frame. -/
theorem exec_lifecycle {i : Instr} (hi : i = .initializeContext ∨ i = .finalizeContext) (s : State) :
    (∀ f, exec i s ≠ .fault f) ∧ ∀ t, exec i s = .next t → PlatformFrame s t := by
  rcases hi with rfl | rfl
  · refine ⟨execInitialize_not_fault s, fun t ht => ?_⟩
    obtain ⟨-, rfl⟩ := execInitialize_endsIn (.inl ht)
    exact openContext_platformFrame s
  · refine ⟨execFinalize_not_fault s, fun t ht => ?_⟩
    obtain ⟨-, rfl⟩ := execFinalize_endsIn (.inl ht)
    exact execFinalize_platformFrame s

/-! ### The pad of a pin -/

theorem dir_eq_of_ctl {s t : State} (h : t.ctl = s.ctl) (b p : Nat) : t.dir b p = s.dir b p := by
  simp only [State.dir, h]

theorem out_eq_of_ctl {s t : State} (h : t.ctl = s.ctl) (b p : Nat) : t.out b p = s.out b p := by
  simp only [State.out, State.outWord, h]

/-- The pad of an input or an output is a function of the controller (R37); of a pin in another
function it is a free value of the moment. -/
theorem pad_eq_of_ctl {s t : State} (h : t.ctl = s.ctl) (b p : Nat) (hdir : s.dir b p ≠ .other) :
    t.pad b p = s.pad b p := by
  rw [State.pad, State.pad, dir_eq_of_ctl h, out_eq_of_ctl h]
  cases hd : s.dir b p with
  | output => rfl
  | input => rfl
  | other => exact absurd hd hdir

/-! ### The obligations -/

/-- Settles O9: the regions after reset are unmapped, one for each window, and the controller is that of
the strap. -/
theorem resetLeavesNoContext : Obligations.ResetLeavesNoContext :=
  ⟨rfl, afterReset_regions_unmapped _ _ _, afterReset_regions_length _ _ _, rfl, reset_backend, rfl, rfl⟩

/-- Settles O10: reset leaves no context, whatever the open values. -/
theorem contextInvariantAfterReset : Obligations.ContextInvariantAfterReset := fun cfg ctl bus =>
  contextInv_of_noContext (afterReset_regions_length cfg ctl bus) rfl
    (afterReset_regions_unmapped cfg ctl bus) rfl

/-- Settles O16: accesses keep the address map and `CTX`, the release leaves no region mapped, and a
completed mapping loop was granted every region. -/
theorem contextInvariantKept : Obligations.ContextInvariantKept :=
  fun _ _ hi h => step_contextInv (.inl h) hi

/-- Settles O15: the two commands make platform requests only, and the pad of an input or output is a
function of the controller. -/
theorem lifecycleTouchesNoRegister : Obligations.LifecycleTouchesNoRegister := by
  intro s i hi
  obtain ⟨hfault, hnext⟩ := exec_lifecycle hi s
  refine ⟨hfault, fun t ht => ?_⟩
  obtain ⟨hcfg, hctl, hbus, hpin, hcmds, hadded⟩ := hnext t ht
  exact ⟨hctl, hbus, hpin, hcmds, hcfg, hadded, fun b p hdir => pad_eq_of_ctl hctl b p hdir⟩

end Sys2Proof.Machine
end

section
/-! SUPPORT. The register writes of the per-bank commands, said once: what every such write keeps holds at
every point of a command, also where a bus fault cuts it (R91 to R96, R105 to R110, R122). -/

namespace Sys2Proof.Machine

/-! ### Output bits set and cleared -/

/-- The output bits of bank `b`: what `State.outWord` reads (R26). -/
def Controller.outWord : Controller → Nat → Word
  | .a c, bank => c.latchWord bank
  | .b c, bank => c.dataOutWord bank

/-- The output bits of bank `b` replaced. -/
def Controller.withOut : Controller → Nat → Word → Controller
  | .a c, bank, w => .a (c.setLatch bank w)
  | .b c, bank, w => .b (c.setDataOut bank w)

/-- Output bits `x` of bank `b` set: what the set register of either backend does (R56, R60). -/
def Controller.raise (k : Controller) (b : Nat) (x : Word) : Controller :=
  k.withOut b (k.outWord b ||| x)

/-- Output bits `x` of bank `b` cleared: what the clear register of either backend does (R57, R61). -/
def Controller.lower (k : Controller) (b : Nat) (x : Word) : Controller :=
  k.withOut b (k.outWord b &&& ~~~x)

/-- The set register of a bank. -/
def raiseReg : Backend → Nat → Reg
  | .A, b => .set b
  | .B, b => .setDataOut b

/-- The clear register of a bank. -/
def lowerReg : Backend → Nat → Reg
  | .A, b => .clr b
  | .B, b => .clearDataOut b

theorem raiseReg_mem {k : Backend} {b : Nat} (hb : b < nbanks k) : raiseReg k b ∈ controllerRegs k := by
  cases k with
  | A => exact set_mem hb
  | B => exact setDataOut_mem hb

theorem lowerReg_mem {k : Backend} {b : Nat} (hb : b < nbanks k) : lowerReg k b ∈ controllerRegs k := by
  cases k with
  | A => exact clr_mem hb
  | B => exact clearDataOut_mem hb

theorem storeReg_raiseReg (s : State) (b : Nat) (x : Word) :
    storeReg s.ctl (raiseReg s.backend b) x = some (s.ctl.raise b x) := by
  cases hc : s.ctl with
  | a c => rw [backend_a hc]; rfl
  | b c => rw [backend_b hc]; rfl

theorem storeReg_lowerReg (s : State) (b : Nat) (x : Word) :
    storeReg s.ctl (lowerReg s.backend b) x = some (s.ctl.lower b x) := by
  cases hc : s.ctl with
  | a c => rw [backend_a hc]; rfl
  | b c => rw [backend_b hc]; rfl

/-- The field of pin `i` of bank `b` replaced: one read-modify-write of the direction loop (R92, R95). -/
def CtlA.withField (c : CtlA) (b i : Nat) (code : Word) : CtlA :=
  c.setFsel (pinPlace b i).word (setField (c.fselWord (pinPlace b i).word) (pinPlace b i).shift code)

/-! ### The writes of a command -/

/-- The same state with another controller. -/
def State.withCtl (s : State) (k : Controller) : State := { s with ctl := k }

@[simp] theorem State.withCtl_ctl (s : State) (k : Controller) : (s.withCtl k).ctl = k := rfl

theorem withCtl_a_backend {s : State} (hA : s.backend = .A) (c : CtlA) :
    (s.withCtl (.a c)).backend = s.backend := hA.symm

theorem withCtl_b_backend {s : State} (hB : s.backend = .B) (c : CtlB) :
    (s.withCtl (.b c)).backend = s.backend := hB.symm

/-- `CommandWrite s b i k k'`: command `i` of bank `b`, begun in `s`, may write a register that takes
the controller from `k` to `k'` (R92, R93, R95, R96, R106, R107, R109, R110). -/
inductive CommandWrite (s : State) (b : Nat) : Instr → Controller → Controller → Prop where
  | levelsHigh (mask value : Word) (k : Controller) :
      CommandWrite s b (.setOutput b mask value) k (k.raise b (s.clip b mask &&& value))
  | levelsLow (mask value : Word) (k : Controller) :
      CommandWrite s b (.setOutput b mask value) k (k.lower b (s.clip b mask &&& ~~~value))
  | dataHigh (mask : Word) (k : Controller) :
      CommandWrite s b (.setDataout b mask) k (k.raise b (s.clip b mask))
  | dataLow (mask : Word) (k : Controller) :
      CommandWrite s b (.clrDataout b mask) k (k.lower b (s.clip b mask))
  | fieldOut (mask value : Word) (c : CtlA) (i : Nat) (hi : (s.clip b mask).getLsbD i = true) :
      CommandWrite s b (.setOutput b mask value) (.a c) (.a (c.withField b i fselOut))
  | fieldIn (mask : Word) (c : CtlA) (i : Nat) (hi : (s.clip b mask).getLsbD i = true) :
      CommandWrite s b (.setInput b mask) (.a c) (.a (c.withField b i fselIn))
  | oeOut (mask value : Word) (c : CtlB) :
      CommandWrite s b (.setOutput b mask value) (.b c) (.b (c.setOe b (c.oeWord b ||| s.clip b mask)))
  | oeIn (mask : Word) (c : CtlB) :
      CommandWrite s b (.setInput b mask) (.b c) (.b (c.setOe b (c.oeWord b &&& ~~~(s.clip b mask))))

/-- Every write that command `i` may make in the controller of `s` keeps `I`. -/
def KeptByWrites (I : Controller → Prop) (s : State) (i : Instr) : Prop :=
  ∀ b k k', b < nbanks s.backend → (s.withCtl k).backend = s.backend → CommandWrite s b i k k' →
    I k → I k'

/-! ### What its writes keep holds at every point of a command -/

section Along

variable {I : Controller → Prop} {s : State}

/-- A read changes no register, whether it completes or not. -/
theorem read_along (r : Reg) (h : I s.ctl) : (regRead r s).Along I s := by
  rw [regRead, memRead]
  cases ht : s.busTick with
  | none => exact along_stay rfl h
  | some s1 =>
    obtain ⟨l, rfl⟩ := busTick_eq ht
    cases s.target (s.regAddr r) with
    | none => exact along_stay rfl h
    | some r' =>
      cases hv : s.regValue r' with
      | none => exact along_stay (by simp only [hv, Access.final_failed]) h
      | some v =>
        simp only [hv]
        refine ⟨⟨by simp, by simp [State.backend], by simp, by simp⟩, [.read (s.regAddr r) r' v],
          by simp, by simp [replay, replayEvent], fun pre hp => ?_⟩
        rcases prefix_singleton hp with rfl | rfl
        · exact h
        · exact h

theorem raise_along {k : Backend} (hk : s.backend = k) (hR : s.Reaches) {b : Nat} (hb : b < nbanks k)
    (x : Word) (h : I s.ctl) (h' : I (s.ctl.raise b x)) : (regWrite (raiseReg k b) x s).Along I s := by
  subst hk
  exact regWrite_along hR (raiseReg_mem hb) (storeReg_raiseReg s b x) h h'

theorem lower_along {k : Backend} (hk : s.backend = k) (hR : s.Reaches) {b : Nat} (hb : b < nbanks k)
    (x : Word) (h : I s.ctl) (h' : I (s.ctl.lower b x)) : (regWrite (lowerReg k b) x s).Along I s := by
  subst hk
  exact regWrite_along hR (lowerReg_mem hb) (storeReg_lowerReg s b x) h h'

/-- The level writes of `set_output`, either backend (R92, R93). -/
theorem levels_along {k : Backend} (hk : s.backend = k) (hR : s.Reaches) {b : Nat}
    (hb : b < nbanks s.backend) {mask value : Word}
    (hW : KeptByWrites I s (.setOutput b mask value)) (h : I s.ctl) :
    ((regWrite (raiseReg k b) (s.clip b mask &&& value) s).andThen fun _ s1 =>
      regWrite (lowerReg k b) (s.clip b mask &&& ~~~value) s1).Along I s := by
  have hbk : b < nbanks k := hk ▸ hb
  refine (raise_along hk hR hbk _ h (hW b _ _ hb rfl (.levelsHigh mask value _) h)).andThen
    fun _ t _ hm hi => ?_
  exact lower_along (hm.backend.trans hk) (hm.reaches.mpr hR) hbk _ hi
    (hW b _ _ hb hm.backend (.levelsLow mask value _) hi)

theorem bank_lt_two (hA : s.backend = .A) {b : Nat} (hb : b < nbanks s.backend) : b < 2 := by
  rw [hA] at hb
  exact hb

theorem bank_lt_six (hB : s.backend = .B) {b : Nat} (hb : b < nbanks s.backend) : b < 6 := by
  rw [hB] at hb
  exact hb

theorem ctl_of_backend_B (hB : s.backend = .B) : ∃ c, s.ctl = .b c := by
  cases hc : s.ctl with
  | a c => rw [backend_a hc] at hB; cases hB
  | b c => exact ⟨c, rfl⟩

theorem setOutputA_along (hA : s.backend = .A) (hR : s.Reaches) {b : Nat}
    (hb : b < nbanks s.backend) {mask value : Word}
    (hW : KeptByWrites I s (.setOutput b mask value)) (h : I s.ctl) :
    (setOutputA b (s.clip b mask) value s).Along I s :=
  Access.Along.andThen (levels_along hA hR hb hW h) fun _ t _ hm hi =>
    forPins_along b fselOut (s.clip b mask) (clip_word_lt hA (bank_lt_two hA hb) mask)
      (fun i hsel c hc => hW b _ _ hb (withCtl_a_backend hA c) (.fieldOut mask value c i hsel) hc)
      pinsAscending t (hm.backend.trans hA) (hm.reaches.mpr hR) hi

theorem setOutputB_along (hB : s.backend = .B) (hR : s.Reaches) {b : Nat}
    (hb : b < nbanks s.backend) {mask value : Word}
    (hW : KeptByWrites I s (.setOutput b mask value)) (h : I s.ctl) :
    (setOutputB b (s.clip b mask) value s).Along I s := by
  refine Access.Along.andThen (levels_along hB hR hb hW h) fun _ t _ hm hi => ?_
  obtain ⟨c, hc⟩ := ctl_of_backend_B (hm.backend.trans hB)
  rw [hc] at hi
  exact rmwOe_along b _ hc (hm.reaches.mpr hR) (bank_lt_six hB hb) hi
    (hW b _ _ hb (withCtl_b_backend hB c) (.oeOut mask value c) hi)

theorem setInputA_along (hA : s.backend = .A) (hR : s.Reaches) {b : Nat}
    (hb : b < nbanks s.backend) {mask : Word} (hW : KeptByWrites I s (.setInput b mask)) (h : I s.ctl) :
    (setInputA b (s.clip b mask) s).Along I s :=
  forPins_along b fselIn (s.clip b mask) (clip_word_lt hA (bank_lt_two hA hb) mask)
    (fun i hsel c hc => hW b _ _ hb (withCtl_a_backend hA c) (.fieldIn mask c i hsel) hc)
    pinsAscending s hA hR h

theorem setInputB_along (hB : s.backend = .B) (hR : s.Reaches) {b : Nat}
    (hb : b < nbanks s.backend) {mask : Word} (hW : KeptByWrites I s (.setInput b mask)) (h : I s.ctl) :
    (setInputB b (s.clip b mask) s).Along I s := by
  obtain ⟨c, hc⟩ := ctl_of_backend_B hB
  rw [hc] at h
  exact rmwOe_along b _ hc hR (bank_lt_six hB hb) h
    (hW b _ _ hb (withCtl_b_backend hB c) (.oeIn mask c) h)

theorem readDirections_along (b : Nat) (m : Word) (l : List Nat) :
    ∀ (r : Word) (s : State), I s.ctl → (readDirections b m l r s).Along I s := by
  induction l with
  | nil => intro r s h; exact along_stay rfl h
  | cons i l ih =>
    intro r s h
    rw [readDirections]
    split
    · exact (read_along _ h).andThen fun _ t _ _ hi => ih _ t hi
    · exact ih r s h

theorem getDirectionA_along (b : Nat) (m : Word) (h : I s.ctl) : (getDirectionA b m s).Along I s :=
  readDirections_along b m pinsAscending 0 s h

theorem getDirectionB_along (b : Nat) (m : Word) (h : I s.ctl) : (getDirectionB b m s).Along I s :=
  (read_along _ h).andThen fun _ _ _ _ hi => along_stay rfl hi

theorem getDatainA_along (b : Nat) (m : Word) (h : I s.ctl) : (getDatainA b m s).Along I s :=
  (read_along _ h).andThen fun _ _ _ _ hi => along_stay rfl hi

theorem getDatainB_along (b : Nat) (m : Word) (h : I s.ctl) : (getDatainB b m s).Along I s :=
  (read_along _ h).andThen fun _ _ _ _ h1 => (read_along _ h1).andThen fun _ _ _ _ h2 =>
    (read_along _ h2).andThen fun _ _ _ _ h3 => along_stay rfl h3

/-- The two backend forms of an operation. -/
theorem along_byBackend {α : Type} {x y : Access α} (hA : s.backend = .A → x.Along I s)
    (hB : s.backend = .B → y.Along I s) : (match s.backend with | .A => x | .B => y).Along I s := by
  cases hk : s.backend with
  | A => exact hA hk
  | B => exact hB hk

/-- What every write of a per-bank command keeps holds at every point of its events (R122). -/
theorem exec_perBank_along {t : State} {i : Instr} {bm : Nat × Word} (hi : bankMask i = some bm)
    (hR : s.ctx = .valid → s.Reaches) (h : EndsIn (exec i s) t) (hW : KeptByWrites I s i)
    (h0 : I s.ctl) : CommandAlong I s t := by
  cases i with
  | initializeContext => cases hi
  | finalizeContext => cases hi
  | setOutput b mask value =>
    rw [exec, execSetOutput] at h
    obtain ⟨hctx, hb, h⟩ := withBank_endsIn h
    exact finishWrite_along (along_byBackend
      (fun hA => setOutputA_along hA (hR hctx) hb hW h0)
      (fun hB => setOutputB_along hB (hR hctx) hb hW h0)) h
  | setInput b mask =>
    rw [exec, execSetInput] at h
    obtain ⟨hctx, hb, h⟩ := withBank_endsIn h
    exact finishWrite_along (along_byBackend
      (fun hA => setInputA_along hA (hR hctx) hb hW h0)
      (fun hB => setInputB_along hB (hR hctx) hb hW h0)) h
  | getDirection b mask =>
    rw [exec, execGetDirection] at h
    obtain ⟨-, -, h⟩ := withBank_endsIn h
    exact finishRead_along (along_byBackend (fun _ => getDirectionA_along b _ h0)
      (fun _ => getDirectionB_along b _ h0)) h
  | setDataout b mask =>
    rw [exec, execSetDataout] at h
    obtain ⟨hctx, hb, h⟩ := withBank_endsIn h
    have hhigh := hW b _ _ hb rfl (.dataHigh mask s.ctl) h0
    exact finishWrite_along (along_byBackend
      (fun hA => raise_along hA (hR hctx) (hA ▸ hb) _ h0 hhigh)
      (fun hB => raise_along hB (hR hctx) (hB ▸ hb) _ h0 hhigh)) h
  | clrDataout b mask =>
    rw [exec, execClrDataout] at h
    obtain ⟨hctx, hb, h⟩ := withBank_endsIn h
    have hlow := hW b _ _ hb rfl (.dataLow mask s.ctl) h0
    exact finishWrite_along (along_byBackend
      (fun hA => lower_along hA (hR hctx) (hA ▸ hb) _ h0 hlow)
      (fun hB => lower_along hB (hR hctx) (hB ▸ hb) _ h0 hlow)) h
  | getDatain b mask =>
    rw [exec, execGetDatain] at h
    obtain ⟨-, -, h⟩ := withBank_endsIn h
    exact finishRead_along (along_byBackend (fun _ => getDatainA_along b _ h0)
      (fun _ => getDatainB_along b _ h0)) h

/-- What every write of a command keeps holds at its end, completed or faulting. -/
theorem exec_keeps {t : State} {i : Instr} (hR : s.ctx = .valid → s.Reaches) (h : EndsIn (exec i s) t)
    (hW : KeptByWrites I s i) (h0 : I s.ctl) : I t.ctl := by
  cases hi : bankMask i with
  | none =>
    rcases bankMask_eq_none hi with rfl | rfl
    · obtain ⟨-, rfl⟩ := execInitialize_endsIn h
      exact (openContext_platformFrame s).ctl ▸ h0
    · obtain ⟨-, rfl⟩ := execFinalize_endsIn h
      exact (execFinalize_platformFrame s).ctl ▸ h0
  | some bm => exact (exec_perBank_along hi hR h hW h0).final

end Along

end Sys2Proof.Machine
end

section
/-! SUPPORT. What one register write of a command does to the reserved bits and to the pins, and from it what
the whole command does, completed or faulting (R24, R25, R30, R33, R69, R122). -/

namespace Sys2Proof.Machine

/-! ### Bits set, bits cleared -/

theorem or_getLsbD (old x : Word) (j : Nat) :
    (old ||| x).getLsbD j = if x.getLsbD j = true then true else old.getLsbD j := by
  rw [BitVec.getLsbD_or]
  cases x.getLsbD j <;> simp

theorem andNot_getLsbD (old x : Word) (j : Nat) :
    (old &&& ~~~x).getLsbD j = if x.getLsbD j = true then false else old.getLsbD j := by
  rw [BitVec.getLsbD_and, BitVec.getLsbD_not]
  by_cases hj : j < 32
  · cases x.getLsbD j <;> simp [hj]
  · simp [BitVec.getLsbD_of_ge old j (Nat.le_of_not_lt hj)]

/-- A bit that no valid pin has is not in a clipped mask (R24). -/
theorem clip_getLsbD_false {s : State} {b j : Nat} (mask : Word)
    (hj : (s.validMask b).getLsbD j = false) : (s.clip b mask).getLsbD j = false := by
  simp [State.clip, hj]

/-! ### The reserved bits -/

/-- The reserved bits of `k'` are those of `k`: bits 31:30 of every function-select word, bits 29:12 of
the last, bits 31:22 of the latch of bank 1; in Backend B the bits no valid pin has. -/
def ReservedKept (s : State) : Controller → Controller → Prop
  | .a c, .a d =>
    (∀ w < 6, ∀ j, 30 ≤ j ∨ (w = 5 ∧ 12 ≤ j) → (d.fselWord w).getLsbD j = (c.fselWord w).getLsbD j) ∧
      ∀ j, 22 ≤ j → (d.latchWord 1).getLsbD j = (c.latchWord 1).getLsbD j
  | .b c, .b d =>
    ∀ b < 6, ∀ j, (s.validMask b).getLsbD j = false →
      (d.oeWord b).getLsbD j = (c.oeWord b).getLsbD j ∧
      (d.dataOutWord b).getLsbD j = (c.dataOutWord b).getLsbD j
  | _, _ => False

theorem ReservedKept.refl (s : State) (k : Controller) : ReservedKept s k k := by
  cases k with
  | a c => exact ⟨fun _ _ _ _ => rfl, fun _ _ => rfl⟩
  | b c => exact fun _ _ _ _ => ⟨rfl, rfl⟩

theorem ReservedKept.trans {s : State} {k1 k2 k3 : Controller} (h : ReservedKept s k1 k2)
    (h' : ReservedKept s k2 k3) : ReservedKept s k1 k3 := by
  cases k1 <;> cases k2 <;> cases k3 <;> try contradiction
  case a.a.a =>
    obtain ⟨hf, hl⟩ := h
    obtain ⟨hf', hl'⟩ := h'
    exact ⟨fun w hw j hj => (hf' w hw j hj).trans (hf w hw j hj),
      fun j hj => (hl' j hj).trans (hl j hj)⟩
  case b.b.b =>
    intro b hb j hj
    obtain ⟨ho, hd⟩ := h b hb j hj
    obtain ⟨ho', hd'⟩ := h' b hb j hj
    exact ⟨ho'.trans ho, hd'.trans hd⟩

/-- The latch bits 31:22 of bank 1 belong to no valid pin (R30). -/
theorem validMask_one_high {s : State} (hA : s.backend = .A) {j : Nat} (hj : 22 ≤ j) :
    (s.validMask 1).getLsbD j = false := by
  rw [State.validMask, hA, validMask_A_one, narrowMask_getLsbD]
  exact decide_eq_false (Nat.not_lt.mpr hj)

/-- The pins of Backend A are numbered 0 to 53 (R29). -/
theorem selected_pin_lt {s : State} (hA : s.backend = .A) {b i : Nat} (hb : b < 2) {mask : Word}
    (hi : (s.clip b mask).getLsbD i = true) : 32 * b + i < 54 := by
  have h32 : i < 32 := BitVec.lt_of_getLsbD hi
  obtain rfl | rfl : b = 0 ∨ b = 1 := by omega
  · omega
  · have h22 : i < 22 := Nat.lt_of_not_le fun hge => by
      rw [clip_getLsbD_false mask (validMask_one_high hA hge)] at hi
      cases hi
    omega

section OneWrite

variable {s : State} {b : Nat}

/-- New output bits of a bank that differ from the old ones in valid pins only. -/
theorem reservedKept_withOut (hb : b < nbanks s.backend) {k : Controller}
    (hk : (s.withCtl k).backend = s.backend) {w : Word}
    (hw : ∀ j, (s.validMask b).getLsbD j = false → w.getLsbD j = (k.outWord b).getLsbD j) :
    ReservedKept s k (k.withOut b w) := by
  cases k with
  | a c =>
    refine ⟨fun _ _ _ _ => rfl, fun j hj => ?_⟩
    rw [CtlA.latchWord_setLatch _ _ _ _ (bank_lt_two hk.symm hb)]
    split
    · next h1 => subst h1; exact hw j (validMask_one_high hk.symm hj)
    · rfl
  | b c =>
    refine fun b' _ j hj => ⟨rfl, ?_⟩
    rw [CtlB.dataOutWord_setDataOut _ _ _ _ (bank_lt_six hk.symm hb)]
    split
    · next h1 => subst h1; exact hw j hj
    · rfl

theorem reservedKept_raise (hb : b < nbanks s.backend) {k : Controller}
    (hk : (s.withCtl k).backend = s.backend) {x : Word}
    (hx : ∀ j, (s.validMask b).getLsbD j = false → x.getLsbD j = false) :
    ReservedKept s k (k.raise b x) :=
  reservedKept_withOut hb hk fun j hj => by simp [hx j hj]

theorem reservedKept_lower (hb : b < nbanks s.backend) {k : Controller}
    (hk : (s.withCtl k).backend = s.backend) {x : Word}
    (hx : ∀ j, (s.validMask b).getLsbD j = false → x.getLsbD j = false) :
    ReservedKept s k (k.lower b x) :=
  reservedKept_withOut hb hk fun j hj => by
    simp only [andNot_getLsbD, hx j hj, Bool.false_eq_true, if_false]

/-- The field of a valid pin: the reserved bits of the function-select words are in no such field (R28,
R29). -/
theorem reservedKept_withField (hA : s.backend = .A) (hb : b < 2) {mask : Word} (c : CtlA) {i : Nat}
    (hi : (s.clip b mask).getLsbD i = true) {code : Word}
    (hcode : ∀ n, 3 ≤ n → code.getLsbD n = false) :
    ReservedKept s (.a c) (.a (c.withField b i code)) := by
  have hpin : 32 * b + i < 54 := selected_pin_lt hA hb hi
  have hword : (pinPlace b i).word = (32 * b + i) / 10 := rfl
  have hshift : (pinPlace b i).shift = (32 * b + i) % 10 * 3 := rfl
  refine ⟨fun w _ j hj => ?_, fun _ _ => rfl⟩
  rw [CtlA.withField, CtlA.fselWord_setFsel _ _ _ _ (by omega)]
  split
  · next hw =>
    subst hw
    by_cases h32 : j < 32
    · rw [setField_getLsbD _ _ _ _ hcode h32, if_neg (by omega)]
    · rw [BitVec.getLsbD_of_ge _ j (by omega), BitVec.getLsbD_of_ge _ j (by omega)]
  · rfl

/-- An output-enable word that differs from the old one in valid pins only. -/
theorem reservedKept_setOe (hb : b < 6) (c : CtlB) {w : Word}
    (hw : ∀ j, (s.validMask b).getLsbD j = false → w.getLsbD j = (c.oeWord b).getLsbD j) :
    ReservedKept s (.b c) (.b (c.setOe b w)) := by
  refine fun b' _ j hj => ⟨?_, rfl⟩
  rw [CtlB.oeWord_setOe _ _ _ _ hb]
  split
  · next h1 => subst h1; exact hw j hj
  · rfl

theorem CommandWrite.reservedKept {i : Instr} {k k' : Controller} (hb : b < nbanks s.backend)
    (hk : (s.withCtl k).backend = s.backend) (hw : CommandWrite s b i k k') : ReservedKept s k k' := by
  cases hw with
  | levelsHigh mask value =>
    exact reservedKept_raise hb hk fun j hj => by simp [clip_getLsbD_false mask hj]
  | levelsLow mask value =>
    exact reservedKept_lower hb hk fun j hj => by simp [clip_getLsbD_false mask hj]
  | dataHigh mask => exact reservedKept_raise hb hk fun j hj => clip_getLsbD_false mask hj
  | dataLow mask => exact reservedKept_lower hb hk fun j hj => clip_getLsbD_false mask hj
  | fieldOut mask value c p hp =>
    exact reservedKept_withField hk.symm (bank_lt_two hk.symm hb) c hp fselOut_high
  | fieldIn mask c p hp =>
    exact reservedKept_withField hk.symm (bank_lt_two hk.symm hb) c hp fselIn_high
  | oeOut mask value c =>
    exact reservedKept_setOe (bank_lt_six hk.symm hb) c fun j hj => by
      simp [clip_getLsbD_false mask hj]
  | oeIn mask c =>
    exact reservedKept_setOe (bank_lt_six hk.symm hb) c fun j hj => by
      simp only [andNot_getLsbD, clip_getLsbD_false mask hj, Bool.false_eq_true, if_false]

/-! ### The pins -/

/-- The output bits after those of bank `b` were replaced. -/
theorem out_withOut (hb : b < nbanks s.backend) {k : Controller}
    (hk : (s.withCtl k).backend = s.backend) (w : Word) (b' p : Nat) :
    (s.withCtl (k.withOut b w)).out b' p
      = if b' = b then w.getLsbD p else (s.withCtl k).out b' p := by
  cases k with
  | a c =>
    rw [out_of_a rfl, out_of_a rfl, CtlA.latchWord_setLatch _ _ _ _ (bank_lt_two hk.symm hb),
      apply_ite (BitVec.getLsbD · p)]
  | b c =>
    rw [out_of_b rfl, out_of_b rfl, CtlB.dataOutWord_setDataOut _ _ _ _ (bank_lt_six hk.symm hb),
      apply_ite (BitVec.getLsbD · p)]

theorem out_eq_outWord (k : Controller) (b p : Nat) :
    (s.withCtl k).out b p = (k.outWord b).getLsbD p := by
  cases k <;> rfl

theorem out_raise (hb : b < nbanks s.backend) {k : Controller} (hk : (s.withCtl k).backend = s.backend)
    (x : Word) (b' p : Nat) :
    (s.withCtl (k.raise b x)).out b' p
      = if b' = b ∧ x.getLsbD p = true then true else (s.withCtl k).out b' p := by
  rw [Controller.raise, out_withOut hb hk, or_getLsbD, ← out_eq_outWord (s := s)]
  by_cases h : b' = b <;> simp [h]

theorem out_lower (hb : b < nbanks s.backend) {k : Controller} (hk : (s.withCtl k).backend = s.backend)
    (x : Word) (b' p : Nat) :
    (s.withCtl (k.lower b x)).out b' p
      = if b' = b ∧ x.getLsbD p = true then false else (s.withCtl k).out b' p := by
  rw [Controller.lower, out_withOut hb hk, andNot_getLsbD, ← out_eq_outWord (s := s)]
  by_cases h : b' = b <;> simp [h]

/-- The direction of a pin is as it was, by its encoding and by its meaning (R25). -/
def DirKept (s : State) (k k' : Controller) (b p : Nat) : Prop :=
  (s.withCtl k').dirCode b p = (s.withCtl k).dirCode b p ∧
    (s.withCtl k').dir b p = (s.withCtl k).dir b p

/-- No output bit decides a direction (R25). -/
theorem dir_withOut (k : Controller) (w : Word) (b' p : Nat) :
    DirKept s k (k.withOut b w) b' p := by
  cases k <;> exact ⟨rfl, rfl⟩

/-- The field of a pin there is, after one read-modify-write: no two pins share a field (R29, R69). -/
theorem fieldOf_withField (hA : s.backend = .A) (hb : b < 2) {mask : Word} (c : CtlA) {i : Nat}
    (hi : (s.clip b mask).getLsbD i = true) {code : Word}
    (hcode : ∀ n, 3 ≤ n → code.getLsbD n = false) {b' p : Nat} (hp : s.hasPin b' p = true) :
    (c.withField b i code).fieldOf b' p = if b' = b ∧ p = i then code else c.fieldOf b' p := by
  have hi32 : i < 32 := BitVec.lt_of_getLsbD hi
  have hp32 : p < 32 := BitVec.lt_of_getLsbD (Bool.and_eq_true_iff.mp hp).2
  rw [CtlA.withField, fieldOf_setFsel_setField c b i b' p code (clip_word_lt hA hb mask i hi) hcode]
  by_cases h : b' = b ∧ p = i
  · rw [if_pos h, if_pos (by omega)]
  · rw [if_neg h, if_neg (by omega)]

theorem oeWord_setOe_getLsbD (hb : b < 6) (c : CtlB) (w : Word) (b' p : Nat) :
    ((c.setOe b w).oeWord b').getLsbD p = if b' = b then w.getLsbD p else (c.oeWord b').getLsbD p := by
  rw [CtlB.oeWord_setOe _ _ _ _ hb, apply_ite (BitVec.getLsbD · p)]

theorem dirKept_of_fieldOf {c d : CtlA} {b' p : Nat} (h : d.fieldOf b' p = c.fieldOf b' p) :
    DirKept s (.a c) (.a d) b' p :=
  ⟨h, by rw [dir_of_a rfl, dir_of_a rfl, h]⟩

theorem dirKept_of_oe {c d : CtlB} {b' p : Nat}
    (h : (d.oeWord b').getLsbD p = (c.oeWord b').getLsbD p) : DirKept s (.b c) (.b d) b' p :=
  ⟨by rw [dirCode_of_b rfl, dirCode_of_b rfl, h], by rw [dir_of_b rfl, dir_of_b rfl, h]⟩

/-- One read-modify-write of a field keeps the direction of every other pin (R69). -/
theorem dir_withField (hA : s.backend = .A) (hb : b < 2) {mask : Word} (c : CtlA) {i : Nat}
    (hi : (s.clip b mask).getLsbD i = true) {code : Word}
    (hcode : ∀ n, 3 ≤ n → code.getLsbD n = false) {b' p : Nat} (hp : s.hasPin b' p = true) :
    DirKept s (.a c) (.a (c.withField b i code)) b' p ∨
      b' = b ∧ p = i ∧ (c.withField b i code).fieldOf b' p = code := by
  have hfield := fieldOf_withField hA hb c hi hcode hp
  by_cases h : b' = b ∧ p = i
  · rw [if_pos h] at hfield
    exact .inr ⟨h.1, h.2, hfield⟩
  · rw [if_neg h] at hfield
    exact .inl (dirKept_of_fieldOf hfield)

/-- A new output-enable word keeps the direction of every pin outside `m`, if it differs from the old
one in `m` only (R69). -/
theorem dir_setOe (hb : b < 6) (c : CtlB) {w m : Word} {v : Bool}
    (hw : ∀ j, w.getLsbD j = if m.getLsbD j = true then v else (c.oeWord b).getLsbD j) (b' p : Nat) :
    DirKept s (.b c) (.b (c.setOe b w)) b' p ∨
      b' = b ∧ m.getLsbD p = true ∧ ((c.setOe b w).oeWord b').getLsbD p = v := by
  have hoe := oeWord_setOe_getLsbD hb c w b' p
  by_cases h : b' = b
  · subst h
    rw [if_pos rfl, hw] at hoe
    by_cases hm : m.getLsbD p = true
    · rw [if_pos hm] at hoe
      exact .inr ⟨rfl, hm, hoe⟩
    · rw [if_neg hm] at hoe
      exact .inl (dirKept_of_oe hoe)
  · rw [if_neg h] at hoe
    exact .inl (dirKept_of_oe hoe)

/-! ### What a command commands -/

/-- Command `i` sets the output bit of pin `p` of bank `b` to `v` (R91, R105, R108). -/
def OutCommanded (s : State) (i : Instr) (b p : Nat) (v : Bool) : Prop :=
  ∃ mask, (s.clip b mask).getLsbD p = true ∧
    ((∃ value, i = .setOutput b mask value ∧ v = value.getLsbD p) ∨
      (i = .setDataout b mask ∧ v = true) ∨ (i = .clrDataout b mask ∧ v = false))

/-- Command `i` sets the direction of pin `p` of bank `b` to `d` (R91, R94). -/
def DirCommanded (s : State) (i : Instr) (b p : Nat) (d : Dir) : Prop :=
  ∃ mask, (s.clip b mask).getLsbD p = true ∧
    ((∃ value, i = .setOutput b mask value ∧ d = .output) ∨ (i = .setInput b mask ∧ d = .input))

/-- An output bit set by a write is as the command says, any other is as it was (R25, R69). -/
theorem out_raise_cases (hb : b < nbanks s.backend) {k : Controller}
    (hk : (s.withCtl k).backend = s.backend) (x : Word) (b' p : Nat) :
    (s.withCtl (k.raise b x)).out b' p = (s.withCtl k).out b' p ∨
      b' = b ∧ x.getLsbD p = true ∧ (s.withCtl (k.raise b x)).out b' p = true := by
  rw [out_raise hb hk]
  by_cases h : b' = b ∧ x.getLsbD p = true
  · exact .inr ⟨h.1, h.2, if_pos h⟩
  · exact .inl (if_neg h)

theorem out_lower_cases (hb : b < nbanks s.backend) {k : Controller}
    (hk : (s.withCtl k).backend = s.backend) (x : Word) (b' p : Nat) :
    (s.withCtl (k.lower b x)).out b' p = (s.withCtl k).out b' p ∨
      b' = b ∧ x.getLsbD p = true ∧ (s.withCtl (k.lower b x)).out b' p = false := by
  rw [out_lower hb hk]
  by_cases h : b' = b ∧ x.getLsbD p = true
  · exact .inr ⟨h.1, h.2, if_pos h⟩
  · exact .inl (if_neg h)

/-- What one write does to an output bit. -/
theorem CommandWrite.out {i : Instr} {k k' : Controller} (hb : b < nbanks s.backend)
    (hk : (s.withCtl k).backend = s.backend) (hw : CommandWrite s b i k k') (b' p : Nat) :
    (s.withCtl k').out b' p = (s.withCtl k).out b' p ∨
      OutCommanded s i b' p ((s.withCtl k').out b' p) := by
  cases hw with
  | levelsHigh mask value =>
    refine (out_raise_cases hb hk _ b' p).imp_right fun ⟨hb', hx, hv⟩ => ?_
    rw [BitVec.getLsbD_and, Bool.and_eq_true] at hx
    subst hb'
    exact ⟨mask, hx.1, .inl ⟨value, rfl, hv.trans hx.2.symm⟩⟩
  | levelsLow mask value =>
    refine (out_lower_cases hb hk _ b' p).imp_right fun ⟨hb', hx, hv⟩ => ?_
    simp only [BitVec.getLsbD_and, BitVec.getLsbD_not, Bool.and_eq_true, Bool.not_eq_true'] at hx
    subst hb'
    exact ⟨mask, hx.1, .inl ⟨value, rfl, hv.trans hx.2.2.symm⟩⟩
  | dataHigh mask =>
    refine (out_raise_cases hb hk _ b' p).imp_right fun ⟨hb', hx, hv⟩ => ?_
    subst hb'
    exact ⟨mask, hx, .inr (.inl ⟨rfl, hv⟩)⟩
  | dataLow mask =>
    refine (out_lower_cases hb hk _ b' p).imp_right fun ⟨hb', hx, hv⟩ => ?_
    subst hb'
    exact ⟨mask, hx, .inr (.inr ⟨rfl, hv⟩)⟩
  | fieldOut => exact .inl rfl
  | fieldIn => exact .inl rfl
  | oeOut => exact .inl rfl
  | oeIn => exact .inl rfl

/-- What one write does to a direction. -/
theorem CommandWrite.dir {i : Instr} {k k' : Controller} (hb : b < nbanks s.backend)
    (hk : (s.withCtl k).backend = s.backend) (hw : CommandWrite s b i k k') {b' p : Nat}
    (hp : s.hasPin b' p = true) :
    DirKept s k k' b' p ∨ DirCommanded s i b' p ((s.withCtl k').dir b' p) := by
  cases hw with
  | levelsHigh => exact .inl (dir_withOut k _ b' p)
  | levelsLow => exact .inl (dir_withOut k _ b' p)
  | dataHigh => exact .inl (dir_withOut k _ b' p)
  | dataLow => exact .inl (dir_withOut k _ b' p)
  | fieldOut mask value c n hn =>
    refine (dir_withField hk.symm (bank_lt_two hk.symm hb) c hn fselOut_high hp).imp_right
      fun ⟨hb', hpn, hf⟩ => ?_
    subst hb' hpn
    exact ⟨mask, hn, .inl ⟨value, rfl, by rw [dir_of_a rfl, hf, if_pos rfl]⟩⟩
  | fieldIn mask c n hn =>
    refine (dir_withField hk.symm (bank_lt_two hk.symm hb) c hn fselIn_high hp).imp_right
      fun ⟨hb', hpn, hf⟩ => ?_
    subst hb' hpn
    exact ⟨mask, hn, .inr ⟨rfl, by rw [dir_of_a rfl, hf, if_neg fselOut_ne_fselIn.symm, if_pos rfl]⟩⟩
  | oeOut mask value c =>
    refine (dir_setOe (bank_lt_six hk.symm hb) c (fun j => or_getLsbD _ _ j) b' p).imp_right
      fun ⟨hb', hm, hv⟩ => ?_
    subst hb'
    exact ⟨mask, hm, .inl ⟨value, rfl, by rw [dir_of_b rfl, hv, if_pos rfl]⟩⟩
  | oeIn mask c =>
    refine (dir_setOe (bank_lt_six hk.symm hb) c (fun j => andNot_getLsbD _ _ j) b' p).imp_right
      fun ⟨hb', hm, hv⟩ => ?_
    subst hb'
    exact ⟨mask, hm, .inr ⟨rfl, by rw [dir_of_b rfl, hv]; rfl⟩⟩

end OneWrite

/-! ### What a whole command does -/

/-- In controller `k` the output bits and directions of all pins are those of `s` or as command `i`
says. -/
def AsCommanded (s : State) (i : Instr) (k : Controller) : Prop :=
  ∀ b p, s.hasPin b p = true →
    ((s.withCtl k).out b p = s.out b p ∨ OutCommanded s i b p ((s.withCtl k).out b p)) ∧
    ((s.withCtl k).dirCode b p = s.dirCode b p ∨ DirCommanded s i b p ((s.withCtl k).dir b p))

theorem asCommanded_self (s : State) (i : Instr) : AsCommanded s i s.ctl :=
  fun _ _ _ => ⟨.inl rfl, .inl rfl⟩

theorem asCommanded_keptByWrites (s : State) (i : Instr) : KeptByWrites (AsCommanded s i) s i := by
  intro b k k' hb hk hw h b' p hp
  obtain ⟨hout, hdir⟩ := h b' p hp
  constructor
  · rcases hw.out hb hk b' p with hsame | hcmd
    · rw [hsame]
      exact hout
    · exact .inr hcmd
  · rcases hw.dir hb hk hp with ⟨hcode, hsame⟩ | hcmd
    · rw [hcode, hsame]
      exact hdir
    · exact .inr hcmd

theorem reservedKept_keptByWrites (s : State) (i : Instr) :
    KeptByWrites (ReservedKept s s.ctl) s i :=
  fun _ _ _ hb hk hw h => h.trans (hw.reservedKept hb hk)

theorem exec_reservedKept {s t : State} {i : Instr} (hR : s.ctx = .valid → s.Reaches)
    (h : EndsIn (exec i s) t) : ReservedKept s s.ctl t.ctl :=
  exec_keeps hR h (reservedKept_keptByWrites s i) (.refl s s.ctl)

theorem step_reservedKept {s t : State} (hR : s.ctx = .valid → s.Reaches) (h : EndsIn (step s) t) :
    ReservedKept s s.ctl t.ctl := by
  rcases step_endsIn h with ⟨-, rfl⟩ | ⟨w, rest, -, ⟨i, -, hx⟩ | ⟨op, -, rfl⟩⟩
  · exact .refl t t.ctl
  · exact exec_reservedKept (s := { s with cmds := rest }) hR hx
  · exact .refl s s.ctl

/-! ### The obligations -/

/-- Settles O20: every write of a command changes bits of valid pins only, and the reserved bits are in the
field of none. -/
theorem reservedBitsNeverChange : Obligations.ReservedBitsNeverChange := by
  intro s t hR h
  have hkept := step_reservedKept hR h
  cases hs : s.ctl <;> cases ht : t.ctl <;> rw [hs, ht] at hkept <;> exact hkept

/-- Settles O45: every write of a command leaves each pin as it was or makes it as the command says, so
the same holds wherever the command ends. -/
theorem onlySelectedPinsChange : Obligations.OnlySelectedPinsChange := by
  intro s t i hR h b p hp
  obtain ⟨hout, hdir⟩ := exec_keeps hR h (asCommanded_keptByWrites s i) (asCommanded_self s i) b p hp
  exact ⟨fun hne => hout.resolve_left hne, fun hne => hdir.resolve_left hne⟩

end Sys2Proof.Machine
end

section
/-! SUPPORT. Masks clipped (R24), and the exact next state of `set_input`, `set_dataout` and `get_datain` on a
bus that completes their accesses (R94, R105, R111). -/

namespace Sys2Proof.Machine

/-! ### Only the clipped mask is used -/

theorem exec_setOutput_clipped (s : State) (b : Nat) (mask value : Word) :
    exec (.setOutput b mask value) s = exec (.setOutput b (mask &&& s.validMask b) value) s := by
  simp only [exec, execSetOutput, withBank, State.clip_clip]

theorem exec_setInput_clipped (s : State) (b : Nat) (mask : Word) :
    exec (.setInput b mask) s = exec (.setInput b (mask &&& s.validMask b)) s := by
  simp only [exec, execSetInput, withBank, State.clip_clip]

theorem exec_getDirection_clipped (s : State) (b : Nat) (mask : Word) :
    exec (.getDirection b mask) s = exec (.getDirection b (mask &&& s.validMask b)) s := by
  simp only [exec, execGetDirection, withBank, State.clip_clip]

theorem exec_setDataout_clipped (s : State) (b : Nat) (mask : Word) :
    exec (.setDataout b mask) s = exec (.setDataout b (mask &&& s.validMask b)) s := by
  simp only [exec, execSetDataout, withBank, State.clip_clip]

theorem exec_clrDataout_clipped (s : State) (b : Nat) (mask : Word) :
    exec (.clrDataout b mask) s = exec (.clrDataout b (mask &&& s.validMask b)) s := by
  simp only [exec, execClrDataout, withBank, State.clip_clip]

theorem exec_getDatain_clipped (s : State) (b : Nat) (mask : Word) :
    exec (.getDatain b mask) s = exec (.getDatain b (mask &&& s.validMask b)) s := by
  simp only [exec, execGetDatain, withBank, State.clip_clip]

theorem and_value_clipped (m value : Word) : m &&& (value &&& m) = m &&& value := by
  rw [BitVec.and_comm value m, ← BitVec.and_assoc, BitVec.and_self]

theorem and_not_value_clipped (m value : Word) : m &&& ~~~(value &&& m) = m &&& ~~~value := by
  apply word_ext
  intro j hj
  simp only [BitVec.getLsbD_and, BitVec.getLsbD_not, hj, decide_true, Bool.true_and]
  cases m.getLsbD j <;> simp

/-- The level writes of `set_output` use `value` within the mask only (R92, R93). -/
theorem exec_setOutput_value_clipped (s : State) (b : Nat) (mask value : Word) :
    exec (.setOutput b mask value) s = exec (.setOutput b mask (value &&& s.clip b mask)) s := by
  simp only [exec, execSetOutput, withBank, setOutputA, setOutputB, setLevelsA, setLevelsB,
    and_value_clipped, and_not_value_clipped]

theorem validMask_cases (s : State) (b : Nat) :
    s.validMask b = fullMask ∨ s.validMask b = narrowMask := by
  rw [State.validMask]
  cases s.backend with
  | A =>
    by_cases h : b = 1
    · exact .inr (if_pos h)
    · exact .inl (if_neg h)
  | B =>
    by_cases h : s.cfg.narrowB.getD b false = true
    · exact .inr (if_pos h)
    · exact .inl (if_neg h)

theorem and_fullMask (m : Word) : m &&& fullMask = m := by
  apply word_ext
  intro j hj
  simp [fullMask_getLsbD, hj]

/-! ### Exact ends of commands -/

section Done

variable {s : State} {b : Nat} {mask : Word}

theorem exec_setInput_done_A {c : CtlA} (hc : s.ctl = .a c) (hr : s.Ready b)
    (hbus : s.BusCompletes (2 * (selectedPins (s.clip b mask)).length)) :
    exec (.setInput b mask) s = .next (s.afterWriteCommand
      (.a (c.withDirections b fselIn (s.clip b mask))) (s.directionEvents c b fselIn (s.clip b mask))) := by
  have hA := backend_a hc
  have ⟨_, hb, hR⟩ := hr
  rw [exec, execSetInput, withBank_ready hr]
  simp only [hA]
  rw [setInputA, directionLoop_done b fselIn _ hc hR (clip_word_lt hA (bank_lt_two hA hb) mask)
    fselIn_high hbus, finishWrite_done]

theorem exec_setInput_done_B {c : CtlB} (hc : s.ctl = .b c) (hr : s.Ready b) (hbus : s.BusCompletes 2) :
    exec (.setInput b mask) s = .next (s.afterWriteCommand
      (.b (c.setOe b (c.oeWord b &&& ~~~(s.clip b mask))))
      [s.readEvent (.oe b) (c.oeWord b), s.writeEvent (.oe b) (c.oeWord b &&& ~~~(s.clip b mask))]) := by
  have hB := backend_b hc
  have ⟨_, hb, hR⟩ := hr
  rw [exec, execSetInput, withBank_ready hr]
  simp only [hB]
  rw [setInputB, rmwOe_done b _ hc hR (bank_lt_six hB hb) hbus, finishWrite_done]

/-- One write, of the set register, either backend (R106, R107). -/
theorem exec_setDataout_done (hr : s.Ready b) (hbus : s.BusCompletes 1) :
    exec (.setDataout b mask) s = .next (s.afterWriteCommand (s.ctl.raise b (s.clip b mask))
      [s.writeEvent (raiseReg s.backend b) (s.clip b mask)]) := by
  have ⟨_, hb, hR⟩ := hr
  have hwrite := regWrite_done hR (raiseReg_mem hb) (storeReg_raiseReg s b (s.clip b mask)) hbus
  rw [exec, execSetDataout, withBank_ready hr, ← finishWrite_done, ← hwrite]
  cases s.backend <;> rfl

theorem exec_getDatain_done_A {c : CtlA} (hc : s.ctl = .a c) (hr : s.Ready b) (hbus : s.BusCompletes 1) :
    let level := levelWord c (s.validMask b) b (s.sampleAfter 0) (Config.freeBits s.moment)
    exec (.getDatain b mask) s = .next (s.afterReadCommand [s.readEvent (.lev b) level] 1
      (level &&& s.clip b mask)) := by
  intro level
  have hA := backend_a hc
  have ⟨_, hb, hR⟩ := hr
  have hread := regRead_done (r := .lev b) (v := level) hR
    (by rw [hA]; exact lev_mem (bank_lt_two hA hb)) (by rw [State.regValue, hc]; rfl) hbus
  rw [exec, execGetDatain, withBank_ready hr]
  simp only [hA]
  rw [getDatainA, hread, Access.andThen_done]
  exact finishRead_done 1 s.pinIn.tail (by simp)

theorem exec_getDatain_done_B {c : CtlB} (hc : s.ctl = .b c) (hr : s.Ready b) (hbus : s.BusCompletes 3) :
    let di := dataInWord c (s.validMask b) b (s.sampleAfter 1) (Config.freeBits (s.moment + 1))
    exec (.getDatain b mask) s = .next (s.afterReadCommand
      [s.readEvent (.oe b) (c.oeWord b), s.readEvent (.dataIn b) di,
        s.readEvent (.dataOut b) (c.dataOutWord b)] 1
      (reconstruct (c.oeWord b) di (c.dataOutWord b) &&& s.clip b mask)) := by
  intro di
  have hB := backend_b hc
  have ⟨_, hb, hR⟩ := hr
  have hb6 : b < 6 := bank_lt_six hB hb
  have hreadOe := regRead_done (r := .oe b) (v := c.oeWord b) hR
    (by rw [hB]; exact oe_mem hb6) (by rw [State.regValue, hc]) (BusCompletes_mono hbus (by omega))
  let s1 := s.afterEvents [s.readEvent (.oe b) (c.oeWord b)]
  have hbus1 : s1.BusCompletes 2 := busCompletes_afterEvents s _ 2 hbus
  have hreadIn : regRead (.dataIn b) s1 = .done di _ := regRead_done (s := s1) (r := .dataIn b) hR
    (by exact hB ▸ dataIn_mem hb6) (by rw [State.regValue, show s1.ctl = _ from hc]; rfl)
    (BusCompletes_mono hbus1 (by omega))
  let s2 := (s1.afterRead (.dataIn b)).afterEvents [s1.readEvent (.dataIn b) di]
  have hbus2 : s2.BusCompletes 1 := busCompletes_afterEvents (s1.afterRead (.dataIn b)) _ 1 hbus1
  have hreadOut : regRead (.dataOut b) s2 = .done (c.dataOutWord b) _ :=
    regRead_done (s := s2) (r := .dataOut b) hR (by exact hB ▸ dataOut_mem hb6)
      (by rw [State.regValue, show s2.ctl = _ from hc]) hbus2
  rw [exec, execGetDatain, withBank_ready hr]
  simp only [hB]
  rw [getDatainB, hreadOe, Access.andThen_done]
  show finishRead ((regRead (.dataIn b) s1).andThen _) = _
  rw [hreadIn, Access.andThen_done]
  show finishRead ((regRead (.dataOut b) s2).andThen _) = _
  rw [hreadOut, Access.andThen_done]
  show finishRead (.done _ (((({ s with pinIn := s.pinIn.tail } : State).afterEvents
    [s.readEvent (.oe b) (c.oeWord b)]).afterEvents [s.readEvent (.dataIn b) di]).afterEvents
      [s.readEvent (.dataOut b) (c.dataOutWord b)])) = _
  rw [afterEvents_append, afterEvents_append]
  exact finishRead_done 1 s.pinIn.tail (by simp)

/-! ### The bits `get_datain` answers -/

/-- A level bit of a valid pin: the latch of an output, the sample of an input (R58). -/
theorem levelWord_getLsbD (c : CtlA) {valid : Word} (pins free : Word) {i : Nat}
    (hi : valid.getLsbD i = true) :
    (c.fieldOf b i = fselOut →
      (levelWord c valid b pins free).getLsbD i = (c.latchWord b).getLsbD i) ∧
    (c.fieldOf b i = fselIn → (levelWord c valid b pins free).getLsbD i = pins.getLsbD i) := by
  have h32 : i < 32 := BitVec.lt_of_getLsbD hi
  constructor
  · intro hf
    rw [levelWord, wordOfBits_getLsbD, if_pos hi, if_pos hf, decide_eq_true h32, Bool.true_and]
  · intro hf
    rw [levelWord, wordOfBits_getLsbD, if_pos hi, hf, if_neg fselOut_ne_fselIn.symm, if_pos rfl,
      decide_eq_true h32, Bool.true_and]

/-- A reconstructed bit of a valid pin: data-out of an output, the sample of an input; the bits of
data-in that the spec leaves open do not reach it (R64, R113). -/
theorem reconstruct_getLsbD (c : CtlB) {valid : Word} (pins free : Word) {i : Nat}
    (hi : valid.getLsbD i = true) :
    (reconstruct (c.oeWord b) (dataInWord c valid b pins free) (c.dataOutWord b)).getLsbD i
      = if (c.oeWord b).getLsbD i = true then (c.dataOutWord b).getLsbD i else pins.getLsbD i := by
  have h32 : i < 32 := BitVec.lt_of_getLsbD hi
  simp only [reconstruct, dataInWord, BitVec.getLsbD_and, BitVec.getLsbD_or, BitVec.getLsbD_not, hi, h32,
    decide_true, Bool.true_and]
  cases (c.oeWord b).getLsbD i <;> simp

theorem dir_output_iff_a {c : CtlA} (hc : s.ctl = .a c) (i : Nat) :
    s.dir b i = .output ↔ c.fieldOf b i = fselOut := by
  rw [dir_of_a hc]
  split
  · next h => simp [h]
  · next h => split <;> simp [h]

theorem dir_input_iff_a {c : CtlA} (hc : s.ctl = .a c) (i : Nat) :
    s.dir b i = .input ↔ c.fieldOf b i = fselIn := by
  rw [dir_of_a hc]
  split
  · next h => simp [h, fselOut_ne_fselIn]
  · next h => split <;> simp_all

theorem dir_output_iff_b {c : CtlB} (hc : s.ctl = .b c) (i : Nat) :
    s.dir b i = .output ↔ (c.oeWord b).getLsbD i = true := by
  rw [dir_of_b hc]
  cases (c.oeWord b).getLsbD i <;> simp

theorem dir_input_iff_b {c : CtlB} (hc : s.ctl = .b c) (i : Nat) :
    s.dir b i = .input ↔ (c.oeWord b).getLsbD i = false := by
  rw [dir_of_b hc]
  cases (c.oeWord b).getLsbD i <;> simp

/-- The word `r` answers `get_datain` for the pins `m` of bank `b`, the external levels being
`sample` (R111). -/
def DatainAnswer (s : State) (b : Nat) (m sample r : Word) : Prop :=
  ∀ i, (m.getLsbD i = false → r.getLsbD i = false) ∧
    (m.getLsbD i = true →
      (s.dir b i = .output → r.getLsbD i = s.out b i) ∧
      (s.dir b i = .input → r.getLsbD i = sample.getLsbD i))

theorem datainAnswer_A {c : CtlA} (hc : s.ctl = .a c) (sample free : Word) :
    DatainAnswer s b (s.clip b mask) sample
      (levelWord c (s.validMask b) b sample free &&& s.clip b mask) := by
  intro i
  refine ⟨fun hm => by rw [BitVec.getLsbD_and, hm, Bool.and_false], fun hm => ?_⟩
  have hvalid : (s.validMask b).getLsbD i = true := by
    simp only [State.clip, BitVec.getLsbD_and, Bool.and_eq_true] at hm
    exact hm.2
  obtain ⟨hout, hin⟩ := levelWord_getLsbD (b := b) c sample free hvalid
  rw [BitVec.getLsbD_and, hm, Bool.and_true, dir_output_iff_a hc, dir_input_iff_a hc, out_of_a hc]
  exact ⟨hout, hin⟩

theorem datainAnswer_B {c : CtlB} (hc : s.ctl = .b c) (sample free : Word) :
    DatainAnswer s b (s.clip b mask) sample
      (reconstruct (c.oeWord b) (dataInWord c (s.validMask b) b sample free) (c.dataOutWord b)
        &&& s.clip b mask) := by
  intro i
  refine ⟨fun hm => by rw [BitVec.getLsbD_and, hm, Bool.and_false], fun hm => ?_⟩
  have hvalid : (s.validMask b).getLsbD i = true := by
    simp only [State.clip, BitVec.getLsbD_and, Bool.and_eq_true] at hm
    exact hm.2
  rw [BitVec.getLsbD_and, hm, Bool.and_true, dir_output_iff_b hc, dir_input_iff_b hc, out_of_b hc,
    reconstruct_getLsbD c sample free hvalid]
  exact ⟨fun h => if_pos h, fun h => if_neg (by simp [h])⟩

/-- How many accesses `get_datain` makes before the one that samples the pins (R112, R113). -/
def accessesBeforeSample : Backend → Nat
  | .A => 0
  | .B => 1

/-- `get_datain` on a ready bank, either backend: the answer, and nothing else changed but the sample
taken and the ports (R111). -/
theorem exec_getDatain_answers (hr : s.Ready b)
    (hbus : s.BusCompletes (accessCount s (.getDatain b mask))) :
    ∃ evs r, exec (.getDatain b mask) s = .next (s.afterReadCommand evs 1 r) ∧
      DatainAnswer s b (s.clip b mask) (s.sampleAfter (accessesBeforeSample s.backend)) r := by
  cases hc : s.ctl with
  | a c =>
    rw [accessCount, backend_a hc] at hbus
    rw [backend_a hc]
    exact ⟨_, _, exec_getDatain_done_A hc hr hbus, datainAnswer_A hc _ _⟩
  | b c =>
    rw [accessCount, backend_b hc] at hbus
    rw [backend_b hc]
    exact ⟨_, _, exec_getDatain_done_B hc hr hbus, datainAnswer_B hc _ _⟩

/-! ### A pin made an input -/

/-- `set_input` on a ready bank, either backend: no output bit changes, and every selected pin is an
input (R94). -/
theorem exec_setInput_inputs (hr : s.Ready b)
    (hbus : s.BusCompletes (accessCount s (.setInput b mask))) :
    ∃ ctl evs, exec (.setInput b mask) s = .next (s.afterWriteCommand ctl evs) ∧
      (s.withCtl ctl).backend = s.backend ∧ (∀ b' p, (s.withCtl ctl).out b' p = s.out b' p) ∧
      ∀ i, (s.clip b mask).getLsbD i = true → (s.withCtl ctl).dir b i = .input := by
  cases hc : s.ctl with
  | a c =>
    have hA := backend_a hc
    rw [accessCount, hA] at hbus
    refine ⟨_, _, exec_setInput_done_A hc hr hbus, withCtl_a_backend hA _, fun b' p => ?_, fun i hi => ?_⟩
    · rw [out_of_a rfl, out_of_a hc, CtlA.latchWord_withDirections]
    · rw [dir_input_iff_a rfl, fieldOf_withDirections_pin hc c mask fselIn fselIn_high b i
        (hasPin_of_clip hr.2.1 hi), if_pos ⟨rfl, hi⟩]
  | b c =>
    have hB := backend_b hc
    rw [accessCount, hB] at hbus
    refine ⟨_, _, exec_setInput_done_B hc hr hbus, withCtl_b_backend hB _, fun b' p => ?_, fun i hi => ?_⟩
    · rw [out_of_b rfl, out_of_b hc, CtlB.dataOutWord_setOe]
    · rw [dir_input_iff_b rfl, oeWord_setOe_getLsbD (bank_lt_six hB hr.2.1), if_pos rfl,
        andNot_getLsbD, if_pos hi]

/-- `set_dataout` on a ready bank, either backend: every selected output bit is 1, and no direction
changes (R105). -/
theorem exec_setDataout_raises (hr : s.Ready b) (hbus : s.BusCompletes 1) :
    ∃ ctl evs, exec (.setDataout b mask) s = .next (s.afterWriteCommand ctl evs) ∧
      (s.withCtl ctl).backend = s.backend ∧
      (∀ i, (s.clip b mask).getLsbD i = true → (s.withCtl ctl).out b i = true) ∧
      ∀ b' p, (s.withCtl ctl).dir b' p = s.dir b' p := by
  refine ⟨_, _, exec_setDataout_done hr hbus, ?_, fun i hi => ?_, fun b' p => ?_⟩
  · rw [State.backend, State.backend]
    cases s.ctl <;> rfl
  · rw [out_raise hr.2.1 rfl, if_pos ⟨rfl, hi⟩]
  · exact (dir_withOut s.ctl _ b' p).2

/-- A sound bus completes any number of accesses. -/
theorem busCompletes_of_sound (h : s.busLife = none) (n : Nat) : s.BusCompletes n := by
  simp [State.BusCompletes, h]

theorem afterWriteCommand_sound (h : s.busLife = none) (ctl : Controller) (evs : List Event) :
    (s.afterWriteCommand ctl evs).busLife = none := by
  simp [State.afterWriteCommand, h]

theorem State.SameContext.backend {t : State} (h : s.SameContext t) : t.backend = s.backend := by
  obtain ⟨-, hback, -⟩ := h
  exact hback

theorem pad_of_input {i : Nat} (h : s.dir b i = .input) : s.pad b i = .z := by
  rw [State.pad, h]

end Done

/-! ### The obligations -/

/-- Settles O44: every operation clips its mask first, and the level writes mask `value`. -/
theorem maskBitsOutsideTheBankNeverMatter : Obligations.MaskBitsOutsideTheBankNeverMatter :=
  fun s bank mask value =>
    ⟨exec_setOutput_clipped s bank mask value, exec_setOutput_value_clipped s bank mask value,
      exec_setInput_clipped s bank mask, exec_getDirection_clipped s bank mask,
      exec_setDataout_clipped s bank mask, exec_clrDataout_clipped s bank mask,
      exec_getDatain_clipped s bank mask, fun _ => BitVec.getLsbD_and,
      fun hfull => (congrArg (mask &&& ·) hfull).trans (and_fullMask mask), validMask_cases s bank⟩

/-- Settles O43: the level register and the reconstruction give the same answer pin by pin. -/
theorem getDatainContract : Obligations.GetDatainContract := by
  intro s bank mask hr hbus
  obtain ⟨evs, r, hexec, hanswer⟩ := exec_getDatain_answers hr hbus
  exact ⟨_, r, hexec, afterReadCommand_response _ _ _ _, hanswer, rfl, rfl,
    afterReadCommand_sameContext _ _ _ _⟩

/-- Settles O52: the output bit kept by `set_input` and set by `set_dataout` is not what an input pin shows
or what `get_datain` answers. -/
theorem staleLevelStaysBehindAnInput : Obligations.StaleLevelStaysBehindAnInput := by
  intro s bank i mask hr hsound hi
  obtain ⟨ctl, evs, ht, hback, hout, hin⟩ :=
    exec_setInput_inputs (mask := mask) hr (busCompletes_of_sound hsound _)
  have hst := afterWriteCommand_sameContext ctl evs hback
  have hsoundT := afterWriteCommand_sound hsound ctl evs
  obtain ⟨ctl', evs', hu, hback', hraised, hdir⟩ :=
    exec_setDataout_raises (mask := mask) (hst.ready hr) (busCompletes_of_sound hsoundT _)
  have htu := afterWriteCommand_sameContext ctl' evs' hback'
  obtain ⟨evs'', r, hv, hanswer⟩ := exec_getDatain_answers (mask := mask) (htu.ready (hst.ready hr))
    (busCompletes_of_sound (afterWriteCommand_sound hsoundT ctl' evs') _)
  have hclip := hst.clip bank mask
  have hinput := (hdir bank i).trans (hin i hi)
  rw [htu.backend, hst.backend, htu.clip, hclip] at hanswer
  exact ⟨_, _, _, r, ht, hu, hv, hout bank i, hraised i (hclip ▸ hi), pad_of_input hinput,
    afterReadCommand_response _ _ _ _, ((hanswer i).2 hi).2 hinput⟩

end Sys2Proof.Machine
end

section
/-! SUPPORT. What the block's own addresses reach: the mapped windows and nothing else (R51), every register
at its address while there is a context, and nothing once it is finalized (R55, R80, R84). -/

namespace Sys2Proof.Machine

/-! ### The mapped windows -/

/-- With no region mapped nothing is reached (R51). -/
theorem translate_unmapped (ws : List Window) {rs : List Region} (h : ∀ r ∈ rs, r = .unmapped)
    (a : Addr) : translate ws rs a = none :=
  translate_outside ws rs a fun _ _ _ _ hr => by cases h _ (List.mem_of_getElem? hr)

/-- A word of a mapped window reaches the same offset of its physical window, the windows being apart,
however many of the regions are mapped (R51). -/
theorem translate_window (ws : List Window) :
    ∀ (hs : List Addr) (r : Nat) (w : Window) (h : Addr) (x : Nat), HandlesApart ws hs →
      ws[r]? = some w → hs[r]? = some h → x + 4 ≤ w.len →
      translate ws (hs.map .mapped) (h + x) = some (w.base + x) := by
  induction ws with
  | nil => intro hs r w h x _ hw; simp at hw
  | cons w0 ws ih =>
    intro hs r w h x hapart hw hh hx
    cases hs with
    | nil => simp at hh
    | cons h0 hs =>
      rw [List.map_cons, translate]
      cases r with
      | zero =>
        simp only [List.getElem?_cons_zero, Option.some.injEq] at hw hh
        subst hw hh
        rw [if_pos ⟨Nat.le_add_right _ _, by rw [Nat.add_assoc]; exact Nat.add_le_add_left hx _⟩,
          Nat.add_sub_cancel_left]
      | succ r =>
        rw [List.getElem?_cons_succ] at hw hh
        have hr : r < hs.length := (List.getElem?_eq_some_iff.mp hh).1
        have hpair := hapart 0 (by simp) (r + 1) (by simpa using hr) (by omega)
        simp only [windowsApart, List.getD_eq_getElem?_getD, List.getElem?_cons_zero,
          List.getElem?_cons_succ, hw, hh, Option.getD_some, Bool.or_eq_true, decide_eq_true_eq] at hpair
        rw [if_neg (by simp only [Addr] at *; omega)]
        refine ih hs r w h x (fun i hi j hj hij => ?_) hw hh hx
        exact hapart (i + 1) (by simpa using hi) (j + 1) (by simpa using hj) (by omega)

/-- An address that reaches no register: an access there does not complete (R51). -/
theorem memRead_of_no_target {s : State} {a : Addr} (h : s.target a = none) :
    memRead a s = .failed s := by
  rw [memRead, h]
  cases s.busTick <;> rfl

@[inherit_doc memRead_of_no_target]
theorem memWrite_of_no_target {s : State} {a : Addr} (h : s.target a = none) (v : Word) :
    memWrite a v s = .failed s := by
  rw [memWrite, h]
  cases s.busTick <;> rfl

theorem target_of_no_window {s : State} {a : Addr} (h : translate s.windows s.regions a = none) :
    s.target a = none := by
  rw [State.target, h, Option.bind_none]

/-! ### Every register at its address -/

theorem backendWf_of_configWf {cfg : Config} (h : configWf cfg = true) (k : Backend) :
    backendWf cfg k = true := by
  simp only [configWf, Bool.and_eq_true] at h
  obtain ⟨⟨⟨hA, hB⟩, -⟩, -⟩ := h
  cases k with
  | A => exact hA
  | B => exact hB

theorem handle_of_handles {s : State} {hs : List Addr} (h : s.regions = hs.map .mapped) (r : Nat) :
    s.handle r = hs.getD r 0 := by
  rw [State.handle, h, List.getElem?_map, List.getD_eq_getElem?_getD]
  cases hs[r]? <;> rfl

/-- With every region mapped the derived bank bases are those of the handles (R21, R83). -/
theorem derivedBases_of_handles {s : State} {hs : List Addr} (h : s.regions = hs.map .mapped) :
    s.derivedBases = s.basesFrom hs := by
  simp only [State.derivedBases, State.basesFrom, handle_of_handles h]

/-- A context that `initialize` opened reaches every register (R55, R80, R83). -/
theorem openContext_reaches {s : State} (hwf : configWf s.cfg = true)
    (hlen : s.regions.length = s.windows.length)
    (hapart : ∀ hs, hs.length = s.windows.length → s.Grants hs → HandlesApart s.windows hs)
    (hv : (openContext s).ctx = .valid) : (openContext s).Reaches := by
  rw [openContext] at hv ⊢
  cases hm : mapFrom 0 s.windows s with
  | allMapped u =>
    obtain ⟨hs, hl, hg⟩ := granted_of_allMapped _ _ _ _ hm
    have hrun : mapFrom 0 s.windows s = _ := mapFrom_granted s.windows hs [] s.regions s hl hlen rfl hg
    rw [hrun] at hm
    cases hm
    exact reaches_of_handles _ hs (backendWf_of_configWf hwf _) hl (hapart hs hl hg) rfl
      (derivedBases_of_handles rfl)
  | failedWith e u =>
    rw [hm] at hv
    cases hv

/-- The accesses of a per-bank command and its response keep the address map and `CTX` (R90). -/
theorem AccessEnd.sameMap {s t : State} {o : Host.Outcome State Fault Refusal}
    (h : AccessEnd s o) (ht : EndsIn o t) : SameMap s t ∧ t.ctx = s.ctx := by
  cases h with
  | wrote hu =>
    rw [endsIn_next.mp ht]
    exact ⟨hu.map.trans ⟨rfl, rfl, rfl, rfl⟩, hu.ctx⟩
  | answered r hu =>
    rw [endsIn_next.mp ht]
    exact ⟨hu.map.trans ⟨rfl, rfl, rfl, rfl⟩, hu.ctx⟩
  | faulted hu =>
    rw [endsIn_busFault.mp ht]
    exact ⟨hu.map, hu.ctx⟩

theorem exec_reaches {i : Instr} {s t : State} (h : EndsIn (exec i s) t)
    (hwf : configWf s.cfg = true) (hlen : s.regions.length = s.windows.length)
    (hR : s.ctx = .valid → s.Reaches)
    (hapart : ∀ hs, hs.length = s.windows.length → s.Grants hs → HandlesApart s.windows hs)
    (hv : t.ctx = .valid) : t.Reaches := by
  cases hi : bankMask i with
  | none =>
    rcases bankMask_eq_none hi with rfl | rfl
    · obtain ⟨-, rfl⟩ := execInitialize_endsIn h
      exact openContext_reaches hwf hlen hapart hv
    · obtain ⟨-, rfl⟩ := execFinalize_endsIn h
      cases hv
  | some bm =>
    obtain ⟨run, hrun, hend⟩ := exec_perBank hi
    rw [hrun] at h
    obtain ⟨hctx, -, h⟩ := withBank_endsIn h
    exact ((hend s).sameMap h).1.reaches.mpr (hR hctx)

/-! ### The obligations -/

/-- Settles O17: accesses keep the address map, and the step that opens a context was granted a handle for
every region. -/
theorem registersStayReachable : Obligations.RegistersStayReachable := by
  intro s t hwf hinv hR hapart h hv
  rcases step_endsIn (.inl h) with ⟨-, rfl⟩ | ⟨w, rest, -, ⟨i, -, hx⟩ | ⟨op, -, rfl⟩⟩
  · exact hR hv
  · exact exec_reaches hx hwf hinv.1 hR hapart hv
  · exact (SameMap.reaches (s := s) ⟨rfl, rfl, rfl, rfl⟩).mpr (hR hv)

/-- Settles O14: the release leaves every region unmapped. -/
theorem finalizeLeavesNothingReachable : Obligations.FinalizeLeavesNothingReachable := by
  intro s t hinv h a
  obtain ⟨-, rfl⟩ := execFinalize_endsIn (.inl h)
  obtain ⟨e, he⟩ := releaseAll_eq hinv.1
  rw [he]
  exact target_of_no_window (translate_unmapped _ (fun _ hr => List.eq_of_mem_replicate hr) a)

/-- Settles O57: the translation finds exactly the windows that hold the word. -/
theorem onlyMappedWindowsAreReached : Obligations.OnlyMappedWindowsAreReached := by
  intro s a
  refine ⟨fun hout => ?_, translate_some s.windows s.regions a, fun hs r w h hreg hapart hw hh x hx => ?_⟩
  · have htranslate := translate_outside s.windows s.regions a hout
    have htarget := target_of_no_window htranslate
    exact ⟨htranslate, htarget, memRead_of_no_target htarget, memWrite_of_no_target htarget⟩
  · rw [hreg]
    exact translate_window s.windows hs r w h x hapart hw hh hx

end Sys2Proof.Machine
end

section
/-! SUPPORT. What a whole step puts on the ports and makes of the controller: events, one response, and the
register writes replayed (R54, R66, R73). -/

namespace Sys2Proof.Machine

/-! ### Events that write no register -/

/-- Requests on the platform port write no register (R43). -/
theorem replay_of_no_access {evs : List Event} (h : ∀ e ∈ evs, e.isAccess = false) (ctl : Controller) :
    replay ctl evs = ctl := by
  induction evs with
  | nil => rfl
  | cons e evs ih =>
    have hrest : replay ctl evs = ctl := ih fun e' he' => h e' (List.mem_cons_of_mem e he')
    have he : replayEvent ctl e = ctl := by
      cases e with
      | read => rfl
      | write a r v => cases h _ List.mem_cons_self
      | map => rfl
      | unmap => rfl
      | respond => rfl
    rw [replay, List.foldl_cons, he]
    exact hrest

/-! ### What passes the ports before the response -/

/-- What a command does before it responds, as the ports show it: its events, none of them a response,
and the controller that the writes among them make. -/
structure PortFrame (s t : State) : Prop where
  cmds : t.cmds = s.cmds
  added : ∃ evs, t.trace = s.trace ++ evs ∧ t.moment = s.moment + evs.length ∧
    t.ctl = replay s.ctl evs ∧ ∀ e ∈ evs, ∀ r, e ≠ .respond r

theorem PortFrame.refl (s : State) : PortFrame s s :=
  ⟨rfl, [], (List.append_nil _).symm, rfl, rfl, by simp⟩

theorem PortFrame.trans {s t u : State} (h : PortFrame s t) (h' : PortFrame t u) : PortFrame s u := by
  obtain ⟨xs, htrace, hmoment, hctl, hxs⟩ := h.added
  obtain ⟨ys, htrace', hmoment', hctl', hys⟩ := h'.added
  refine ⟨h'.cmds.trans h.cmds, xs ++ ys, by rw [htrace', htrace, List.append_assoc], ?_,
    by rw [hctl', hctl, replay_append], fun e he => ?_⟩
  · rw [hmoment', hmoment, List.length_append, Nat.add_assoc]
  · rcases List.mem_append.mp he with he | he
    · exact hxs e he
    · exact hys e he

theorem BusFrame.portFrame {s t : State} (h : BusFrame s t) : PortFrame s t := by
  obtain ⟨evs, htrace, hmoment, hctl, hacc⟩ := h.added
  refine ⟨h.cmds, evs, htrace, hmoment, hctl, fun e he r her => ?_⟩
  have := hacc e he
  rw [her, isAccess_respond] at this
  cases this

/-- Platform requests alone. -/
theorem portFrame_of_requests {s t : State} {evs : List Event} (hcmds : t.cmds = s.cmds)
    (hctl : t.ctl = s.ctl) (htrace : t.trace = s.trace ++ evs)
    (hmoment : t.moment = s.moment + evs.length) (hreq : ∀ e ∈ evs, e.isMap = true ∨ e.isUnmap = true) :
    PortFrame s t := by
  have hacc : ∀ e ∈ evs, e.isAccess = false := fun e he =>
    (hreq e he).elim isAccess_of_isMap isAccess_of_isUnmap
  refine ⟨hcmds, evs, htrace, hmoment, by rw [hctl, replay_of_no_access hacc], fun e he r her => ?_⟩
  subst her
  rcases hreq _ he with h | h <;> cases h

theorem mapFrom_portFrame (s : State) : PortFrame s (mapFrom 0 s.windows s).final := by
  obtain ⟨-, hctl, -, -, hcmds, -, -, -, evs, htrace, hmoment, hmap, -⟩ := mapFrom_frame s.windows 0 s
  exact portFrame_of_requests hcmds hctl htrace hmoment fun e he => .inl (hmap e he)

theorem releaseAll_portFrame (s : State) : PortFrame s (releaseAll s) := by
  obtain ⟨-, hctl, -, -, hcmds, -, -, -, -, evs, htrace, hmoment, hunmap, -⟩ :=
    releaseFrom_frame s.windows 0 s
  exact portFrame_of_requests hcmds hctl htrace hmoment fun e he => .inr (hunmap e he)

/-! ### The response -/

/-- A command answered: what passes the ports before the response, then the response; nothing after
it. -/
def Answered (s t : State) : Prop :=
  ∃ u r, PortFrame s u ∧ t.trace = u.trace ++ [.respond r] ∧ t.moment = u.moment + 1 ∧
    t.ctl = u.ctl ∧ t.cmds = u.cmds

theorem openContext_answered (s : State) : Answered s (openContext s) := by
  have hmap := mapFrom_portFrame s
  rw [openContext]
  cases hm : mapFrom 0 s.windows s with
  | allMapped u =>
    rw [hm] at hmap
    exact ⟨u, _, hmap, rfl, rfl, rfl, rfl⟩
  | failedWith e u =>
    rw [hm] at hmap
    exact ⟨releaseAll u, _, hmap.trans (releaseAll_portFrame u), rfl, rfl, rfl, rfl⟩

/-- A per-bank command that did not fault was answered. -/
theorem AccessEnd.answered_of_next {s t : State} {o : Host.Outcome State Fault Refusal}
    (h : AccessEnd s o) (ht : o = .next t) : Answered s t := by
  cases h with
  | wrote hu =>
    cases ht
    exact ⟨_, _, hu.portFrame, rfl, rfl, rfl, rfl⟩
  | answered r hu =>
    cases ht
    exact ⟨_, _, hu.portFrame, rfl, rfl, rfl, rfl⟩
  | faulted => cases ht

/-- A per-bank command that has a next state met its preconditions and ran (R90). -/
theorem withBank_next {s t : State} {b : Nat} {run : State → Host.Outcome State Fault Refusal}
    (h : withBank b s run = .next t) : run s = .next t := by
  obtain ⟨hctx, hb, -⟩ := withBank_endsIn (.inl h)
  simpa [withBank, hctx, hb] using h

theorem exec_answered {i : Instr} {s t : State} (h : exec i s = .next t) : Answered s t := by
  cases hi : bankMask i with
  | none =>
    rcases bankMask_eq_none hi with rfl | rfl
    · obtain ⟨-, rfl⟩ := execInitialize_endsIn (.inl h)
      exact openContext_answered s
    · obtain ⟨-, rfl⟩ := execFinalize_endsIn (.inl h)
      exact ⟨releaseAll s, _, releaseAll_portFrame s, rfl, rfl, rfl, rfl⟩
  | some bm =>
    obtain ⟨run, hrun, hend⟩ := exec_perBank hi
    exact (hend s).answered_of_next (withBank_next (hrun s ▸ h))

theorem Answered.events {s t : State} (h : Answered s t) :
    ∃ (evs : List Event) (r : Response), t.trace = s.trace ++ (evs ++ [.respond r]) ∧
      t.moment = s.moment + (evs.length + 1) ∧ t.ctl = replay s.ctl evs ∧
      (∀ e ∈ evs, ∀ r', e ≠ .respond r') ∧ t.cmds = s.cmds := by
  obtain ⟨u, r, ⟨hcmds, evs, htrace, hmoment, hctl, hevs⟩, htrace', hmoment', hctl', hcmds'⟩ := h
  exact ⟨evs, r, by rw [htrace', htrace, List.append_assoc], by rw [hmoment', hmoment, Nat.add_assoc],
    hctl'.trans hctl, hevs, hcmds'.trans hcmds⟩

/-- A step that waited changed nothing; any other took a command and answered it. -/
theorem step_answered {s t : State} (h : step s = .next t) :
    (s.cmds = [] ∧ t = s) ∨ Answered { s with cmds := s.cmds.tail } t := by
  cases hs : s.cmds with
  | nil =>
    rw [step_wait hs] at h
    cases h
    exact .inl ⟨rfl, rfl⟩
  | cons w rest =>
    refine .inr ?_
    cases hw : decode w with
    | instr i => exact exec_answered (step_instr hs hw ▸ h)
    | reserved op =>
      rw [step_reserved hs hw] at h
      cases h
      exact ⟨_, _, .refl _, rfl, rfl, rfl, rfl⟩

/-! ### The obligation -/

/-- Settles O19: accesses change the controller by the writes the bus shows, platform requests and the
response not at all. -/
theorem controllerIsMadeByTheBusWrites : Obligations.ControllerIsMadeByTheBusWrites :=
  fun _ _ h => (step_answered h).imp_right Answered.events

end Sys2Proof.Machine
end

section
/-! SUPPORT. The access of one register on a bus that completes it (R56 to R62, R64, R66). -/

namespace Sys2Proof.Machine

/-- A data-in bit of a valid pin that is an input: the sample (R64). -/
theorem dataInWord_getLsbD (c : CtlB) {valid : Word} {b : Nat} (pins free : Word) {i : Nat}
    (hi : valid.getLsbD i = true) (hin : (c.oeWord b).getLsbD i = false) :
    (dataInWord c valid b pins free).getLsbD i = pins.getLsbD i := by
  have h32 : i < 32 := BitVec.lt_of_getLsbD hi
  simp only [dataInWord, BitVec.getLsbD_or, BitVec.getLsbD_and, BitVec.getLsbD_not, hi, hin, h32]
  simp

theorem validMask_of_hasPin {s : State} {b i : Nat} (h : s.hasPin b i = true) :
    (s.validMask b).getLsbD i = true :=
  (Bool.and_eq_true_iff.mp h).2

/-- A word written and the next read of it (R66). -/
theorem write_then_read {s : State} {r : Reg} {v : Word} {ctl : Controller} (hR : s.Reaches)
    (hr : r ∈ controllerRegs s.backend) (hbus : s.BusCompletes 2) (hstore : storeReg s.ctl r v = some ctl)
    (hvalue : ({ s with ctl := ctl }.afterEvents [s.writeEvent r v]).regValue r = some v) :
    ∃ t u, regWrite r v s = .done () t ∧ regRead r t = .done v u ∧ u.ctl = ctl := by
  let t : State := { s with ctl := ctl }.afterEvents [s.writeEvent r v]
  have hwrite : regWrite r v s = .done () t := regWrite_done hR hr hstore (BusCompletes_mono hbus (by omega))
  have hback : t.backend = s.backend := backend_storeReg hstore s rfl
  have hmap : SameMap s t := ⟨rfl, hback, rfl, rfl⟩
  have hread := regRead_done (s := t) (hmap.reaches.mpr hR) (hback ▸ hr) hvalue
    (busCompletes_afterEvents { s with ctl := ctl } [s.writeEvent r v] 1 hbus)
  exact ⟨t, _, hwrite, hread, by simp [t]⟩

/-! ### The obligations -/

/-- Settles O21: the two writes by their side effects, and registers by index. -/
theorem setAndClearRegistersOfBackendA : Obligations.SetAndClearRegistersOfBackendA := by
  intro s c b v hc hb hR hbus
  have hA := backend_a hc
  exact ⟨regWrite_done hR (hA ▸ set_mem hb) (by rw [hc]; rfl) hbus,
    regWrite_done hR (hA ▸ clr_mem hb) (by rw [hc]; rfl) hbus,
    fun x b' => ⟨CtlA.latchWord_setLatch c b b' x hb, fun w => CtlA.fselWord_setLatch c b w x⟩⟩

/-- Settles O22: the two writes by their side effects, and registers by index. -/
theorem setAndClearRegistersOfBackendB : Obligations.SetAndClearRegistersOfBackendB := by
  intro s c b v hc hb hR hbus
  have hB := backend_b hc
  exact ⟨regWrite_done hR (hB ▸ setDataOut_mem hb) (by rw [hc]; rfl) hbus,
    regWrite_done hR (hB ▸ clearDataOut_mem hb) (by rw [hc]; rfl) hbus,
    fun x b' => ⟨CtlB.dataOutWord_setDataOut c b b' x hb, CtlB.oeWord_setDataOut c b b' x⟩⟩

/-- Settles O23: the read by its value, whose bits of valid pins are the latch or the sample. -/
theorem levelRegisterReads : Obligations.LevelRegisterReads := by
  intro s c b hc hb hR hbus
  exact ⟨_, regRead_done hR (backend_a hc ▸ lev_mem hb) (by rw [State.regValue, hc]) hbus,
    fun i hi => levelWord_getLsbD c _ _ (validMask_of_hasPin hi)⟩

/-- Settles O24: the read by its value, whose bits of valid input pins are the sample. -/
theorem dataInRegisterReads : Obligations.DataInRegisterReads := by
  intro s c b hc hb hR hbus
  exact ⟨_, regRead_done hR (backend_b hc ▸ dataIn_mem hb) (by rw [State.regValue, hc]) hbus,
    fun i hi hin => dataInWord_getLsbD c _ _ (validMask_of_hasPin hi) hin⟩

/-- Settles O25: the write stores the word, and the next read returns what is stored. -/
theorem plainStorageReadsBack : Obligations.PlainStorageReadsBack := by
  constructor
  · intro s c w v hc hw hR hbus
    have hback := CtlA.fselWord_setFsel c w w v hw
    obtain ⟨t, u, hwrite, hread, hctl⟩ := write_then_read (r := .fsel w) (v := v)
      (ctl := .a (c.setFsel w v)) hR (backend_a hc ▸ fsel_mem hw) hbus (by rw [hc]; rfl)
      (congrArg some (hback.trans (if_pos rfl)))
    exact ⟨t, u, hwrite, hread, hctl, fun w' => CtlA.fselWord_setFsel c w w' v hw⟩
  · intro s c b v hc hb hR hbus
    have hback := CtlB.oeWord_setOe c b b v hb
    obtain ⟨t, u, hwrite, hread, hctl⟩ := write_then_read (r := .oe b) (v := v)
      (ctl := .b (c.setOe b v)) hR (backend_b hc ▸ oe_mem hb) hbus (by rw [hc]; rfl)
      (congrArg some (hback.trans (if_pos rfl)))
    exact ⟨t, u, hwrite, hread, hctl, fun b' => CtlB.oeWord_setOe c b b' v hb⟩

end Sys2Proof.Machine
end

section
/-! SUPPORT. The per-bank commands as programs of register-bus accesses: which registers each uses, said once,
and from it what every access is to and where a bus fault cuts the command (R52, R55, R65, R69, R122). -/

namespace Sys2Proof.Machine

/-! ### Programs of accesses -/

/-- A sequence of register-bus accesses through the registers `ok` alone, each read or written as the
block reads and writes it (R65). What follows an access may use its value and the moment before it. -/
inductive BusProgram (ok : Reg → Prop) : {α : Type} → (State → Access α) → Prop where
  | done {α : Type} (v : α) : BusProgram ok fun s => .done v s
  | read {r : Reg} (hok : ok r) (hr : r.isRead = true) : BusProgram ok (regRead r)
  | write {r : Reg} (v : Word) (hok : ok r) (hr : r.isWritten = true) : BusProgram ok (regWrite r v)
  | bind {α β : Type} {f : State → Access α} {g : Nat → α → State → Access β}
      (hf : BusProgram ok f) (hg : ∀ n v, BusProgram ok (g n v)) :
      BusProgram ok fun s => (f s).andThen (g s.moment)

theorem BusProgram.andThen {ok : Reg → Prop} {α β : Type} {f : State → Access α}
    {g : α → State → Access β} (hf : BusProgram ok f) (hg : ∀ v, BusProgram ok (g v)) :
    BusProgram ok fun s => (f s).andThen g :=
  hf.bind (g := fun _ => g) fun _ => hg

section Program

variable {ok : Reg → Prop} {α : Type} {f : State → Access α}

theorem BusProgram.framed (h : BusProgram ok f) : ∀ s, (f s).Framed s := by
  induction h with
  | done v => exact done_framed v
  | read => exact regRead_framed _
  | write v => exact regWrite_framed _ v
  | bind _ _ ihf ihg => exact fun s => (ihf s).andThen fun v t => ihg s.moment v t

theorem BusProgram.uniform (h : BusProgram ok f) : BusUniform f := by
  induction h with
  | done v => exact busUniform_done v
  | read => exact regRead_uniform _
  | write v => exact regWrite_uniform _ v
  | bind _ _ ihf ihg => exact ihf.andThenAt ihg

/-! ### Every access is to the address of one of the registers -/

/-- An access at the address of a register of `ok`, with the register that is reached there. -/
inductive AccessThrough (s : State) (ok : Reg → Prop) : Event → Prop where
  | read {r r' : Reg} (v : Word) (hok : ok r) (hr : r.isRead = true)
      (ht : s.target (s.regAddr r) = some r') : AccessThrough s ok (.read (s.regAddr r) r' v)
  | write {r r' : Reg} (v : Word) (hok : ok r) (hr : r.isWritten = true)
      (ht : s.target (s.regAddr r) = some r') : AccessThrough s ok (.write (s.regAddr r) r' v)

theorem AccessThrough.of_sameMap {s t : State} (hm : SameMap s t) {e : Event}
    (h : AccessThrough t ok e) : AccessThrough s ok e := by
  cases h with
  | read v hok hr ht =>
    rw [hm.regAddr, hm.target] at ht
    exact hm.regAddr _ ▸ .read v hok hr ht
  | write v hok hr ht =>
    rw [hm.regAddr, hm.target] at ht
    exact hm.regAddr _ ▸ .write v hok hr ht

/-- The events a sequence shows satisfy `P`. -/
def Access.Shows (P : Event → Prop) (s : State) (x : Access α) : Prop :=
  ∃ evs, x.final.trace = s.trace ++ evs ∧ ∀ e ∈ evs, P e

theorem shows_nothing {P : Event → Prop} {s : State} {x : Access α} (h : x.final = s) : x.Shows P s :=
  ⟨[], by rw [h, List.append_nil], by simp⟩

theorem regRead_shows {s : State} {r : Reg} (hok : ok r) (hr : r.isRead = true) :
    (regRead r s).Shows (AccessThrough s ok) s := by
  rw [regRead, memRead]
  cases hb : s.busTick with
  | none => exact shows_nothing rfl
  | some s1 =>
    obtain ⟨l, rfl⟩ := busTick_eq hb
    cases ht : s.target (s.regAddr r) with
    | none => exact shows_nothing rfl
    | some r' =>
      cases hv : s.regValue r' with
      | none =>
        simp only [hv]
        exact shows_nothing rfl
      | some v =>
        simp only [hv]
        exact ⟨[.read (s.regAddr r) r' v], by simp, fun e he =>
          List.mem_singleton.mp he ▸ .read v hok hr ht⟩

theorem regWrite_shows {s : State} {r : Reg} (v : Word) (hok : ok r) (hr : r.isWritten = true) :
    (regWrite r v s).Shows (AccessThrough s ok) s := by
  rw [regWrite, memWrite]
  cases hb : s.busTick with
  | none => exact shows_nothing rfl
  | some s1 =>
    obtain ⟨l, rfl⟩ := busTick_eq hb
    cases ht : s.target (s.regAddr r) with
    | none => exact shows_nothing rfl
    | some r' =>
      cases hv : storeReg s.ctl r' v with
      | none =>
        simp only [hv]
        exact shows_nothing rfl
      | some ctl =>
        simp only [hv]
        exact ⟨[.write (s.regAddr r) r' v], rfl, fun e he =>
          List.mem_singleton.mp he ▸ .write v hok hr ht⟩

/-- One sequence after another: accesses do not move the registers. -/
theorem Access.Shows.andThen {β : Type} {s : State} {x : Access α} {g : α → State → Access β}
    (hx : x.Shows (AccessThrough s ok) s) (hframe : x.Framed s)
    (hg : ∀ v t, (g v t).Shows (AccessThrough t ok) t) : (x.andThen g).Shows (AccessThrough s ok) s := by
  cases x with
  | failed u => exact hx
  | done v u =>
    obtain ⟨xs, hxs, hx⟩ := hx
    obtain ⟨ys, hys, hy⟩ := hg v u
    refine ⟨xs ++ ys, hys.trans (by rw [show u.trace = _ from hxs, List.append_assoc]), fun e he => ?_⟩
    rcases List.mem_append.mp he with he | he
    · exact hx e he
    · exact (hy e he).of_sameMap hframe.map

theorem BusProgram.shows (h : BusProgram ok f) : ∀ s, (f s).Shows (AccessThrough s ok) s := by
  induction h with
  | done v => exact fun s => shows_nothing rfl
  | read hok hr => exact fun s => regRead_shows hok hr
  | write v hok hr => exact fun s => regWrite_shows v hok hr
  | bind hf _ ihf ihg => exact fun s => (ihf s).andThen (hf.framed s) fun v t => ihg s.moment v t

/-! ### On a sound bus a program completes -/

/-- A register that the block reads has a value to read (R58, R59, R62, R63, R64). -/
theorem regValue_of_isRead {s : State} {r : Reg} (hr : r ∈ controllerRegs s.backend)
    (hread : r.isRead = true) : ∃ v, s.regValue r = some v := by
  cases hc : s.ctl with
  | a c =>
    rw [backend_a hc] at hr
    cases r with
    | fsel w => exact ⟨_, by rw [State.regValue, hc]⟩
    | lev b => exact ⟨_, by rw [State.regValue, hc]⟩
    | set | clr => cases hread
    | _ => simp [controllerRegs] at hr
  | b c =>
    rw [backend_b hc] at hr
    cases r with
    | oe b | dataIn b | dataOut b => exact ⟨_, by rw [State.regValue, hc]⟩
    | setDataOut | clearDataOut => cases hread
    | _ => simp [controllerRegs] at hr

/-- A register that the block writes takes every word (R56, R57, R59, R60, R61, R62). -/
theorem storeReg_of_isWritten {s : State} {r : Reg} (hr : r ∈ controllerRegs s.backend)
    (hwritten : r.isWritten = true) (v : Word) : ∃ ctl, storeReg s.ctl r v = some ctl := by
  cases hc : s.ctl with
  | a c =>
    rw [backend_a hc] at hr
    cases r with
    | fsel | set | clr => exact ⟨_, rfl⟩
    | lev => cases hwritten
    | _ => simp [controllerRegs] at hr
  | b c =>
    rw [backend_b hc] at hr
    cases r with
    | oe | setDataOut | clearDataOut => exact ⟨_, rfl⟩
    | dataIn | dataOut => cases hwritten
    | _ => simp [controllerRegs] at hr

theorem afterEvents_sound {s : State} (h : s.busLife = none) (evs : List Event) :
    (s.afterEvents evs).busLife = none := by
  simp [h]

theorem BusProgram.completes {k : Backend} (hok : ∀ r, ok r → r ∈ controllerRegs k)
    (h : BusProgram ok f) : ∀ s, s.backend = k → s.Reaches → s.busLife = none →
      ∃ v t, f s = .done v t ∧ t.busLife = none := by
  induction h with
  | done v => exact fun s _ _ hs => ⟨v, s, rfl, hs⟩
  | read hr hread =>
    intro s hk hR hs
    have hmem := hk ▸ hok _ hr
    obtain ⟨v, hv⟩ := regValue_of_isRead hmem hread
    exact ⟨v, _, regRead_done hR hmem hv (busCompletes_of_sound hs 1),
      afterEvents_sound (by rw [State.afterRead_busLife, hs]) _⟩
  | write v hr hwritten =>
    intro s hk hR hs
    have hmem := hk ▸ hok _ hr
    obtain ⟨ctl, hv⟩ := storeReg_of_isWritten hmem hwritten v
    exact ⟨(), _, regWrite_done hR hmem hv (busCompletes_of_sound hs 1),
      afterEvents_sound (s := { s with ctl := ctl }) hs _⟩
  | @bind _ _ f g hf hg ihf ihg =>
    intro s hk hR hs
    obtain ⟨v, u, hfs, hu⟩ := ihf s hk hR hs
    have hframe : BusFrame s u := by
      have := hf.framed s
      rwa [hfs] at this
    obtain ⟨w, t, hgs, ht⟩ := ihg s.moment v u (hframe.map.backend.trans hk)
      (hframe.map.reaches.mpr hR) hu
    exact ⟨w, t, by simp only [hfs, Access.andThen_done, hgs], ht⟩

end Program

/-! ### The commands -/

/-- A register through which a command on the pins `m` of bank `b` acts (R29, R69). -/
def CommandReg (k : Backend) (b : Nat) (m : Word) (r : Reg) : Prop :=
  r ∈ controllerRegs k ∧ r.serves b m

section Commands

variable {b : Nat} {m : Word}

theorem fsel_commandReg {i : Nat} (hw : (pinPlace b i).word < 6) (hi : m.getLsbD i = true) :
    CommandReg .A b m (.fsel (pinPlace b i).word) :=
  ⟨fsel_mem hw, i, hi, rfl⟩

theorem oe_commandReg (hb : b < 6) : CommandReg .B b m (.oe b) := ⟨oe_mem hb, rfl⟩

theorem raiseReg_commandReg {k : Backend} (hb : b < nbanks k) : CommandReg k b m (raiseReg k b) := by
  refine ⟨raiseReg_mem hb, ?_⟩
  cases k <;> rfl

theorem lowerReg_commandReg {k : Backend} (hb : b < nbanks k) : CommandReg k b m (lowerReg k b) := by
  refine ⟨lowerReg_mem hb, ?_⟩
  cases k <;> rfl

/-- Setting, and clearing, output bits (R106, R107, R109, R110). -/
theorem raise_program {k : Backend} (hb : b < nbanks k) (x : Word) :
    BusProgram (CommandReg k b m) (regWrite (raiseReg k b) x) :=
  .write x (raiseReg_commandReg hb) (by cases k <;> rfl)

@[inherit_doc raise_program]
theorem lower_program {k : Backend} (hb : b < nbanks k) (x : Word) :
    BusProgram (CommandReg k b m) (regWrite (lowerReg k b) x) :=
  .write x (lowerReg_commandReg hb) (by cases k <;> rfl)

theorem rmwField_program {i : Nat} (code : Word) (hw : (pinPlace b i).word < 6)
    (hi : m.getLsbD i = true) : BusProgram (CommandReg .A b m) (rmwField b code i) :=
  (BusProgram.read (fsel_commandReg hw hi) rfl).andThen fun _ => .write _ (fsel_commandReg hw hi) rfl

theorem rmwOe_program (f : Word → Word) (hb : b < 6) :
    BusProgram (CommandReg .B b m) (rmwOe b f) :=
  (BusProgram.read (oe_commandReg hb) rfl).andThen fun _ => .write _ (oe_commandReg hb) rfl

theorem forPins_program {ok : Reg → Prop} {body : Nat → State → Access Unit}
    (hbody : ∀ i, m.getLsbD i = true → BusProgram ok (body i)) (l : List Nat) :
    BusProgram ok (forPins m body l) := by
  induction l with
  | nil => exact .done ()
  | cons i l ih =>
    by_cases hm : m.getLsbD i = true
    · have hcons : forPins m body (i :: l) = fun s => (body i s).andThen fun _ => forPins m body l :=
        funext fun s => by rw [forPins, if_pos hm]
      rw [hcons]
      exact (hbody i hm).andThen fun _ => ih
    · have hcons : forPins m body (i :: l) = forPins m body l :=
        funext fun s => by rw [forPins, if_neg hm]
      rw [hcons]
      exact ih

theorem directionLoop_program (code : Word) (hword : ∀ i, m.getLsbD i = true → (pinPlace b i).word < 6) :
    BusProgram (CommandReg .A b m) (forPins m (rmwField b code) pinsAscending) :=
  forPins_program (fun i hi => rmwField_program code (hword i hi) hi) _

theorem setOutputA_program (hb : b < 2) (value : Word)
    (hword : ∀ i, m.getLsbD i = true → (pinPlace b i).word < 6) :
    BusProgram (CommandReg .A b m) (setOutputA b m value) :=
  BusProgram.andThen ((raise_program (k := .A) hb _).andThen fun _ => lower_program (k := .A) hb _)
    fun _ => directionLoop_program fselOut hword

theorem setOutputB_program (hb : b < 6) (value : Word) :
    BusProgram (CommandReg .B b m) (setOutputB b m value) :=
  BusProgram.andThen ((raise_program (k := .B) hb _).andThen fun _ => lower_program (k := .B) hb _)
    fun _ => rmwOe_program _ hb

/-- The direction bits so far and that of pin `i`, its word `t` having been read at moment `n` (R98). -/
def withDirectionBit (b i : Nat) (r : Word) (n : Nat) (t : Word) : Word :=
  if directionBit (getField t (pinPlace b i).shift) n then r ||| ((1 : Word) <<< i) else r

theorem readDirections_program (hword : ∀ i, m.getLsbD i = true → (pinPlace b i).word < 6)
    (l : List Nat) : ∀ r : Word, BusProgram (CommandReg .A b m) (readDirections b m l r) := by
  induction l with
  | nil => exact fun r => .done r
  | cons i l ih =>
    intro r
    by_cases hm : m.getLsbD i = true
    · have hcons : readDirections b m (i :: l) r = fun s =>
          (regRead (.fsel (pinPlace b i).word) s).andThen fun t =>
            readDirections b m l (withDirectionBit b i r s.moment t) :=
        funext fun s => by rw [readDirections, if_pos hm]; rfl
      rw [hcons]
      exact BusProgram.bind (g := fun n t => readDirections b m l (withDirectionBit b i r n t))
        (.read (fsel_commandReg (hword i hm) hm) rfl) fun n t => ih _
    · have hcons : readDirections b m (i :: l) r = readDirections b m l r :=
        funext fun s => by rw [readDirections, if_neg hm]
      rw [hcons]
      exact ih r

theorem getDirectionB_program (hb : b < 6) : BusProgram (CommandReg .B b m) (getDirectionB b m) :=
  (BusProgram.read (oe_commandReg hb) rfl).andThen fun t => .done (t &&& m)

theorem getDatainA_program (hb : b < 2) : BusProgram (CommandReg .A b m) (getDatainA b m) :=
  (BusProgram.read ⟨lev_mem hb, rfl⟩ rfl).andThen fun t => .done (t &&& m)

theorem getDatainB_program (hb : b < 6) : BusProgram (CommandReg .B b m) (getDatainB b m) :=
  (BusProgram.read (oe_commandReg hb) rfl).andThen fun oe =>
    (BusProgram.read ⟨dataIn_mem hb, rfl⟩ rfl).andThen fun di =>
      (BusProgram.read ⟨dataOut_mem hb, rfl⟩ rfl).andThen fun dout =>
        .done (reconstruct oe di dout &&& m)

end Commands

/-- How a command makes an outcome of its accesses: one response after the last, or the bus fault
(R73, R122). -/
structure Finishes {α : Type} (fin : Access α → Host.Outcome State Fault Refusal) : Prop where
  failed : ∀ u, fin (.failed u) = .fault (.busFault u)
  done : ∀ v u, ∃ t r, fin (.done v u) = .next t ∧ t.trace = u.trace ++ [.respond r]

theorem finishWrite_finishes : Finishes finishWrite := ⟨fun _ => rfl, fun _ _ => ⟨_, _, rfl, rfl⟩⟩

theorem finishRead_finishes : Finishes finishRead := ⟨fun _ => rfl, fun _ _ => ⟨_, _, rfl, rfl⟩⟩

/-- A program of accesses through the registers `ok`, and then its end. -/
inductive CommandRun (ok : Reg → Prop) : (State → Host.Outcome State Fault Refusal) → Prop where
  | mk {α : Type} {f : State → Access α} {fin : Access α → Host.Outcome State Fault Refusal}
      (hf : BusProgram ok f) (hfin : Finishes fin) : CommandRun ok fun u => fin (f u)

/-- Command `i` of bank `b`, in every state with the parameters and the strap of `s`, is one program
through the bank's registers. -/
def RunsThrough (s : State) (i : Instr) (b : Nat) (mask : Word) : Prop :=
  ∃ run, CommandRun (CommandReg s.backend b (s.clip b mask)) run ∧
    ∀ u, SameBoard s u → exec i u = withBank b u run

theorem SameBoard.clip {s u : State} (h : SameBoard s u) (b : Nat) (mask : Word) :
    u.clip b mask = s.clip b mask := by
  simp only [State.clip, State.validMask, h.cfg, h.backend]

/-- An operation with its two backend forms, of the clipped mask. -/
theorem runsThrough_byBackend {s : State} {i : Instr} {b : Nat} {mask : Word} {α : Type}
    {fA fB : Word → State → Access α} {fin : Access α → Host.Outcome State Fault Refusal}
    (hexec : ∀ u, exec i u = withBank b u fun u =>
      fin (match u.backend with | .A => fA (u.clip b mask) u | .B => fB (u.clip b mask) u))
    (hfin : Finishes fin)
    (hA : s.backend = .A → BusProgram (CommandReg .A b (s.clip b mask)) (fA (s.clip b mask)))
    (hB : s.backend = .B → BusProgram (CommandReg .B b (s.clip b mask)) (fB (s.clip b mask))) :
    RunsThrough s i b mask := by
  rw [RunsThrough]
  cases hk : s.backend with
  | A =>
    refine ⟨_, .mk (hA hk) hfin, fun u hu => ?_⟩
    simp only [hexec, withBank, hu.clip, hu.backend, hk]
  | B =>
    refine ⟨_, .mk (hB hk) hfin, fun u hu => ?_⟩
    simp only [hexec, withBank, hu.clip, hu.backend, hk]

/-- A per-bank command that ends in a state met its preconditions (R90). -/
theorem exec_perBank_defined {s t : State} {i : Instr} {b : Nat} {mask : Word}
    (hi : bankMask i = some (b, mask)) (h : EndsIn (exec i s) t) :
    s.ctx = .valid ∧ b < nbanks s.backend := by
  obtain ⟨_, hexec, -⟩ := exec_perBank hi
  obtain ⟨hctx, hb, -⟩ := withBank_endsIn (hexec s ▸ h)
  exact ⟨hctx, hb⟩

/-- Every per-bank command runs through registers of its bank, or function-select words of its selected
pins (R65, R69). -/
theorem exec_runsThrough {s : State} {i : Instr} {b : Nat} {mask : Word}
    (hi : bankMask i = some (b, mask)) (hb : b < nbanks s.backend) : RunsThrough s i b mask := by
  have hword (hA : s.backend = .A) := clip_word_lt hA (bank_lt_two hA hb) mask
  cases i with
  | initializeContext => cases hi
  | finalizeContext => cases hi
  | setOutput _ _ value =>
    cases hi
    exact runsThrough_byBackend (fA := fun m => setOutputA b m value) (fB := fun m => setOutputB b m value)
      (fun _ => rfl) finishWrite_finishes
      (fun hA => setOutputA_program (bank_lt_two hA hb) value (hword hA))
      (fun hB => setOutputB_program (bank_lt_six hB hb) value)
  | setInput =>
    cases hi
    exact runsThrough_byBackend (fA := setInputA b) (fB := setInputB b)
      (fun _ => rfl) finishWrite_finishes
      (fun hA => directionLoop_program fselIn (hword hA))
      (fun hB => rmwOe_program _ (bank_lt_six hB hb))
  | getDirection =>
    cases hi
    exact runsThrough_byBackend (fA := getDirectionA b) (fB := getDirectionB b)
      (fun _ => rfl) finishRead_finishes
      (fun hA => readDirections_program (hword hA) pinsAscending 0)
      (fun hB => getDirectionB_program (bank_lt_six hB hb))
  | setDataout =>
    cases hi
    exact runsThrough_byBackend (fA := regWrite (.set b)) (fB := regWrite (.setDataOut b))
      (fun _ => rfl) finishWrite_finishes
      (fun hA => raise_program (k := .A) (hA ▸ hb) _) (fun hB => raise_program (k := .B) (hB ▸ hb) _)
  | clrDataout =>
    cases hi
    exact runsThrough_byBackend (fA := regWrite (.clr b)) (fB := regWrite (.clearDataOut b))
      (fun _ => rfl) finishWrite_finishes
      (fun hA => lower_program (k := .A) (hA ▸ hb) _) (fun hB => lower_program (k := .B) (hB ▸ hb) _)
  | getDatain =>
    cases hi
    exact runsThrough_byBackend (fA := getDatainA b) (fB := getDatainB b)
      (fun _ => rfl) finishRead_finishes
      (fun hA => getDatainA_program (bank_lt_two hA hb))
      (fun hB => getDatainB_program (bank_lt_six hB hb))

end Sys2Proof.Machine
end

section
/-! SUPPORT. What every event of a command is (R65, R69), that every access is aligned (R52, R55), and what
the state a bus fault leaves is (R122, R127). -/

namespace Sys2Proof.Machine

/-! ### The events of a command -/

/-- What command `i`, begun in `s`, may put on the ports: with a context, accesses through the registers
it acts through; the requests of the lifecycle commands; a response. -/
inductive CommandEvent (s : State) (i : Instr) : Event → Prop where
  | access {b : Nat} {mask : Word} {e : Event} (hi : bankMask i = some (b, mask))
      (hctx : s.ctx = .valid) (h : AccessThrough s (CommandReg s.backend b (s.clip b mask)) e) :
      CommandEvent s i e
  | map (base : Addr) (len : Nat) (x : MapAnswer) (hi : i = .initializeContext) :
      CommandEvent s i (.map base len x)
  | unmap (h : Addr) (len : Nat) (hi : i = .initializeContext ∨ i = .finalizeContext) :
      CommandEvent s i (.unmap h len)
  | respond (r : Response) : CommandEvent s i (.respond r)

/-- The events that led from `s` to `t` are such as command `i` makes. -/
def CommandShows (s : State) (i : Instr) (t : State) : Prop :=
  ∃ evs, t.trace = s.trace ++ evs ∧ ∀ e ∈ evs, CommandEvent s i e

theorem openContext_shows (s : State) : CommandShows s .initializeContext (openContext s) := by
  obtain ⟨evs, htrace, hevs⟩ := (openContext_platformFrame s).added
  refine ⟨evs, htrace, fun e he => ?_⟩
  have hno := hevs e he
  cases e with
  | read => cases hno
  | write => cases hno
  | map => exact .map _ _ _ rfl
  | unmap => exact .unmap _ _ (.inl rfl)
  | respond => exact .respond _

theorem execFinalize_shows (s : State) :
    CommandShows s .finalizeContext ((releaseAll s).loseError.respond .ok 0) := by
  obtain ⟨-, -, -, -, -, -, -, -, -, evs, htrace, -, hunmap, -⟩ := releaseFrom_frame s.windows 0 s
  refine ⟨evs ++ [.respond ⟨.ok, 0⟩], ?_, fun e he => ?_⟩
  · rw [← List.append_assoc, ← htrace]
    rfl
  · rcases List.mem_append.mp he with he | he
    · have hu := hunmap e he
      cases e with
      | unmap => exact .unmap _ _ (.inr rfl)
      | _ => cases hu
    · exact List.mem_singleton.mp he ▸ .respond _

/-- The accesses of a per-bank command, then its response if it completed. -/
theorem CommandRun.events {ok : Reg → Prop} {run : State → Host.Outcome State Fault Refusal}
    (hrun : CommandRun ok run) {s t : State} (h : EndsIn (run s) t) :
    ∃ evs, t.trace = s.trace ++ evs ∧ ∀ e ∈ evs, AccessThrough s ok e ∨ ∃ r, e = .respond r := by
  cases hrun with
  | @mk _ f fin hf hfin =>
    obtain ⟨evs, htrace, hevs⟩ := hf.shows s
    dsimp only at h
    cases hx : f s with
    | failed u =>
      rw [hx, hfin.failed, endsIn_busFault] at h
      rw [hx] at htrace
      exact ⟨evs, h ▸ htrace, fun e he => .inl (hevs e he)⟩
    | done v u =>
      obtain ⟨t', r, hdone, hresp⟩ := hfin.done v u
      rw [hx, hdone, endsIn_next] at h
      rw [hx] at htrace
      refine ⟨evs ++ [.respond r], ?_, fun e he => ?_⟩
      · rw [h, hresp, show u.trace = _ from htrace, List.append_assoc]
      · rcases List.mem_append.mp he with he | he
        · exact .inl (hevs e he)
        · exact .inr ⟨r, List.mem_singleton.mp he⟩

theorem exec_shows {i : Instr} {s t : State} (h : EndsIn (exec i s) t) : CommandShows s i t := by
  cases hi : bankMask i with
  | none =>
    rcases bankMask_eq_none hi with rfl | rfl
    · obtain ⟨-, rfl⟩ := execInitialize_endsIn h
      exact openContext_shows s
    · obtain ⟨-, rfl⟩ := execFinalize_endsIn h
      exact execFinalize_shows s
  | some bm =>
    obtain ⟨b, mask⟩ := bm
    obtain ⟨hctx, hb⟩ := exec_perBank_defined hi h
    obtain ⟨run, hrun, hexec⟩ := exec_runsThrough (mask := mask) hi hb
    obtain ⟨-, -, hend⟩ := withBank_endsIn (hexec s ⟨rfl, rfl⟩ ▸ h)
    obtain ⟨evs, htrace, hevs⟩ := hrun.events hend
    refine ⟨evs, htrace, fun e he => ?_⟩
    rcases hevs e he with haccess | ⟨r, rfl⟩
    · exact .access hi hctx haccess
    · exact .respond r

/-! ### Aligned addresses -/

/-- A handle that is read is aligned, if every one of the context is (R52). -/
theorem handle_aligned {s : State} (h : ∀ r ∈ s.regions, r.aligned = true) (n : Nat) :
    s.handle n % 4 = 0 := by
  rw [State.handle]
  cases hr : s.regions[n]? with
  | none => rfl
  | some r =>
    cases r with
    | unmapped => rfl
    | mapped a =>
      have := h _ (List.mem_of_getElem? hr)
      simpa [Region.aligned] using this

/-- With a context, the address of a register is that of its bank in the mapped window, and its offset
(R21, R55). -/
theorem regAddr_of_context {s : State} (hinv : s.ContextInv) (hctx : s.ctx = .valid) {r : Reg}
    (hr : r ∈ controllerRegs s.backend) :
    s.regAddr r = s.handle (bankPlace s.cfg s.backend r.bank).region
      + (bankPlace s.cfg s.backend r.bank).offset + regOffset s.cfg r := by
  obtain ⟨-, hvalid, -⟩ := hinv
  rw [State.regAddr, (hvalid hctx).2, State.derivedBases]
  simp [List.getD_eq_getElem?_getD, List.getElem?_range (bank_lt_nbanks _ r hr)]

theorem regAddr_aligned {s : State} (hwf : configWf s.cfg = true) (hinv : s.ContextInv)
    (haligned : ∀ r ∈ s.regions, r.aligned = true) (hctx : s.ctx = .valid) {r : Reg}
    (hr : r ∈ controllerRegs s.backend) : s.regAddr r % 4 = 0 := by
  have hword := backendWf_of_configWf hwf s.backend
  simp only [backendWf, wordAligned, Bool.and_eq_true, List.all_eq_true, List.mem_range,
    beq_iff_eq] at hword
  obtain ⟨⟨⟨-, ⟨-, hbanks⟩, hregs⟩, -⟩, -⟩ := hword
  have hhandle := handle_aligned haligned (bankPlace s.cfg s.backend r.bank).region
  have hbank := hbanks _ (bank_lt_nbanks _ r hr)
  have hoffset := hregs r hr
  rw [regAddr_of_context hinv hctx hr]
  simp only [Addr] at *
  omega

/-! ### The state a bus fault leaves -/

/-- A program that faults on a bus that completes `k` accesses ends on a sound bus, and has made the first
`k` of the accesses it makes there (R122, R127). -/
theorem CommandRun.precise {ok : Reg → Prop} {run : State → Host.Outcome State Fault Refusal}
    (hrun : CommandRun ok run) {s left : State} {k : Nat}
    (hok : ∀ r, ok r → r ∈ controllerRegs s.backend) (hR : s.Reaches) (hk : s.busLife = some k)
    (h : run s = .fault (.busFault left)) :
    BusFrame s left ∧ ∃ t evs, run (s.withBus none) = .next t ∧ left.trace = s.trace ++ evs ∧
      evs.length = k ∧ evs <+: t.trace.drop s.trace.length := by
  cases hrun with
  | @mk _ f fin hf hfin =>
    obtain ⟨v, u, hsound, -⟩ := hf.completes hok (s.withBus none) rfl hR rfl
    obtain ⟨t, r, hdone, hresp⟩ := hfin.done v u
    obtain ⟨evs, htrace, -, henough, hshort⟩ := hf.uniform s k
    rw [hsound] at htrace henough
    rw [withBus_self hk] at henough hshort
    dsimp only at h ⊢
    have hlt : k < evs.length := by
      refine Nat.lt_of_not_le fun hle => ?_
      obtain ⟨t', _, hnext, -⟩ := hfin.done v (u.withBus (some (k - evs.length)))
      rw [henough hle, show (Access.done v u).withBus _ = .done v _ from rfl, hnext] at h
      cases h
    obtain ⟨u', hfailed, -, hcut⟩ := hshort hlt
    rw [hfailed, hfin.failed] at h
    cases h
    have hframe : BusFrame s left := by
      have := hf.framed s
      rwa [hfailed] at this
    refine ⟨hframe, t, evs.take k, by rw [hsound, hdone], hcut,
      List.length_take_of_le (Nat.le_of_lt hlt), ?_⟩
    rw [hresp, show u.trace = _ from htrace, List.append_assoc, List.drop_left]
    exact (List.take_prefix k evs).trans (List.prefix_append evs _)

theorem BusFrame.sameContext {s t : State} (h : BusFrame s t) : s.SameContext t :=
  ⟨h.map.cfg, h.map.backend, h.ctx, h.map.regions, h.map.bankBase, h.cmds, h.mapAnswers⟩

/-- The events a sequence of accesses added are the accesses, and make the controller. -/
theorem BusFrame.events {s t : State} (h : BusFrame s t) {evs : List Event}
    (htrace : t.trace = s.trace ++ evs) :
    (∀ e ∈ evs, e.isAccess = true) ∧ t.ctl = replay s.ctl evs := by
  obtain ⟨xs, hxs, -, hctl, hacc⟩ := h.added
  obtain rfl : xs = evs := List.append_cancel_left (hxs.symm.trans htrace)
  exact ⟨hacc, hctl⟩

/-- A command that faults is a per-bank command. -/
theorem bankMask_of_fault {i : Instr} {s : State} {f : Fault} (h : exec i s = .fault f) :
    ∃ b mask, bankMask i = some (b, mask) := by
  cases hi : bankMask i with
  | none => exact absurd h ((exec_lifecycle (bankMask_eq_none hi) s).1 f)
  | some bm => exact ⟨bm.1, bm.2, rfl⟩

/-! ### The obligations -/

/-- Settles O46: a per-bank command is a program through its bank's registers, each of which is reached at
its address, and the lifecycle commands only make requests. -/
theorem accessesOnlyThroughTheBanksRegisters : Obligations.AccessesOnlyThroughTheBanksRegisters := by
  intro s t i hR h
  obtain ⟨evs, htrace, hevs⟩ := exec_shows h
  refine ⟨evs, htrace, fun e he => ?_⟩
  cases hevs e he with
  | @access b mask _ hi hctx haccess =>
    cases haccess with
    | @read r _ v hok hread ht =>
      obtain ⟨hmem, hserves⟩ := hok
      rw [hR hctx r hmem] at ht
      cases ht
      exact ⟨rfl, hmem, hread, b, mask, hi, hserves⟩
    | @write r _ v hok hwritten ht =>
      obtain ⟨hmem, hserves⟩ := hok
      rw [hR hctx r hmem] at ht
      cases ht
      exact ⟨rfl, hmem, hwritten, b, mask, hi, hserves⟩
  | map _ _ _ hi => exact hi
  | unmap _ _ hi => exact hi
  | respond => trivial

/-- Settles O47: every access is at the address of a register, the sum of a handle and two offsets. -/
theorem everyAccessIsWordAligned : Obligations.EveryAccessIsWordAligned := by
  intro s t i hwf hinv haligned h
  obtain ⟨evs, htrace, hevs⟩ := exec_shows h
  refine ⟨evs, htrace, fun e he => ?_⟩
  cases hevs e he with
  | access hi hctx haccess =>
    cases haccess with
    | read v hok => exact regAddr_aligned hwf hinv haligned hctx hok.1
    | write v hok => exact regAddr_aligned hwf hinv haligned hctx hok.1
  | map => trivial
  | unmap => trivial
  | respond => trivial

/-- Settles O55: the bus decides nothing but where the program of accesses is cut. -/
theorem busFaultIsPrecise : Obligations.BusFaultIsPrecise := by
  intro s left i k hR hk h
  obtain ⟨b, mask, hi⟩ := bankMask_of_fault h
  obtain ⟨hctx, hb⟩ := exec_perBank_defined hi (.inr h)
  obtain ⟨run, hrun, hexec⟩ := exec_runsThrough (mask := mask) hi hb
  have hready : s.Ready b := ⟨hctx, hb, hR⟩
  rw [hexec s ⟨rfl, rfl⟩, withBank_ready hready] at h
  obtain ⟨hframe, t, evs, hnext, htrace, hlength, hprefix⟩ :=
    hrun.precise (fun _ hok => hok.1) hR hk h
  obtain ⟨haccess, hctl⟩ := hframe.events htrace
  refine ⟨t, evs, ?_, htrace, hlength, hprefix, haccess, hctl, hframe.sameContext, hframe.platErr⟩
  exact (hexec (s.withBus none) ⟨rfl, rfl⟩).trans
    ((withBank_ready (s := s.withBus none) hready run).trans hnext)

end Sys2Proof.Machine
end

section
/-! SUPPORT. The exact next state of `set_output` on a bus that completes its accesses (R91 to R93), and
`set_output` and `set_input` pin by pin with their frames (R91, R94). -/

namespace Sys2Proof.Machine

section Pins

variable {s : State} {b : Nat} {mask value : Word}

/-! ### set_output -/

theorem exec_setOutput_done_A {c : CtlA} (hc : s.ctl = .a c) (hr : s.Ready b)
    (hbus : s.BusCompletes (2 + 2 * (selectedPins (s.clip b mask)).length)) :
    exec (.setOutput b mask value) s = .next (s.afterWriteCommand
      (.a ((c.withLevels b (s.clip b mask) value).withDirections b fselOut (s.clip b mask)))
      (s.levelEventsA b (s.clip b mask) value ++ s.directionEvents c b fselOut (s.clip b mask))) := by
  have hA := backend_a hc
  have ⟨_, hb, hR⟩ := hr
  have hb2 : b < 2 := bank_lt_two hA hb
  let d := c.withLevels b (s.clip b mask) value
  let s1 := { s with ctl := .a d }.afterEvents (s.levelEventsA b (s.clip b mask) value)
  have hloop := directionLoop_done (s := s1) (c := d) b fselOut (s.clip b mask) rfl
    (reaches_update_a hc d _ hR) (clip_word_lt hA hb2 mask) fselOut_high
    (busCompletes_afterEvents { s with ctl := .a d } _ _ (by rw [Nat.add_comm]; exact hbus))
  rw [exec, execSetOutput, withBank_ready hr]
  simp only [hA]
  rw [setOutputA, setLevelsA_done hc hb2 hR _ _ (BusCompletes_mono hbus (by omega)), Access.andThen_done]
  show finishWrite (forPins _ _ _ s1) = _
  rw [hloop, ← finishWrite_done, ← afterEvents_append]
  rfl

theorem exec_setOutput_done_B {c : CtlB} (hc : s.ctl = .b c) (hr : s.Ready b) (hbus : s.BusCompletes 4) :
    exec (.setOutput b mask value) s = .next (s.afterWriteCommand
      (.b ((c.withLevels b (s.clip b mask) value).setOe b (c.oeWord b ||| s.clip b mask)))
      (s.levelEventsB b (s.clip b mask) value ++
        [s.readEvent (.oe b) (c.oeWord b), s.writeEvent (.oe b) (c.oeWord b ||| s.clip b mask)])) := by
  have hB := backend_b hc
  have ⟨_, hb, hR⟩ := hr
  have hb6 : b < 6 := bank_lt_six hB hb
  let d := c.withLevels b (s.clip b mask) value
  let s1 := { s with ctl := .b d }.afterEvents (s.levelEventsB b (s.clip b mask) value)
  have hrmw := rmwOe_done (s := s1) (d := d) b (fun t => t ||| s.clip b mask) rfl
    (reaches_update_b hc d _ hR) hb6 (busCompletes_afterEvents { s with ctl := .b d } _ 2 hbus)
  rw [exec, execSetOutput, withBank_ready hr]
  simp only [hB]
  rw [setOutputB, setLevelsB_done hc hb6 hR _ _ (BusCompletes_mono hbus (by omega)), Access.andThen_done]
  show finishWrite (rmwOe b _ s1) = _
  rw [hrmw, ← finishWrite_done, ← afterEvents_append]
  rfl

/-- `set_output` on a ready bank, either backend: every selected pin is an output at its level (R91). -/
theorem exec_setOutput_outputs (hr : s.Ready b)
    (hbus : s.BusCompletes (accessCount s (.setOutput b mask value))) :
    ∃ ctl evs, exec (.setOutput b mask value) s = .next (s.afterWriteCommand ctl evs) ∧
      (s.withCtl ctl).backend = s.backend ∧
      ∀ i, (s.clip b mask).getLsbD i = true →
        (s.withCtl ctl).out b i = value.getLsbD i ∧ (s.withCtl ctl).dir b i = .output := by
  cases hc : s.ctl with
  | a c =>
    have hA := backend_a hc
    rw [accessCount, hA] at hbus
    refine ⟨_, _, exec_setOutput_done_A hc hr hbus, withCtl_a_backend hA _, fun i hi => ⟨?_, ?_⟩⟩
    · rw [out_of_a rfl, CtlA.latchWord_withDirections, CtlA.withLevels,
        CtlA.latchWord_setLatch _ _ _ _ (bank_lt_two hA hr.2.1), if_pos rfl, withLevels_getLsbD, if_pos hi]
    · rw [dir_output_iff_a rfl, fieldOf_withDirections_pin hc _ mask fselOut fselOut_high b i
        (hasPin_of_clip hr.2.1 hi), if_pos ⟨rfl, hi⟩]
  | b c =>
    have hB := backend_b hc
    have hb6 : b < 6 := bank_lt_six hB hr.2.1
    rw [accessCount, hB] at hbus
    refine ⟨_, _, exec_setOutput_done_B hc hr hbus, withCtl_b_backend hB _, fun i hi => ⟨?_, ?_⟩⟩
    · rw [out_of_b rfl, CtlB.dataOutWord_setOe, CtlB.withLevels,
        CtlB.dataOutWord_setDataOut _ _ _ _ hb6, if_pos rfl, withLevels_getLsbD, if_pos hi]
    · rw [dir_output_iff_b rfl, oeWord_setOe_getLsbD hb6, if_pos rfl, or_getLsbD, if_pos hi]

/-! ### The writes of set_input -/

theorem directionEvents_writes {c : CtlA} {code m v : Word} {a : Addr} {r : Reg}
    (h : Event.write a r v ∈ s.directionEvents c b code m) : ∃ w, r = .fsel w := by
  rw [State.directionEvents, List.mem_flatMap] at h
  obtain ⟨i, -, hi⟩ := h
  simp only [State.rmwEvents, State.readEvent, State.writeEvent, List.mem_cons, reduceCtorEq,
    Event.write.injEq, List.not_mem_nil, or_false, false_or] at hi
  exact ⟨_, hi.2.1⟩

/-- `set_input` writes direction registers only, either backend (R95, R96). -/
theorem exec_setInput_writes (hr : s.Ready b)
    (hbus : s.BusCompletes (accessCount s (.setInput b mask))) :
    ∃ ctl evs, exec (.setInput b mask) s = .next (s.afterWriteCommand ctl evs) ∧
      ∀ a r v, Event.write a r v ∈ evs → (∃ w, r = .fsel w) ∨ r = .oe b := by
  cases hc : s.ctl with
  | a c =>
    rw [accessCount, backend_a hc] at hbus
    exact ⟨_, _, exec_setInput_done_A hc hr hbus, fun a r v h => .inl (directionEvents_writes h)⟩
  | b c =>
    rw [accessCount, backend_b hc] at hbus
    refine ⟨_, _, exec_setInput_done_B hc hr hbus, fun a r v h => .inr ?_⟩
    simp only [State.readEvent, State.writeEvent, List.mem_cons, reduceCtorEq, Event.write.injEq,
      List.not_mem_nil, or_false, false_or] at h
    exact h.2.1

/-! ### The pins that a command does not select -/

theorem pad_of_output {i : Nat} (h : s.dir b i = .output) :
    s.pad b i = if s.out b i then .high else .low := by
  rw [State.pad, h]

/-- The direction of a pin is read off its encoding (R25). -/
theorem dir_eq_of_dirCode {t : State} (hback : t.backend = s.backend) {i : Nat}
    (h : t.dirCode b i = s.dirCode b i) : t.dir b i = s.dir b i := by
  cases hs : s.ctl with
  | a c =>
    cases ht : t.ctl with
    | a d =>
      rw [dirCode_of_a ht, dirCode_of_a hs] at h
      rw [dir_of_a ht, dir_of_a hs, h]
    | b d =>
      rw [backend_b ht, backend_a hs] at hback
      cases hback
  | b c =>
    cases ht : t.ctl with
    | a d =>
      rw [backend_a ht, backend_b hs] at hback
      cases hback
    | b d =>
      rw [dirCode_of_b ht, dirCode_of_b hs] at h
      rw [dir_of_b ht, dir_of_b hs]
      revert h
      cases (d.oeWord b).getLsbD i <;> cases (c.oeWord b).getLsbD i <;> simp

theorem OutCommanded.selected {i : Instr} {p : Nat} {v : Bool} (h : OutCommanded s i b p v) :
    ∃ mask, bankMask i = some (b, mask) ∧ (s.clip b mask).getLsbD p = true := by
  obtain ⟨mask, hsel, ⟨_, rfl, -⟩ | ⟨rfl, -⟩ | ⟨rfl, -⟩⟩ := h <;> exact ⟨mask, rfl, hsel⟩

theorem DirCommanded.selected {i : Instr} {p : Nat} {d : Dir} (h : DirCommanded s i b p d) :
    ∃ mask, bankMask i = some (b, mask) ∧ (s.clip b mask).getLsbD p = true := by
  obtain ⟨mask, hsel, ⟨_, rfl, -⟩ | ⟨rfl, -⟩⟩ := h <;> exact ⟨mask, rfl, hsel⟩

/-- A pin that a command does not select keeps its output bit, its direction encoding and its direction,
completed or faulting (R69). -/
theorem exec_keeps_unselected {t : State} {i : Instr} {bank p : Nat} (hi : bankMask i = some (bank, mask))
    (hR : s.ctx = .valid → s.Reaches) (h : EndsIn (exec i s) t) (hp : s.hasPin b p = true)
    (hno : b ≠ bank ∨ (s.clip bank mask).getLsbD p = false) :
    t.out b p = s.out b p ∧ t.dirCode b p = s.dirCode b p ∧ t.dir b p = s.dir b p := by
  have hunselected :
      ¬ ∃ mask', bankMask i = some (b, mask') ∧ (s.clip b mask').getLsbD p = true := by
    rintro ⟨mask', hi', hsel⟩
    rw [hi] at hi'
    cases hi'
    rcases hno with hne | hf
    · exact hne rfl
    · rw [hf] at hsel
      cases hsel
  obtain ⟨hout, hdir⟩ := exec_keeps hR h (asCommanded_keptByWrites s i) (asCommanded_self s i) b p hp
  have hcode : t.dirCode b p = s.dirCode b p :=
    hdir.resolve_right fun hcmd => hunselected hcmd.selected
  exact ⟨hout.resolve_right fun hcmd => hunselected hcmd.selected, hcode,
    dir_eq_of_dirCode (exec_sameBoard h).backend hcode⟩

end Pins

/-! ### The obligations -/

/-- Settles O38: the level writes and then the direction writes reach the selected pins, and no write of
the command reaches another. -/
theorem setOutputContract : Obligations.SetOutputContract := by
  intro s bank mask value hr hbus
  obtain ⟨ctl, evs, hexec, hback, hpins⟩ := exec_setOutput_outputs hr hbus
  refine ⟨_, hexec, afterWriteCommand_response _ _ _, fun i hi => ?_, fun b i hp hno => ?_,
    afterWriteCommand_sameContext ctl evs hback, rfl⟩
  · obtain ⟨hout, hdir⟩ := hpins i hi
    exact ⟨hout, hdir, hout ▸ pad_of_output (s := s.afterWriteCommand ctl evs) hdir⟩
  · exact exec_keeps_unselected rfl (fun _ => hr.2.2) (.inl hexec) hp hno

/-- Settles O39: the direction writes reach the selected pins, no write of the command reaches another, and
none is to an output bit. -/
theorem setInputContract : Obligations.SetInputContract := by
  intro s bank mask hr hbus
  obtain ⟨ctl, evs, hexec, hback, hout, hdir⟩ := exec_setInput_inputs hr hbus
  refine ⟨_, hexec, afterWriteCommand_response _ _ _, fun i hi => ⟨hdir i hi, pad_of_input (hdir i hi)⟩,
    hout, fun b i hp hno => ?_, ?_, afterWriteCommand_sameContext ctl evs hback, rfl⟩
  · exact (exec_keeps_unselected rfl (fun _ => hr.2.2) (.inl hexec) hp hno).2
  · obtain ⟨ctl', evs', hexec', hwrites⟩ := exec_setInput_writes hr hbus
    rw [hexec] at hexec'
    rw [Host.Outcome.next.inj hexec']
    refine ⟨evs' ++ [.respond ⟨.ok, 0⟩], rfl, fun a r v h => hwrites a r v ?_⟩
    simpa using h

end Sys2Proof.Machine
end

section
/-! SUPPORT. The command word and the response word: what a word of each opcode decodes to (R70 to R72, R74,
R76), the word an instruction is encoded in (R77), and the response read back from its word (R73). -/

namespace Sys2Proof.Machine

/-! ### Decoding by the opcode -/

section Opcode

variable (bank : BitVec 4) (mask value : Word)

theorem decode_initializeContext : decode (packCmd 0x0 bank mask value) = .instr .initializeContext := by
  simp [decode]

theorem decode_finalizeContext : decode (packCmd 0x1 bank mask value) = .instr .finalizeContext := by
  simp [decode]

theorem decode_setOutput :
    decode (packCmd 0x2 bank mask value) = .instr (.setOutput bank.toNat mask value) := by
  simp [decode]

theorem decode_setInput :
    decode (packCmd 0x3 bank mask value) = .instr (.setInput bank.toNat mask) := by
  simp [decode]

theorem decode_getDirection :
    decode (packCmd 0x4 bank mask value) = .instr (.getDirection bank.toNat mask) := by
  simp [decode]

theorem decode_setDataout :
    decode (packCmd 0x5 bank mask value) = .instr (.setDataout bank.toNat mask) := by
  simp [decode]

theorem decode_clrDataout :
    decode (packCmd 0x6 bank mask value) = .instr (.clrDataout bank.toNat mask) := by
  simp [decode]

theorem decode_getDatain :
    decode (packCmd 0x7 bank mask value) = .instr (.getDatain bank.toNat mask) := by
  simp [decode]

theorem decode_reserved {w : Cmd} (h : 8 ≤ (Cmd.op w).toNat) : decode w = .reserved (Cmd.op w) := by
  unfold decode
  split
  case h_9 => rfl
  all_goals omega

variable {bank mask value} in
theorem opcode_of_decode {op : BitVec 4} {i : Instr}
    (h : decode (packCmd op bank mask value) = .instr i) : i.opcode = op := by
  rw [← op_packCmd op bank mask value]
  unfold decode at h
  split at h <;> cases h <;> rename_i hop <;> exact BitVec.eq_of_toNat_eq hop.symm

/-! ### Words with unused fields zero -/

theorem packCmd_and (op op' bank' : BitVec 4) (mask' value' : Word) :
    packCmd op bank mask value &&& packCmd op' bank' mask' value' =
      packCmd (op &&& op') (bank &&& bank') (mask &&& mask') (value &&& value') := by
  change ((op ++ bank ++ mask ++ value : BitVec (4 + 4 + 32 + 32)) &&&
    (op' ++ bank' ++ mask' ++ value')) = _
  simp only [BitVec.and_append, packCmd]

theorem packCmd_and_op_ones (op : BitVec 4) :
    packCmd op bank mask value &&& 0xF00000000000000000 = packCmd op 0 0 0 := by
  have hkeep : (0xF00000000000000000 : Cmd) = packCmd (.allOnes 4) 0#4 0#32 0#32 := by decide
  rw [hkeep, packCmd_and, BitVec.and_allOnes, BitVec.and_zero, BitVec.and_zero, BitVec.and_zero]
  rfl

theorem packCmd_and_bank_mask_ones (op : BitVec 4) :
    packCmd op bank mask value &&& 0xFFFFFFFFFF00000000 = packCmd op bank mask 0 := by
  have hkeep : (0xFFFFFFFFFF00000000 : Cmd) =
      packCmd (.allOnes 4) (.allOnes 4) (.allOnes 32) 0#32 := by decide
  rw [hkeep, packCmd_and, BitVec.and_allOnes, BitVec.and_allOnes, BitVec.and_allOnes, BitVec.and_zero]
  rfl

theorem ofNat_toNat_bank : BitVec.ofNat 4 bank.toNat = bank :=
  (BitVec.ofNat_toNat ..).trans (BitVec.setWidth_eq bank)

theorem bankFits_toNat : bankFits bank.toNat = true := decide_eq_true bank.isLt

/-- A well-formed bank and a mask in their fields, as the bank-and-mask operations are encoded: what is left
of a command word with its value field cleared. -/
theorem bank_mask_encoded (op : BitVec 4) : bankFits bank.toNat = true ∧
    packCmd op (.ofNat 4 bank.toNat) mask 0 = packCmd op bank mask value &&& 0xFFFFFFFFFF00000000 := by
  rw [ofNat_toNat_bank, packCmd_and_bank_mask_ones]
  exact ⟨bankFits_toNat bank, rfl⟩

end Opcode

/-! ### The response word -/

theorem Response.status_of_word (r : Response) : r.word.extractLsb' 32 4 = r.status.code :=
  BitVec.extractLsb'_append_eq_left

theorem Response.data_of_word (r : Response) : r.word.extractLsb' 0 32 = r.data :=
  BitVec.extractLsb'_append_eq_right

theorem Response.ofWord_word (r : Response) : Response.ofWord r.word = some r := by
  rw [Response.ofWord, r.status_of_word, r.data_of_word]
  obtain ⟨status, data⟩ := r
  cases status <;> rfl

theorem Response.word_of_fields {w : BitVec 36} {status : Status}
    (h : (w.extractLsb' 32 4).toNat = status.code.toNat) :
    Response.word ⟨status, w.extractLsb' 0 32⟩ = w := by
  rw [Response.word, ← BitVec.eq_of_toNat_eq h]
  exact BitVec.extractLsb'_append_extractLsb' (w := 4) (len := 32)

theorem Response.word_of_ofWord {w : BitVec 36} {r : Response} (h : Response.ofWord w = some r) :
    r.word = w := by
  unfold Response.ofWord at h
  split at h <;> cases h <;> exact Response.word_of_fields ‹_›

theorem Response.ofWord_of_unused_status {w : BitVec 36} (h : 3 ≤ (w.extractLsb' 32 4).toNat) :
    Response.ofWord w = none := by
  unfold Response.ofWord
  split
  case h_4 => rfl
  all_goals omega

/-! ### The obligations -/

/-- Settles O1: the fields of the encoding read back, and a bank that fits its field is not cut. -/
theorem decodeEncodeRoundTrip : Obligations.DecodeEncodeRoundTrip := by
  intro i hwf
  cases i with
  | initializeContext => exact decode_initializeContext ..
  | finalizeContext => exact decode_finalizeContext ..
  | setOutput => exact (decode_setOutput ..).trans (by rw [Laws.OpcodeField.bank_of_fits hwf])
  | setInput => exact (decode_setInput ..).trans (by rw [Laws.OpcodeField.bank_of_fits hwf])
  | getDirection => exact (decode_getDirection ..).trans (by rw [Laws.OpcodeField.bank_of_fits hwf])
  | setDataout => exact (decode_setDataout ..).trans (by rw [Laws.OpcodeField.bank_of_fits hwf])
  | clrDataout => exact (decode_clrDataout ..).trans (by rw [Laws.OpcodeField.bank_of_fits hwf])
  | getDatain => exact (decode_getDatain ..).trans (by rw [Laws.OpcodeField.bank_of_fits hwf])

/-- Settles O2: a packed word decodes by its opcode, and every word is packed from its own fields. -/
theorem everyWordDecodesByItsFields : Obligations.EveryWordDecodesByItsFields := by
  intro op bank mask value
  refine ⟨?_, op_packCmd .., fun w => ⟨_, _, _, _, (packCmd_fields w).symm⟩⟩
  repeat' split
  next h => exact h ▸ decode_initializeContext ..
  next h => exact h ▸ decode_finalizeContext ..
  next h => exact h ▸ decode_setOutput ..
  next h => exact h ▸ decode_setInput ..
  next h => exact h ▸ decode_getDirection ..
  next h => exact h ▸ decode_setDataout ..
  next h => exact h ▸ decode_clrDataout ..
  next h => exact h ▸ decode_getDatain ..
  next =>
    rw [decode_reserved, op_packCmd]
    rw [op_packCmd]
    bv_omega

/-- Settles O3: an instruction is decoded from a word of its own opcode, and its operands are that word's
fields. -/
theorem encodeGivesTheWordBack : Obligations.EncodeGivesTheWordBack := by
  intro w i h
  rw [← packCmd_fields w] at h ⊢
  generalize Cmd.op w = op, w.extractLsb' 64 4 = bank, Cmd.mask w = mask, Cmd.value w = value at h ⊢
  cases opcode_of_decode h
  cases i with
  | initializeContext => exact ⟨rfl, (packCmd_and_op_ones ..).symm⟩
  | finalizeContext => exact ⟨rfl, (packCmd_and_op_ones ..).symm⟩
  | setOutput =>
    cases (decode_setOutput ..).symm.trans h
    exact ⟨bankFits_toNat bank, by rw [encode, ofNat_toNat_bank]⟩
  | setInput => cases (decode_setInput ..).symm.trans h; exact bank_mask_encoded ..
  | getDirection => cases (decode_getDirection ..).symm.trans h; exact bank_mask_encoded ..
  | setDataout => cases (decode_setDataout ..).symm.trans h; exact bank_mask_encoded ..
  | clrDataout => cases (decode_clrDataout ..).symm.trans h; exact bank_mask_encoded ..
  | getDatain => cases (decode_getDatain ..).symm.trans h; exact bank_mask_encoded ..

/-- Settles O5: the two fields of the response word are read back from it, and they are all of it. -/
theorem responseWordRoundTrip : Obligations.ResponseWordRoundTrip := by
  refine ⟨fun r => ⟨?_, r.data_of_word, r.ofWord_word⟩, fun _ _ => Response.word_of_ofWord,
    fun _ => Response.ofWord_of_unused_status⟩
  exact r.status_of_word

/-- Settles O8: an opcode from 8 up decodes to a reserved one, and the step only answers it. -/
theorem reservedOpcodeOnlyAnswers : Obligations.ReservedOpcodeOnlyAnswers :=
  fun _ _ _ hs hop => step_reserved hs (decode_reserved hop)

/-- Settles O4: each word is decoded by the table of R71. -/
theorem specWordsDecode : Obligations.SpecWordsDecode := by
  unfold Obligations.SpecWordsDecode
  decide

end Sys2Proof.Machine
end

section
/-! SUPPORT. The text of a command (R77): what is written of each operand reads back, the separators are found
again, and with them the whole command. -/

namespace Sys2Proof.Machine

/-! ### Digits -/

theorem digitValue_hexDigit : ∀ n < 16, digitValue (hexDigit n) = some n := by decide

/-- The last `k` hexadecimal digits of `n`, the highest first. -/
def hexDigits (k n : Nat) : List Char := (List.range k).map fun j => hexDigit (n / 16 ^ (k - 1 - j) % 16)

theorem hexDigits_succ (k n : Nat) :
    hexDigits (k + 1) n = hexDigit (n / 16 ^ k % 16) :: hexDigits k n := by
  simp [hexDigits, List.range_succ_eq_map, Nat.sub_sub, Nat.add_comm]

theorem hexWord_eq (w : Word) : hexWord w = '0' :: 'x' :: hexDigits 8 w.toNat := rfl

theorem readDigits_hexDigits (k n acc : Nat) :
    readDigits 16 (hexDigits k n) acc = some (acc * 16 ^ k + n % 16 ^ k) := by
  induction k generalizing acc with
  | zero => simp [hexDigits, readDigits, Nat.mod_one]
  | succ k ih =>
    have hdigit : n / 16 ^ k % 16 < 16 := Nat.mod_lt _ (by decide)
    rw [hexDigits_succ, readDigits, digitValue_hexDigit _ hdigit]
    simp only [hdigit, if_true]
    rw [ih, Nat.mod_pow_succ, Nat.add_mul, Nat.mul_assoc, ← Nat.pow_succ', Nat.add_assoc,
      Nat.add_comm (n % 16 ^ k), Nat.mul_comm (16 ^ k)]

/-! ### Operands -/

theorem readWord_hexWord (w : Word) : readWord (hexWord w) = some w := by
  have hfits : w.toNat % 16 ^ 8 = w.toNat := Nat.mod_eq_of_lt w.isLt
  have hdigits := readDigits_hexDigits 8 w.toNat 0
  rw [hexDigits_succ, hfits] at hdigits
  rw [hexWord_eq, hexDigits_succ, readWord, if_pos (by simp [hexDigits]), hdigits]
  simp

theorem readBank_decimalBank {bank : Nat} (h : bankFits bank = true) :
    readBank (decimalBank bank) = some bank := by
  have hall : ∀ b < 16, readBank (decimalBank b) = some b := by decide
  exact hall bank (of_decide_eq_true h)

/-- A text with no separator in it. -/
def Unseparated (t : List Char) : Prop := ∀ c ∈ t, c ≠ ',' ∧ c ≠ ' '

theorem unseparated_hexWord (w : Word) : Unseparated (hexWord w) := by
  have hall : ∀ n < 16, hexDigit n ≠ ',' ∧ hexDigit n ≠ ' ' := by decide
  intro c hc
  simp only [hexWord, List.mem_cons, List.mem_map] at hc
  obtain rfl | rfl | ⟨k, -, rfl⟩ := hc
  · decide
  · decide
  · exact hall _ (Nat.mod_lt _ (by decide))

theorem unseparated_decimalBank (bank : Nat) : Unseparated (decimalBank bank) := by
  intro c hc
  have hdigit : c.isDigit = true := Nat.isDigit_of_mem_toDigits (by decide) (by decide) hc
  exact ⟨fun h => absurd (h ▸ hdigit) (by decide), fun h => absurd (h ▸ hdigit) (by decide)⟩

theorem unseparated_operandTexts (i : Instr) : ∀ t ∈ operandTexts i, Unseparated t := by
  cases i <;> simp [operandTexts, unseparated_hexWord, unseparated_decimalBank]

/-! ### Separators -/

theorem splitAtChar_ne_nil (c : Char) (cs : List Char) : splitAtChar c cs ≠ [] := by
  cases cs with
  | nil => simp [splitAtChar]
  | cons x xs =>
    rw [splitAtChar]
    split
    · simp
    · split <;> simp

theorem splitAtChar_cons {c x : Char} (h : x ≠ c) (xs : List Char) :
    ∃ p ps, splitAtChar c xs = p :: ps ∧ splitAtChar c (x :: xs) = (x :: p) :: ps := by
  obtain ⟨p, ps, hxs⟩ := List.exists_cons_of_ne_nil (splitAtChar_ne_nil c xs)
  exact ⟨p, ps, hxs, by rw [splitAtChar, if_neg h, hxs]⟩

theorem splitAtChar_piece {c : Char} {p : List Char} (h : ∀ x ∈ p, x ≠ c) : splitAtChar c p = [p] := by
  induction p with
  | nil => rfl
  | cons x xs ih =>
    obtain ⟨hx, hxs⟩ := List.forall_mem_cons.mp h
    rw [splitAtChar, if_neg hx, ih hxs]

theorem splitAtChar_append {c : Char} {p : List Char} (h : ∀ x ∈ p, x ≠ c) (rest : List Char) :
    splitAtChar c (p ++ c :: rest) = p :: splitAtChar c rest := by
  induction p with
  | nil => simp [splitAtChar]
  | cons x xs ih =>
    obtain ⟨hx, hxs⟩ := List.forall_mem_cons.mp h
    rw [List.cons_append, splitAtChar, if_neg hx, ih hxs]

theorem Unseparated.dropSpaces {t : List Char} (h : Unseparated t) : dropSpaces t = t := by
  cases t with
  | nil => rfl
  | cons x xs => exact List.dropWhile_cons_of_neg (by simp [(h x List.mem_cons_self).2])

/-- The operands a text holds, as the reader separates them. -/
def operandsOf (text : List Char) : List (List Char) := (splitAtChar ',' text).map dropSpaces

theorem operandsOf_space (text : List Char) : operandsOf (' ' :: text) = operandsOf text := by
  obtain ⟨p, ps, htext, hspace⟩ := splitAtChar_cons (c := ',') (x := ' ') (by decide) text
  rw [operandsOf, operandsOf, htext, hspace]
  rfl

theorem operandsOf_commaSeparated {ts : List (List Char)} (hne : ts ≠ [])
    (h : ∀ t ∈ ts, Unseparated t) : operandsOf (commaSeparated ts) = ts := by
  induction ts with
  | nil => exact absurd rfl hne
  | cons t ts ih =>
    obtain ⟨ht, hts⟩ := List.forall_mem_cons.mp h
    have hcomma : ∀ x ∈ t, x ≠ ',' := fun x hx => (ht x hx).1
    cases ts with
    | nil => rw [commaSeparated, operandsOf, splitAtChar_piece hcomma, List.map_singleton, ht.dropSpaces]
    | cons u us =>
      calc operandsOf (commaSeparated (t :: u :: us))
          = operandsOf (t ++ ',' :: ' ' :: commaSeparated (u :: us)) := rfl
        _ = dropSpaces t :: operandsOf (' ' :: commaSeparated (u :: us)) := by
            rw [operandsOf, splitAtChar_append hcomma, List.map_cons, operandsOf]
        _ = t :: u :: us := by rw [ht.dropSpaces, operandsOf_space, ih (by simp) hts]

/-! ### The command -/

theorem parseCommand_operands {name : List Char} (h : ∀ c ∈ name, c ≠ ' ') (text : List Char) :
    parseCommand (String.ofList (name ++ ' ' :: text)) = readOperation name (operandsOf text) := by
  have hname : ∀ c ∈ name, decide (c ≠ ' ') = true := fun c hc => decide_eq_true (h c hc)
  rw [parseCommand, String.toList_ofList, List.takeWhile_append_of_pos hname,
    List.dropWhile_append_of_pos hname]
  simp [operandsOf]

theorem mnemonic_no_space (i : Instr) : ∀ c ∈ (mnemonic i).toList, c ≠ ' ' := by
  cases i <;> simp [mnemonic]

theorem commandText_of_operands {i : Instr} (h : operandTexts i ≠ []) :
    commandText i = String.ofList ((mnemonic i).toList ++ ' ' :: commaSeparated (operandTexts i)) := by
  rw [commandText]
  split
  · contradiction
  · rfl

theorem readOperation_operandTexts {i : Instr} (hwf : i.wf = true) (h : operandTexts i ≠ []) :
    readOperation (mnemonic i).toList (operandTexts i) = some i := by
  cases i with
  | initializeContext => exact absurd rfl h
  | finalizeContext => exact absurd rfl h
  | _ =>
    simp [readOperation, mnemonic, operandTexts, readBankMask, readSetOutput, readWord_hexWord,
      readBank_decimalBank hwf]

theorem parseCommand_commandText {i : Instr} (hwf : i.wf = true) :
    parseCommand (commandText i) = some i := by
  by_cases h : operandTexts i = []
  · cases i with
    | initializeContext => decide
    | finalizeContext => decide
    | _ => simp [operandTexts] at h
  · rw [commandText_of_operands h, parseCommand_operands (mnemonic_no_space i),
      operandsOf_commaSeparated h (unseparated_operandTexts i), readOperation_operandTexts hwf h]

/-! ### The obligation -/

/-- Settles O6: the mnemonic ends at the first space, and each operand reads back from between its
separators. -/
theorem commandTextRoundTrip : Obligations.CommandTextRoundTrip := by
  intro i hwf
  have hparse := parseCommand_commandText hwf
  exact ⟨hparse, by rw [assemble, hparse]; rfl⟩

end Sys2Proof.Machine
end

section
/-! SUPPORT. Where each command of the lifecycle leads (R85), and the whole next state of `initialize` and of
`finalize` (R82 to R84). -/

namespace Sys2Proof.Machine

/-! ### The lifecycle commands by `CTX` -/

theorem execInitialize_of_context {s : State} (h : s.ctx = .valid) :
    execInitialize s = .refused .contextExists := by
  simp [execInitialize, h]

theorem execInitialize_of_noContext {s : State} (h : s.ctx = .none) :
    execInitialize s = .next (openContext s) := by
  simp [execInitialize, h]

theorem execFinalize_of_noContext {s : State} (h : s.ctx = .none) :
    execFinalize s = .refused .noContext := by
  simp [execFinalize, h]

theorem execFinalize_of_context {s : State} (h : s.ctx = .valid) :
    execFinalize s = .next ((releaseAll s).loseError.respond .ok 0) := by
  simp [execFinalize, h]

theorem execInitialize_refused_iff (s : State) :
    (∃ r, execInitialize s = .refused r) ↔ s.ctx = .valid := by
  cases hc : s.ctx with
  | none => simp [execInitialize_of_noContext hc]
  | valid => simp [execInitialize_of_context hc]

theorem execFinalize_refused_iff (s : State) :
    (∃ r, execFinalize s = .refused r) ↔ s.ctx = .none := by
  cases hc : s.ctx with
  | none => simp [execFinalize_of_noContext hc]
  | valid => simp [execFinalize_of_context hc]

/-! ### The preconditions of a per-bank command -/

/-- When what follows the preconditions never refuses, the preconditions alone decide (R90, R123). -/
theorem withBank_refused_iff {s : State} {b : Nat} {run : State → Host.Outcome State Fault Refusal}
    (hrun : ∀ r, run s ≠ .refused r) :
    (∃ r, withBank b s run = .refused r) ↔ s.ctx = .none ∨ nbanks s.backend ≤ b := by
  cases hc : s.ctx with
  | none => simp [withBank, hc]
  | valid =>
    by_cases hb : b < nbanks s.backend
    · simp [withBank, hc, hb, hrun]
    · simp [withBank, hc, hb, Nat.le_of_not_lt hb]

section PerBank

variable {s : State} {i : Instr} {b : Nat} {mask : Word} (hi : bankMask i = some (b, mask))
include hi

theorem undefinedHere_perBank : undefinedHere s i ↔ s.ctx = .none ∨ nbanks s.backend ≤ b := by
  cases i with
  | initializeContext => cases hi
  | finalizeContext => cases hi
  | _ =>
    cases hi
    rfl

theorem exec_perBank_refused_iff : (∃ r, exec i s = .refused r) ↔ undefinedHere s i := by
  obtain ⟨run, hexec, hend⟩ := exec_perBank hi
  rw [hexec, undefinedHere_perBank hi]
  exact withBank_refused_iff (hend s).not_refused

/-- A per-bank command leaves the context there that it needed (R85, R90). -/
theorem exec_perBank_keeps_context {t : State} (h : EndsIn (exec i s) t) : t.ctx = .valid := by
  obtain ⟨run, hexec, hend⟩ := exec_perBank hi
  obtain ⟨hctx, -, h⟩ := withBank_endsIn (hexec s ▸ h)
  exact ((hend s).sameMap h).2.trans hctx

end PerBank

theorem exec_refused_iff (i : Instr) (s : State) : (∃ r, exec i s = .refused r) ↔ undefinedHere s i := by
  cases hi : bankMask i with
  | none =>
    rcases bankMask_eq_none hi with rfl | rfl
    · exact execInitialize_refused_iff s
    · exact execFinalize_refused_iff s
  | some bm => exact exec_perBank_refused_iff hi

/-! ### Responses -/

@[simp] theorem State.response_respond (s : State) (st : Status) (d : Word) :
    (s.respond st d).response = some ⟨st, d⟩ := by
  simp [State.response]

/-- `initialize` leads to a context, or reports the failure and leaves none (R83, R85). -/
theorem openContext_leads (s : State) :
    ((openContext s).ctx = .valid ∧ (openContext s).response = some ⟨.ok, 0⟩) ∨
      ((openContext s).ctx = .none ∧ ∃ e, (openContext s).response = some ⟨.mapFail, e⟩) := by
  rw [openContext]
  cases mapFrom 0 s.windows s with
  | allMapped u => exact .inl ⟨rfl, State.response_respond _ _ _⟩
  | failedWith e u => exact .inr ⟨rfl, e.val, State.response_respond _ _ _⟩

/-! ### The release of the regions mapped -/

/-- Regions mapped with the handles `hs`, the rest not mapped: the release unmaps those (R82). -/
theorem releaseEvents_handles (ws : List Window) :
    ∀ (hs : List Addr) (rs : List Region), (∀ r ∈ rs, r = .unmapped) →
      releaseEvents ws (hs.map .mapped ++ rs) = unmapEvents ws hs := by
  induction ws with
  | nil => intro hs rs _; simp [releaseEvents, unmapEvents]
  | cons w ws ih =>
    intro hs rs hun
    cases hs with
    | cons h hs =>
      have hrest := ih hs rs hun
      simpa [releaseEvents, unmapEvents] using hrest
    | nil =>
      cases rs with
      | nil => rfl
      | cons r rs =>
        obtain rfl := hun r List.mem_cons_self
        have hrest := ih [] rs fun r' hr' => hun r' (List.mem_cons_of_mem _ hr')
        simpa [releaseEvents, unmapEvents] using hrest

theorem length_unmapEvents {ws : List Window} {hs : List Addr} (h : hs.length ≤ ws.length) :
    (unmapEvents ws hs).length = hs.length := by
  rw [unmapEvents, List.length_zipWith, Nat.min_eq_right h]

/-- `release_all()` when the first regions are mapped with the handles `hs` and the others are not
(R82). -/
theorem releaseAll_handles {s : State} {hs : List Addr} {rs : List Region}
    (hreg : s.regions = hs.map .mapped ++ rs) (hun : ∀ r ∈ rs, r = .unmapped)
    (hlen : s.regions.length = s.windows.length) :
    ∃ e, releaseAll s =
      { s with
        ctx := .none
        regions := List.replicate s.windows.length .unmapped
        bankBase := []
        platErr := e
        trace := s.trace ++ unmapEvents s.windows hs
        moment := s.moment + hs.length } := by
  obtain ⟨e, he⟩ := releaseAll_eq hlen
  have hle : hs.length ≤ s.windows.length := by simp [← hlen, hreg]
  have hevents : releaseEvents s.windows s.regions = unmapEvents s.windows hs := by
    rw [hreg, releaseEvents_handles _ _ _ hun]
  exact ⟨e, by rw [he, hevents, length_unmapEvents hle]⟩

/-- MapFailure, likewise: the code of the request that failed outlives the release (R83, R121). -/
theorem takeMapFailure_handles (e : ErrCode) {s : State} {ws : List Window} {hs : List Addr}
    {rs : List Region} (hwin : s.windows = ws) (hreg : s.regions = hs.map .mapped ++ rs)
    (hun : ∀ r ∈ rs, r = .unmapped) (hlen : s.regions.length = ws.length) :
    takeMapFailure e s =
      { s with
        ctx := .none
        regions := List.replicate ws.length .unmapped
        bankBase := []
        platErr := e.val
        trace := s.trace ++ unmapEvents ws hs ++ [.respond ⟨.mapFail, e.val⟩]
        moment := s.moment + hs.length + 1 } := by
  subst hwin
  obtain ⟨e', he⟩ := releaseAll_handles hreg hun hlen
  rw [takeMapFailure, he]
  rfl

/-- Windows beyond the handles get no request. -/
theorem grantEvents_take (ws : List Window) (hs : List Addr) :
    grantEvents (ws.take hs.length) hs = grantEvents ws hs := by
  induction hs generalizing ws with
  | nil => simp [grantEvents]
  | cons h hs ih =>
    cases ws with
    | nil => rfl
    | cons w ws => exact congrArg (List.cons _) (ih ws)

/-! ### The regions of a state without a context -/

theorem eq_unmapped_of_isMapped {r : Region} (h : r.isMapped = false) : r = .unmapped := by
  cases r with
  | unmapped => rfl
  | mapped _ => cases h

/-- Without a context every region record is "not mapped" (R22, R82). -/
theorem regions_of_noContext {s : State} (hinv : s.ContextInv) (hctx : s.ctx = .none) :
    s.regions = List.replicate s.windows.length .unmapped := by
  obtain ⟨hlen, -, hnone⟩ := hinv
  exact List.eq_replicate_iff.mpr ⟨hlen, fun r hr => eq_unmapped_of_isMapped ((hnone hctx).1 r hr)⟩

/-! ### What `initialize` leaves -/

section Open

variable {s : State} {hs : List Addr}

/-- Every request granted (R83). -/
theorem openContext_granted (hlen : s.regions.length = s.windows.length)
    (hl : hs.length = s.windows.length) (hg : s.Grants hs) :
    openContext s = { s with
      ctx := .valid
      regions := hs.map .mapped
      bankBase := s.basesFrom hs
      platErr := Config.freeError (s.moment + hs.length)
      mapAnswers := s.mapAnswers.drop hs.length
      trace := s.trace ++ (grantEvents s.windows hs ++ [.respond ⟨.ok, 0⟩])
      moment := s.moment + (hs.length + 1) } := by
  have hrun : mapFrom 0 s.windows s = _ := mapFrom_granted s.windows hs [] s.regions s hl hlen rfl hg
  rw [openContext, hrun]
  dsimp only
  rw [derivedBases_of_handles (hs := hs) rfl, ← hl, ← List.append_assoc]
  rfl

/-- The first ones granted and the next refused with code `e` (R83). -/
theorem openContext_failed {e : ErrCode} (hinv : s.ContextInv) (hctx : s.ctx = .none)
    (hlt : hs.length < s.windows.length) (hg : s.Grants hs) (hfail : s.answerAt hs.length = .fail e) :
    openContext s = { s with
      platErr := e.val
      mapAnswers := s.mapAnswers.drop (hs.length + 1)
      trace := s.trace ++ (grantEvents s.windows hs
        ++ [.map (s.windows[hs.length]).base (s.windows[hs.length]).len (.fail e)]
        ++ unmapEvents s.windows hs ++ [.respond ⟨.mapFail, e.val⟩])
      moment := s.moment + (2 * hs.length + 2) } := by
  have hregs := regions_of_noContext hinv hctx
  obtain ⟨hlen, -, hnone⟩ := hinv
  obtain ⟨-, hbase⟩ := hnone hctx
  have hrest : ∀ r ∈ s.regions.drop hs.length, r = .unmapped := fun r hr =>
    List.eq_of_mem_replicate (hregs ▸ List.mem_of_mem_drop hr)
  have hrun : mapFrom 0 s.windows s = _ :=
    mapFrom_refused e s.windows hs [] s.regions s hlt hlen rfl hg hfail
  have hmoment : s.moment + (hs.length + 1) + hs.length + 1 = s.moment + (2 * hs.length + 2) := by omega
  rw [openContext, hrun]
  refine Eq.trans (takeMapFailure_handles e (ws := s.windows) rfl rfl hrest ?_) ?_
  · simp only [List.nil_append, List.length_append, List.length_map, List.length_drop, hlen]
    exact Nat.add_sub_of_le (Nat.le_of_lt hlt)
  · simp only [hctx, hbase, ← hregs, hmoment, grantEvents_take, List.append_assoc]

end Open

/-! ### The obligations -/

/-- Settles O12: the mapping loop in closed form, and after a failure the release of what it mapped, which
leaves the region records as they were. -/
theorem initializeMapsOrReleases : Obligations.InitializeMapsOrReleases := by
  intro s
  refine ⟨execInitialize_of_context, fun hctx hinv hs hg => ⟨fun hl => ?_, fun e hlt hfail => ?_⟩⟩
  · exact (execInitialize_of_noContext hctx).trans
      (congrArg _ (openContext_granted hinv.1 hl hg))
  · exact (execInitialize_of_noContext hctx).trans
      (congrArg _ (openContext_failed hinv hctx hlt hg hfail))

/-- Settles O13: the release of every region, then the response. -/
theorem finalizeReleasesEverything : Obligations.FinalizeReleasesEverything := by
  intro s
  refine ⟨execFinalize_of_noContext, fun hctx hs hreg hl => ?_⟩
  have hlen : s.regions.length = s.windows.length := by rw [hreg, List.length_map, hl]
  obtain ⟨e, he⟩ := releaseAll_handles (hreg.trans (List.append_nil _).symm) (by simp) hlen
  refine (execFinalize_of_context hctx).trans ?_
  rw [he, ← hl, ← List.append_assoc, List.map_const']
  rfl

/-- Settles O11: the preconditions alone refuse a command; a per-bank command keeps its context, and the
lifecycle commands make one or end it. -/
theorem lifecycleTable : Obligations.LifecycleTable := by
  refine ⟨fun s i => ⟨exec_refused_iff i s, fun t ht => ?_⟩, fun s w rest hs hop => ?_⟩
  · cases i with
    | initializeContext =>
      obtain ⟨-, rfl⟩ := execInitialize_endsIn (.inl ht)
      exact openContext_leads s
    | finalizeContext =>
      obtain ⟨-, rfl⟩ := execFinalize_endsIn (.inl ht)
      rfl
    | _ => exact exec_perBank_keeps_context rfl (.inl ht)
  · exact ⟨_, step_reserved hs (decode_reserved hop), rfl, State.response_respond _ _ _⟩

end Sys2Proof.Machine
end

section
/-! SUPPORT. The exact next state of `get_direction` (R97 to R99), and that a per-bank command whose accesses the
bus does not all complete ends in a bus fault (R122). -/

namespace Sys2Proof.Machine

/-! ### A bus that does not complete every access -/

/-- A program of accesses that answers on a sound bus, having made the accesses `evs`, ends in a bus fault on
a bus that fails at one of them (R122). -/
theorem CommandRun.faults_of_short {ok : Reg → Prop} {run : State → Host.Outcome State Fault Refusal}
    (hrun : CommandRun ok run) {s t : State} {evs : List Event} {r : Response} {k : Nat}
    (hsound : run (s.withBus none) = .next t) (htrace : t.trace = s.trace ++ (evs ++ [.respond r]))
    (hk : s.busLife = some k) (hlt : k < evs.length) : ∃ left, run s = .fault (.busFault left) := by
  cases hrun with
  | @mk _ f fin hf hfin =>
    dsimp only at hsound ⊢
    cases hx : f (s.withBus none) with
    | failed u =>
      rw [hx, hfin.failed] at hsound
      cases hsound
    | done v u =>
      obtain ⟨t', r', hdone, hresp⟩ := hfin.done v u
      rw [hx, hdone] at hsound
      cases hsound
      have hu : u.trace = s.trace ++ evs :=
        (List.append_inj' (hresp.symm.trans (htrace.trans (List.append_assoc _ _ _).symm)) rfl).1
      obtain ⟨left, hfailed, -⟩ := hf.uniform.failed_of_short hx hu hk hlt
      exact ⟨left, by rw [hfailed, hfin.failed]⟩

section Direction

variable {s : State} {b : Nat} {mask : Word}

/-- A per-bank command that answers on a sound bus, having made the accesses `evs`, ends in a bus fault where
the bus does not complete as many (R122). -/
theorem exec_faults_of_short {i : Instr} {t : State} {evs : List Event} {r : Response}
    (hi : bankMask i = some (b, mask)) (hr : s.Ready b) (hsound : exec i (s.withBus none) = .next t)
    (htrace : t.trace = s.trace ++ (evs ++ [.respond r])) (hbus : ¬ s.BusCompletes evs.length) :
    ∃ left, exec i s = .fault (.busFault left) := by
  obtain ⟨run, hrun, hexec⟩ := exec_runsThrough (mask := mask) hi hr.2.1
  obtain ⟨k, hk, hlt⟩ := not_busCompletes hbus
  rw [hexec (s.withBus none) ⟨rfl, rfl⟩, withBank_ready (s := s.withBus none) hr] at hsound
  rw [hexec s ⟨rfl, rfl⟩, withBank_ready hr]
  exact hrun.faults_of_short hsound htrace hk hlt

theorem length_flatMap_rmwEvents (s : State) (c : CtlA) (b : Nat) (code m : Word) (l : List Nat) :
    (l.flatMap (s.rmwEvents c b code m)).length = 2 * l.length := by
  induction l with
  | nil => rfl
  | cons i l ih =>
    have htwo : (s.rmwEvents c b code m i).length = 2 := rfl
    rw [List.flatMap_cons, List.length_append, ih, htwo, List.length_cons]
    omega

theorem length_directionEvents (s : State) (c : CtlA) (b : Nat) (code m : Word) :
    (s.directionEvents c b code m).length = 2 * (selectedPins m).length :=
  length_flatMap_rmwEvents s c b code m (selectedPins m)

/-! ### get_direction -/

theorem exec_getDirection_done_A {c : CtlA} (hc : s.ctl = .a c) (hr : s.Ready b)
    (hbus : s.BusCompletes (selectedPins (s.clip b mask)).length) :
    exec (.getDirection b mask) s = .next (s.afterReadCommand
      ((selectedPins (s.clip b mask)).map fun i =>
        s.readEvent (.fsel (pinPlace b i).word) (c.fselWord (pinPlace b i).word)) 0
      (directionResult c b (selectedPins (s.clip b mask)) s.moment 0)) := by
  have hA := backend_a hc
  have ⟨_, hb, hR⟩ := hr
  rw [selectedPins_eq] at hbus ⊢
  rw [exec, execGetDirection, withBank_ready hr]
  simp only [hA]
  rw [getDirectionA, pinsAscending, List.range_eq_range',
    readDirections_done b _ (clip_word_lt hA (bank_lt_two hA hb) mask) 32 0 0 s hc hR hbus]
  exact finishRead_done 0 s.pinIn rfl

theorem exec_getDirection_done_B {c : CtlB} (hc : s.ctl = .b c) (hr : s.Ready b) (hbus : s.BusCompletes 1) :
    exec (.getDirection b mask) s = .next (s.afterReadCommand [s.readEvent (.oe b) (c.oeWord b)] 0
      (c.oeWord b &&& s.clip b mask)) := by
  have hB := backend_b hc
  have ⟨_, hb, hR⟩ := hr
  have hread := regRead_done (r := .oe b) (v := c.oeWord b) hR
    (by rw [hB]; exact oe_mem (bank_lt_six hB hb)) (by rw [State.regValue, hc]) hbus
  rw [exec, execGetDirection, withBank_ready hr]
  simp only [hB]
  rw [getDirectionB, hread, Access.andThen_done]
  exact finishRead_done 0 s.pinIn rfl

/-- The one read fails, and nothing was done before it (R122). -/
theorem exec_getDirection_failed_B {c : CtlB} (hc : s.ctl = .b c) (hr : s.Ready b)
    (hbus : ¬ s.BusCompletes 1) : exec (.getDirection b mask) s = .fault (.busFault s) := by
  have hB := backend_b hc
  rw [exec, execGetDirection, withBank_ready hr]
  simp only [hB]
  rw [getDirectionB, regRead_failed_one _ hbus, Access.andThen_failed, finishRead]

/-! ### The bits `get_direction` answers -/

/-- The word `r` answers `get_direction` for the pins `m` of bank `b` (R97). -/
def DirectionAnswer (s : State) (b : Nat) (m r : Word) : Prop :=
  ∀ i, (m.getLsbD i = false → r.getLsbD i = false) ∧
    (m.getLsbD i = true →
      (s.dir b i = .output → r.getLsbD i = true) ∧ (s.dir b i = .input → r.getLsbD i = false))

theorem mem_selectedPins {m : Word} {i : Nat} : i ∈ selectedPins m ↔ m.getLsbD i = true := by
  simp only [selectedPins, pinsAscending, List.mem_filter, List.mem_range, and_iff_right_iff_imp]
  exact BitVec.lt_of_getLsbD

theorem nodup_selectedPins (m : Word) : (selectedPins m).Nodup := List.nodup_range.filter _

/-- The bits of the reading loop: those of listed pins only, and each by its field (R98). -/
theorem directionAnswer_A {c : CtlA} (hc : s.ctl = .a c) (m : Word) (n : Nat) :
    DirectionAnswer s b m (directionResult c b (selectedPins m) n 0) := by
  have h32 : ∀ i ∈ selectedPins m, i < 32 := fun i hi => BitVec.lt_of_getLsbD (mem_selectedPins.mp hi)
  intro i
  rw [dir_output_iff_a hc, dir_input_iff_a hc]
  refine ⟨fun hm => ?_, fun hm => ?_⟩
  · have hno : i ∉ selectedPins m := fun hi => by simp [mem_selectedPins.mp hi] at hm
    exact (directionResult_other c b i _ n 0 h32 hno).trans BitVec.getLsbD_zero
  · have hlisted := directionResult_listed c b i _ n 0 h32 (nodup_selectedPins m)
      (mem_selectedPins.mpr hm) BitVec.getLsbD_zero
    exact ⟨fun hf => by rw [hlisted (.inl hf), decide_eq_true hf],
      fun hf => by rw [hlisted (.inr hf), hf, decide_eq_false fselOut_ne_fselIn.symm]⟩

theorem directionAnswer_B {c : CtlB} (hc : s.ctl = .b c) (m : Word) :
    DirectionAnswer s b m (c.oeWord b &&& m) := by
  intro i
  rw [dir_output_iff_b hc, dir_input_iff_b hc, BitVec.getLsbD_and]
  exact ⟨fun hm => by rw [hm, Bool.and_false], fun hm => by simp [hm]⟩

/-- `get_direction` on a ready bank, either backend: the answer, and nothing else changed but the ports
(R97). -/
theorem exec_getDirection_answers (hr : s.Ready b)
    (hbus : s.BusCompletes (accessCount s (.getDirection b mask))) :
    ∃ evs r, exec (.getDirection b mask) s = .next (s.afterReadCommand evs 0 r) ∧
      DirectionAnswer s b (s.clip b mask) r := by
  cases hc : s.ctl with
  | a c =>
    rw [accessCount, backend_a hc] at hbus
    exact ⟨_, _, exec_getDirection_done_A hc hr hbus, directionAnswer_A hc _ _⟩
  | b c =>
    rw [accessCount, backend_b hc] at hbus
    exact ⟨_, _, exec_getDirection_done_B hc hr hbus, directionAnswer_B hc _⟩

end Direction

/-! ### The obligations -/

/-- Settles O26: the level writes and the direction loop in closed form, and the fault from their number. -/
theorem setOutputOnBackendA : Obligations.SetOutputOnBackendA := by
  intro s c bank mask value hc hr
  refine ⟨exec_setOutput_done_A hc hr, fun hbus => ?_⟩
  exact exec_faults_of_short rfl hr
    (exec_setOutput_done_A (s := s.withBus none) hc hr (busCompletes_of_sound rfl _)) rfl
    (by rwa [List.length_append, length_directionEvents])

/-- Settles O27: the direction loop in closed form, and the fault from the number of its accesses. -/
theorem setInputOnBackendA : Obligations.SetInputOnBackendA := by
  intro s c bank mask hc hr
  refine ⟨exec_setInput_done_A hc hr, fun hbus => ?_⟩
  exact exec_faults_of_short rfl hr
    (exec_setInput_done_A (s := s.withBus none) hc hr (busCompletes_of_sound rfl _)) rfl
    (by rwa [length_directionEvents])

/-- Settles O28: the reading loop in closed form, its bits by the fields read. -/
theorem getDirectionOnBackendA : Obligations.GetDirectionOnBackendA := by
  intro s c bank mask hc hr
  refine ⟨fun hbus => ⟨_, exec_getDirection_done_A hc hr hbus, fun i => ?_⟩, fun hbus => ?_⟩
  · obtain ⟨hno, hsel⟩ := directionAnswer_A (b := bank) hc (s.clip bank mask) s.moment i
    rw [dir_output_iff_a hc, dir_input_iff_a hc] at hsel
    exact ⟨hno, fun hm => (hsel hm).1, fun hm => (hsel hm).2⟩
  · exact exec_faults_of_short rfl hr
      (exec_getDirection_done_A (s := s.withBus none) hc hr (busCompletes_of_sound rfl _)) rfl
      (by rwa [List.length_map])

/-- Settles O32: the level writes and the read-modify-write of output-enable, four accesses. -/
theorem setOutputOnBackendB : Obligations.SetOutputOnBackendB := by
  intro s c bank mask value hc hr
  refine ⟨exec_setOutput_done_B hc hr, fun hbus => ?_⟩
  exact exec_faults_of_short rfl hr
    (exec_setOutput_done_B (s := s.withBus none) hc hr (busCompletes_of_sound rfl _)) rfl hbus

/-- Settles O33: the read-modify-write of output-enable, two accesses. -/
theorem setInputOnBackendB : Obligations.SetInputOnBackendB := by
  intro s c bank mask hc hr
  refine ⟨exec_setInput_done_B hc hr, fun hbus => ?_⟩
  exact exec_faults_of_short rfl hr
    (exec_setInput_done_B (s := s.withBus none) hc hr (busCompletes_of_sound rfl _)) rfl hbus

/-- Settles O34: one read, which completes or leaves the state as it was. -/
theorem getDirectionOnBackendB : Obligations.GetDirectionOnBackendB := fun _ _ _ _ hc hr =>
  ⟨exec_getDirection_done_B hc hr, exec_getDirection_failed_B hc hr⟩

/-- Settles O40: the reading loop and the masked output-enable word give the same answer pin by pin. -/
theorem getDirectionContract : Obligations.GetDirectionContract := by
  intro s bank mask hr hbus
  obtain ⟨evs, r, hexec, hanswer⟩ := exec_getDirection_answers hr hbus
  exact ⟨_, r, hexec, afterReadCommand_response _ _ _ _, hanswer, rfl, rfl, rfl,
    afterReadCommand_sameContext _ _ _ _⟩

end Sys2Proof.Machine
end

section
/-! SUPPORT. Direction commands in sequence: what `get_direction` reports of the others (R100 (a), (b)), and that
repeating one sets nothing new (R100 (e)). -/

namespace Sys2Proof.Machine

/-! ### The same levels, the same directions again -/

theorem withLevels_withLevels (old m value : Word) :
    withLevels (withLevels old m value) m value = withLevels old m value := by
  apply word_ext
  intro i _
  rw [withLevels_getLsbD, withLevels_getLsbD]
  split <;> rfl

theorem CtlA.withLevels_withLevels (c : CtlA) {b : Nat} (hb : b < 2) (m value : Word) :
    (c.withLevels b m value).withLevels b m value = c.withLevels b m value := by
  rw [CtlA.withLevels, CtlA.withLevels, CtlA.latchWord_setLatch _ _ _ _ hb, if_pos rfl,
    CtlA.setLatch_setLatch, Machine.withLevels_withLevels]

theorem CtlB.withLevels_withLevels (c : CtlB) {b : Nat} (hb : b < 6) (m value : Word) :
    (c.withLevels b m value).withLevels b m value = c.withLevels b m value := by
  rw [CtlB.withLevels, CtlB.withLevels, CtlB.dataOutWord_setDataOut _ _ _ _ hb, if_pos rfl,
    CtlB.setDataOut_setDataOut, Machine.withLevels_withLevels]

theorem CtlA.withDirections_withDirections (c : CtlA) (b : Nat) (code m : Word) :
    (c.withDirections b code m).withDirections b code m = c.withDirections b code m := by
  refine CtlA.eq_of_words (fun w hw => word_ext fun j hj => ?_) fun b' _ => by
    simp only [CtlA.latchWord_withDirections]
  rw [CtlA.fselWord_withDirections_getLsbD _ _ _ _ _ _ hw hj,
    CtlA.fselWord_withDirections_getLsbD _ _ _ _ _ _ hw hj]
  split <;> rfl

theorem CtlA.withDirections_withLevels (c : CtlA) (b b' : Nat) (code m m' value : Word) :
    (c.withDirections b code m).withLevels b' m' value
      = (c.withLevels b' m' value).withDirections b code m := rfl

theorem CtlB.setOe_setOe (c : CtlB) (b : Nat) (x y : Word) : (c.setOe b x).setOe b y = c.setOe b y := by
  simp only [CtlB.setOe, setIfInBounds_twice]

theorem CtlB.setOe_withLevels (c : CtlB) (b b' : Nat) (x m value : Word) :
    (c.setOe b x).withLevels b' m value = (c.withLevels b' m value).setOe b x := rfl

/-- What `set_output` of the pins `m` makes of the controller (R92, R93). -/
def Controller.asOutputs (b : Nat) (m value : Word) : Controller → Controller
  | .a c => .a ((c.withLevels b m value).withDirections b fselOut m)
  | .b c => .b ((c.withLevels b m value).setOe b (c.oeWord b ||| m))

/-- What `set_input` of the pins `m` makes of the controller (R95, R96). -/
def Controller.asInputs (b : Nat) (m : Word) : Controller → Controller
  | .a c => .a (c.withDirections b fselIn m)
  | .b c => .b (c.setOe b (c.oeWord b &&& ~~~m))

section Twice

variable {s : State} {b : Nat} {mask value : Word}

theorem asOutputs_asOutputs (hb : b < nbanks s.backend) (m value : Word) :
    (s.ctl.asOutputs b m value).asOutputs b m value = s.ctl.asOutputs b m value := by
  cases hc : s.ctl with
  | a c =>
    have hb2 : b < 2 := bank_lt_two (backend_a hc) hb
    rw [Controller.asOutputs, Controller.asOutputs, CtlA.withDirections_withLevels,
      CtlA.withLevels_withLevels c hb2, CtlA.withDirections_withDirections]
  | b c =>
    have hb6 : b < 6 := bank_lt_six (backend_b hc) hb
    rw [Controller.asOutputs, Controller.asOutputs, CtlB.setOe_withLevels, CtlB.setOe_setOe,
      CtlB.withLevels_withLevels c hb6, CtlB.oeWord_setOe _ _ _ _ hb6, if_pos rfl, BitVec.or_assoc,
      BitVec.or_self]

theorem asInputs_asInputs (hb : b < nbanks s.backend) (m : Word) :
    (s.ctl.asInputs b m).asInputs b m = s.ctl.asInputs b m := by
  cases hc : s.ctl with
  | a c => rw [Controller.asInputs, Controller.asInputs, CtlA.withDirections_withDirections]
  | b c =>
    have hb6 : b < 6 := bank_lt_six (backend_b hc) hb
    rw [Controller.asInputs, Controller.asInputs, CtlB.setOe_setOe, CtlB.oeWord_setOe _ _ _ _ hb6,
      if_pos rfl, BitVec.and_assoc, BitVec.and_self]

theorem exec_setOutput_asOutputs (hr : s.Ready b)
    (hbus : s.BusCompletes (accessCount s (.setOutput b mask value))) :
    ∃ evs, exec (.setOutput b mask value) s
      = .next (s.afterWriteCommand (s.ctl.asOutputs b (s.clip b mask) value) evs) := by
  cases hc : s.ctl with
  | a c =>
    rw [accessCount, backend_a hc] at hbus
    exact ⟨_, exec_setOutput_done_A hc hr hbus⟩
  | b c =>
    rw [accessCount, backend_b hc] at hbus
    exact ⟨_, exec_setOutput_done_B hc hr hbus⟩

theorem exec_setInput_asInputs (hr : s.Ready b)
    (hbus : s.BusCompletes (accessCount s (.setInput b mask))) :
    ∃ evs, exec (.setInput b mask) s
      = .next (s.afterWriteCommand (s.ctl.asInputs b (s.clip b mask)) evs) := by
  cases hc : s.ctl with
  | a c =>
    rw [accessCount, backend_a hc] at hbus
    exact ⟨_, exec_setInput_done_A hc hr hbus⟩
  | b c =>
    rw [accessCount, backend_b hc] at hbus
    exact ⟨_, exec_setInput_done_B hc hr hbus⟩

/-- A command that makes `f` of the controller, wherever the context is as in `s`, sets nothing new when it is
repeated, if `f` does not (R100 (e)). -/
theorem exec_repeated {i : Instr} {f : Controller → Controller} (hsound : s.busLife = none)
    (hexec : ∀ u, s.SameContext u → u.busLife = none →
      ∃ evs, exec i u = .next (u.afterWriteCommand (f u.ctl) evs))
    (hback : (s.withCtl (f s.ctl)).backend = s.backend) (hf : f (f s.ctl) = f s.ctl) :
    ∃ t u, exec i s = .next t ∧ exec i t = .next u ∧ u.ctl = t.ctl := by
  obtain ⟨evs, ht⟩ := hexec s ⟨rfl, rfl, rfl, rfl, rfl, rfl, rfl⟩ hsound
  obtain ⟨evs', hu⟩ := hexec _ (afterWriteCommand_sameContext (f s.ctl) evs hback)
    (afterWriteCommand_sound hsound _ evs)
  exact ⟨_, _, ht, hu, hf⟩

theorem backend_asOutputs (s : State) (b : Nat) (m value : Word) :
    (s.withCtl (s.ctl.asOutputs b m value)).backend = s.backend := by
  rw [State.backend, State.backend]
  cases s.ctl <;> rfl

theorem backend_asInputs (s : State) (b : Nat) (m : Word) :
    (s.withCtl (s.ctl.asInputs b m)).backend = s.backend := by
  rw [State.backend, State.backend]
  cases s.ctl <;> rfl

/-! ### get_direction after a write -/

/-- `get_direction` after a command that made `ctl` of the controller answers the directions there. -/
theorem exec_getDirection_afterWriteCommand {ctl : Controller} (evs : List Event) (hr : s.Ready b)
    (hsound : s.busLife = none) (hback : (s.withCtl ctl).backend = s.backend) :
    ∃ u r, exec (.getDirection b mask) (s.afterWriteCommand ctl evs) = .next u ∧
      u.response = some ⟨.ok, r⟩ ∧ DirectionAnswer (s.withCtl ctl) b (s.clip b mask) r := by
  have hcontext := afterWriteCommand_sameContext ctl evs hback
  obtain ⟨evs', r, hexec, hanswer⟩ := exec_getDirection_answers (mask := mask) (hcontext.ready hr)
    (busCompletes_of_sound (afterWriteCommand_sound hsound ctl evs) _)
  rw [hcontext.clip] at hanswer
  exact ⟨_, r, hexec, afterReadCommand_response _ _ _ _, hanswer⟩

theorem DirectionAnswer.eq_mask {m r : Word} (h : DirectionAnswer s b m r)
    (hout : ∀ i, m.getLsbD i = true → s.dir b i = .output) : r = m := by
  apply word_ext
  intro i _
  cases hm : m.getLsbD i with
  | false => exact (h i).1 hm
  | true => exact ((h i).2 hm).1 (hout i hm)

theorem DirectionAnswer.eq_zero {m r : Word} (h : DirectionAnswer s b m r)
    (hin : ∀ i, m.getLsbD i = true → s.dir b i = .input) : r = 0 := by
  apply word_ext
  intro i _
  refine Eq.trans ?_ BitVec.getLsbD_zero.symm
  cases hm : m.getLsbD i with
  | false => exact (h i).1 hm
  | true => exact ((h i).2 hm).2 (hin i hm)

end Twice

/-! ### The obligations -/

/-- Settles O48: every selected pin has been made an output, or an input, and that is what its bit says. -/
theorem directionReadsBack : Obligations.DirectionReadsBack := by
  intro s bank mask value hr hsound
  constructor
  · obtain ⟨ctl, evs, ht, hback, hpins⟩ := exec_setOutput_outputs hr (busCompletes_of_sound hsound _)
    obtain ⟨u, r, hu, hresp, hanswer⟩ := exec_getDirection_afterWriteCommand evs hr hsound hback
    exact ⟨_, u, ht, hu, hanswer.eq_mask (fun i hi => (hpins i hi).2) ▸ hresp⟩
  · obtain ⟨ctl, evs, ht, hback, -, hpins⟩ := exec_setInput_inputs hr (busCompletes_of_sound hsound _)
    obtain ⟨u, r, hu, hresp, hanswer⟩ := exec_getDirection_afterWriteCommand evs hr hsound hback
    exact ⟨_, u, ht, hu, hanswer.eq_zero hpins ▸ hresp⟩

/-- Settles O51: what either command makes of the controller, made twice, is what it makes once. -/
theorem repeatingSetsNothingNew : Obligations.RepeatingSetsNothingNew := by
  intro s bank mask value hr hsound
  constructor
  · refine exec_repeated hsound (fun u hsu hu => ?_) (backend_asOutputs s bank (s.clip bank mask) value)
      (asOutputs_asOutputs hr.2.1 _ _)
    rw [← hsu.clip]
    exact exec_setOutput_asOutputs (hsu.ready hr) (busCompletes_of_sound hu _)
  · refine exec_repeated hsound (fun u hsu hu => ?_) (backend_asInputs s bank (s.clip bank mask))
      (asInputs_asInputs hr.2.1 _)
    rw [← hsu.clip]
    exact exec_setInput_asInputs (hsu.ready hr) (busCompletes_of_sound hu _)

end Sys2Proof.Machine
end

section
/-! SUPPORT. Level before direction: `set_output` writes every level before the first direction, so that at every
point of its events a selected pin that is an output has the requested output bit (R91, R140). -/

namespace Sys2Proof.Machine

section Levels

variable {s : State} {b : Nat} {mask value : Word}

/-- In controller `k` a pin of `m` whose direction is no longer that of `s` is an output at its level, and
every output bit of `m` is that of `s` or the one of `value` (R91, R140). -/
def LevelLeads (s : State) (b : Nat) (m value : Word) (k : Controller) : Prop :=
  ∀ i, m.getLsbD i = true →
    ((s.withCtl k).dirCode b i ≠ s.dirCode b i →
      (s.withCtl k).dir b i = .output ∧ (s.withCtl k).out b i = value.getLsbD i) ∧
    ((s.withCtl k).out b i = s.out b i ∨ (s.withCtl k).out b i = value.getLsbD i)

/-- In controller `k` every output bit of `m` is that of `value`, and every pin of `m` has the direction it has
in `s` or is an output: so it is from the clear write on (R92, R93). -/
def LevelsSet (s : State) (b : Nat) (m value : Word) (k : Controller) : Prop :=
  ∀ i, m.getLsbD i = true → (s.withCtl k).out b i = value.getLsbD i ∧
    ((s.withCtl k).dirCode b i = s.dirCode b i ∨ (s.withCtl k).dir b i = .output)

theorem LevelsSet.levelLeads {m : Word} {k : Controller} (h : LevelsSet s b m value k) :
    LevelLeads s b m value k := by
  intro i hi
  obtain ⟨hout, hdir⟩ := h i hi
  exact ⟨fun hne => ⟨hdir.resolve_left hne, hout⟩, .inr hout⟩

theorem levelLeads_self (s : State) (b : Nat) (m value : Word) : LevelLeads s b m value s.ctl :=
  fun _ _ => ⟨fun hne => absurd rfl hne, .inl rfl⟩

theorem levelLeads_raise (hb : b < nbanks s.backend) (m value : Word) :
    LevelLeads s b m value (s.ctl.raise b (m &&& value)) := by
  refine fun i _ => ⟨fun hne => absurd (dir_withOut s.ctl _ b i).1 hne, ?_⟩
  refine (out_raise_cases hb (k := s.ctl) rfl _ b i).imp_right fun ⟨_, hx, hv⟩ => ?_
  rw [BitVec.getLsbD_and, Bool.and_eq_true] at hx
  exact hv.trans hx.2.symm

theorem backend_raise (s : State) (b : Nat) (x : Word) :
    (s.withCtl (s.ctl.raise b x)).backend = s.backend :=
  backend_storeReg (storeReg_raiseReg s b x) s rfl

/-- The set write and the clear write put every output bit of `m` at `value` and change no direction. -/
theorem levelsSet_lower_raise (hb : b < nbanks s.backend) (m value : Word) :
    LevelsSet s b m value ((s.ctl.raise b (m &&& value)).lower b (m &&& ~~~value)) := by
  intro i hi
  have hi32 : i < 32 := BitVec.lt_of_getLsbD hi
  have hcode : (s.withCtl ((s.ctl.raise b (m &&& value)).lower b (m &&& ~~~value))).dirCode b i
      = s.dirCode b i :=
    (dir_withOut (s.ctl.raise b (m &&& value)) _ b i).1.trans (dir_withOut s.ctl _ b i).1
  refine ⟨?_, .inl hcode⟩
  rw [out_lower hb (backend_raise s b _), out_raise hb (k := s.ctl) rfl]
  simp only [BitVec.getLsbD_and, BitVec.getLsbD_not, hi, hi32, decide_true, Bool.true_and, true_and]
  cases value.getLsbD i <;> rfl

/-- Once the levels are there every write of `set_output` leaves them. -/
theorem levelsSet_write {k k' : Controller} (hb : b < nbanks s.backend)
    (hk : (s.withCtl k).backend = s.backend) (hw : CommandWrite s b (.setOutput b mask value) k k')
    (h : LevelsSet s b (s.clip b mask) value k) : LevelsSet s b (s.clip b mask) value k' := by
  intro i hi
  obtain ⟨hout, hdir⟩ := h i hi
  constructor
  · rcases hw.out hb hk b i with hsame | ⟨_, -, ⟨_, hcmd, hv⟩ | ⟨hcmd, -⟩ | ⟨hcmd, -⟩⟩
    · exact hsame.trans hout
    · cases hcmd
      exact hv
    · cases hcmd
    · cases hcmd
  · rcases hw.dir hb hk (hasPin_of_clip hb hi) with ⟨hcode, hsame⟩ | ⟨_, -, ⟨_, -, hv⟩ | ⟨hcmd, -⟩⟩
    · rw [hcode, hsame]
      exact hdir
    · exact .inr hv
    · cases hcmd

theorem Access.andThen_assoc {α β γ : Type} (x : Access α) (f : α → State → Access β)
    (g : β → State → Access γ) :
    (x.andThen f).andThen g = x.andThen fun v t => (f v t).andThen g := by
  cases x <;> rfl

/-- The level writes and then `rest`: from the clear write on what `rest` needs and keeps is there. -/
theorem levels_then_along {I J : Controller → Prop} {k : Backend} (hk : s.backend = k) (hR : s.Reaches)
    (hb : b < nbanks k) {x y : Word} {rest : State → Access Unit} (hJI : ∀ c, J c → I c) (h : I s.ctl)
    (hraised : I (s.ctl.raise b x)) (hlowered : J ((s.ctl.raise b x).lower b y))
    (hrest : ∀ t, SameMap s t → J t.ctl → (rest t).Along J t) :
    (((regWrite (raiseReg k b) x s).andThen fun _ t => regWrite (lowerReg k b) y t).andThen
      fun _ t => rest t).Along I s := by
  subst hk
  rw [Access.andThen_assoc]
  refine (raise_along rfl hR hb x h hraised).andThen fun _ t ht hst hI => ?_
  have htc : t.ctl = s.ctl.raise b x :=
    regWrite_value hR (raiseReg_mem hb) (storeReg_raiseReg s b x) ht
  have hRt : t.Reaches := hst.reaches.mpr hR
  rw [← htc] at hlowered
  rw [← hst.backend] at hb ⊢
  refine (lower_along rfl hRt hb y hI (hJI _ hlowered)).andThen fun _ u hu htu _ => ?_
  have huc : u.ctl = t.ctl.lower b y :=
    regWrite_value hRt (lowerReg_mem hb) (storeReg_lowerReg t b y) hu
  exact (hrest u (hst.trans htu) (huc ▸ hlowered)).mono hJI

theorem setOutputA_levelLeads (hA : s.backend = .A) (hR : s.Reaches) (hb : b < nbanks s.backend) :
    (setOutputA b (s.clip b mask) value s).Along (LevelLeads s b (s.clip b mask) value) s := by
  refine levels_then_along hA hR (hA ▸ hb) (fun _ => LevelsSet.levelLeads) (levelLeads_self s b _ value)
    (levelLeads_raise hb _ value) (levelsSet_lower_raise hb _ value) fun t hst ht => ?_
  exact forPins_along b fselOut (s.clip b mask) (clip_word_lt hA (bank_lt_two hA hb) mask)
    (fun i hi c => levelsSet_write hb (withCtl_a_backend hA c) (.fieldOut mask value c i hi))
    pinsAscending t (hst.backend.trans hA) (hst.reaches.mpr hR) ht

theorem setOutputB_levelLeads (hB : s.backend = .B) (hR : s.Reaches) (hb : b < nbanks s.backend) :
    (setOutputB b (s.clip b mask) value s).Along (LevelLeads s b (s.clip b mask) value) s := by
  refine levels_then_along hB hR (hB ▸ hb) (fun _ => LevelsSet.levelLeads) (levelLeads_self s b _ value)
    (levelLeads_raise hb _ value) (levelsSet_lower_raise hb _ value) fun t hst ht => ?_
  obtain ⟨c, hc⟩ := ctl_of_backend_B (hst.backend.trans hB)
  rw [hc] at ht
  exact rmwOe_along b _ hc (hst.reaches.mpr hR) (bank_lt_six hB hb) ht
    (levelsSet_write hb (withCtl_b_backend hB c) (.oeOut mask value c) ht)

end Levels

/-! ### The obligation -/

/-- Settles O53: both forms write the levels first, and no direction write changes a level. -/
theorem levelBeforeDirection : Obligations.LevelBeforeDirection := by
  intro s t bank mask value hr h
  have ⟨_, hb, hR⟩ := hr
  rw [exec, execSetOutput, withBank_ready hr] at h
  exact finishWrite_along (along_byBackend (fun hA => setOutputA_levelLeads hA hR hb)
    (fun hB => setOutputB_levelLeads hB hR hb)) h

end Sys2Proof.Machine
end

section
/-! SUPPORT. The exact ends of the data commands, on a bus that completes their accesses and on one that does not
(R105 to R113, R122), and the levels that data commands in sequence give (R114 (a), (b)). -/

namespace Sys2Proof.Machine

section Data

variable {s : State} {b : Nat} {mask value : Word}

/-! ### set_dataout and clr_dataout: one write -/

theorem exec_setDataout_write (hr : s.Ready b) :
    exec (.setDataout b mask) s = finishWrite (regWrite (raiseReg s.backend b) (s.clip b mask) s) := by
  rw [exec, execSetDataout, withBank_ready hr]
  cases s.backend <;> rfl

theorem exec_clrDataout_write (hr : s.Ready b) :
    exec (.clrDataout b mask) s = finishWrite (regWrite (lowerReg s.backend b) (s.clip b mask) s) := by
  rw [exec, execClrDataout, withBank_ready hr]
  cases s.backend <;> rfl

/-- How a command of one write ends: the write done, or a fault in the state before (R66, R122). -/
theorem finishWrite_regWrite_ends {r : Reg} {v : Word} {ctl : Controller} (hR : s.Reaches)
    (hmem : r ∈ controllerRegs s.backend) (hstore : storeReg s.ctl r v = some ctl) :
    (s.BusCompletes 1 →
      finishWrite (regWrite r v s) = .next (s.afterWriteCommand ctl [s.writeEvent r v])) ∧
    (¬ s.BusCompletes 1 → finishWrite (regWrite r v s) = .fault (.busFault s)) :=
  ⟨fun hbus => by rw [regWrite_done hR hmem hstore hbus, finishWrite_done],
    fun hbus => by rw [regWrite_failed_one r v hbus, finishWrite]⟩

/-- `set_dataout`, either backend: the set register of the bank (R106, R107). -/
theorem exec_setDataout_ends (hr : s.Ready b) :
    (s.BusCompletes 1 → exec (.setDataout b mask) s
      = .next (s.afterWriteCommand (s.ctl.raise b (s.clip b mask))
        [s.writeEvent (raiseReg s.backend b) (s.clip b mask)])) ∧
    (¬ s.BusCompletes 1 → exec (.setDataout b mask) s = .fault (.busFault s)) := by
  rw [exec_setDataout_write hr]
  exact finishWrite_regWrite_ends hr.2.2 (raiseReg_mem hr.2.1) (storeReg_raiseReg s b _)

/-- `clr_dataout`, either backend: the clear register of the bank (R109, R110). -/
theorem exec_clrDataout_ends (hr : s.Ready b) :
    (s.BusCompletes 1 → exec (.clrDataout b mask) s
      = .next (s.afterWriteCommand (s.ctl.lower b (s.clip b mask))
        [s.writeEvent (lowerReg s.backend b) (s.clip b mask)])) ∧
    (¬ s.BusCompletes 1 → exec (.clrDataout b mask) s = .fault (.busFault s)) := by
  rw [exec_clrDataout_write hr]
  exact finishWrite_regWrite_ends hr.2.2 (lowerReg_mem hr.2.1) (storeReg_lowerReg s b _)

theorem backend_lower (s : State) (b : Nat) (x : Word) :
    (s.withCtl (s.ctl.lower b x)).backend = s.backend :=
  backend_storeReg (storeReg_lowerReg s b x) s rfl

/-! ### The output word of the bank -/

theorem outWord_withCtl (s : State) (k : Controller) (b : Nat) :
    (s.withCtl k).outWord b = k.outWord b := by
  cases k <;> rfl

theorem outWord_withOut (hb : b < nbanks s.backend) {k : Controller}
    (hk : (s.withCtl k).backend = s.backend) (w : Word) : (k.withOut b w).outWord b = w := by
  cases k with
  | a c => exact (CtlA.latchWord_setLatch c b b w (bank_lt_two hk.symm hb)).trans (if_pos rfl)
  | b c => exact (CtlB.dataOutWord_setDataOut c b b w (bank_lt_six hk.symm hb)).trans (if_pos rfl)

/-- Bits set and then bits cleared, in the output word (R114 (b)). -/
theorem outWord_lower_raise (hb : b < nbanks s.backend) (x y : Word) :
    ((s.ctl.raise b x).lower b y).outWord b = (s.outWord b ||| x) &&& ~~~y := by
  rw [Controller.lower, outWord_withOut hb (backend_raise s b x), Controller.raise,
    outWord_withOut hb (k := s.ctl) rfl, ← outWord_withCtl s]
  rfl

/-! ### get_datain: the reads and the answer -/

theorem validMask_of_clip (hb : b < nbanks s.backend) {i : Nat}
    (hi : (s.clip b mask).getLsbD i = true) : (s.validMask b).getLsbD i = true :=
  validMask_of_hasPin (hasPin_of_clip hb hi)

/-- Backend A: the one read fails, and nothing was done before it (R122). -/
theorem exec_getDatain_failed_A {c : CtlA} (hc : s.ctl = .a c) (hr : s.Ready b)
    (hbus : ¬ s.BusCompletes 1) : exec (.getDatain b mask) s = .fault (.busFault s) := by
  have hA := backend_a hc
  rw [exec, execGetDatain, withBank_ready hr]
  simp only [hA]
  rw [getDatainA, regRead_failed_one _ hbus, Access.andThen_failed, finishRead]

/-- The bits of data-in that the spec leaves open are those of outputs and of pins not valid: neither reaches a
reconstructed word within the clipped mask (R64, R113). -/
theorem reconstruct_dataIn_and_clip (hb : b < nbanks s.backend) (c : CtlB) (pins free : Word) :
    reconstruct (c.oeWord b) (dataInWord c (s.validMask b) b pins free) (c.dataOutWord b) &&& s.clip b mask
      = reconstruct (c.oeWord b) pins (c.dataOutWord b) &&& s.clip b mask := by
  apply word_ext
  intro i h32
  rw [BitVec.getLsbD_and, BitVec.getLsbD_and]
  cases hm : (s.clip b mask).getLsbD i with
  | false => rw [Bool.and_false, Bool.and_false]
  | true =>
    rw [reconstruct_getLsbD c pins free (validMask_of_clip hb hm)]
    simp only [reconstruct, BitVec.getLsbD_or, BitVec.getLsbD_and, BitVec.getLsbD_not, h32, decide_true]
    cases (c.oeWord b).getLsbD i <;> simp

/-! ### get_datain after set_output -/

/-- Where every asked pin is an output at its level the answer is the levels (R114 (a)). -/
theorem DatainAnswer.eq_levels {m sample r : Word} (h : DatainAnswer s b m sample r)
    (hout : ∀ i, m.getLsbD i = true → s.out b i = value.getLsbD i ∧ s.dir b i = .output) :
    r = m &&& value := by
  apply word_ext
  intro i _
  rw [BitVec.getLsbD_and]
  cases hm : m.getLsbD i with
  | false => exact (h i).1 hm
  | true =>
    obtain ⟨hlevel, hdir⟩ := hout i hm
    exact (((h i).2 hm).1 hdir).trans hlevel

end Data

/-! ### The obligations -/

/-- Settles O29: the set register of Backend A ors its word into the latch. -/
theorem setDataoutOnBackendA : Obligations.SetDataoutOnBackendA := by
  intro s c bank mask hc hr
  have hends := exec_setDataout_ends (mask := mask) hr
  rw [hc, backend_a hc] at hends
  exact hends

/-- Settles O30: the clear register of Backend A clears its word from the latch. -/
theorem clrDataoutOnBackendA : Obligations.ClrDataoutOnBackendA := by
  intro s c bank mask hc hr
  have hends := exec_clrDataout_ends (mask := mask) hr
  rw [hc, backend_a hc] at hends
  exact hends

/-- Settles O35: the set register of Backend B ors its word into data-out. -/
theorem setDataoutOnBackendB : Obligations.SetDataoutOnBackendB := by
  intro s c bank mask hc hr
  have hends := exec_setDataout_ends (mask := mask) hr
  rw [hc, backend_b hc] at hends
  exact hends

/-- Settles O36: the clear register of Backend B clears its word from data-out. -/
theorem clrDataoutOnBackendB : Obligations.ClrDataoutOnBackendB := by
  intro s c bank mask hc hr
  have hends := exec_clrDataout_ends (mask := mask) hr
  rw [hc, backend_b hc] at hends
  exact hends

/-- Settles O31: one read of the level register, whose bits at valid pins are known by the field. -/
theorem getDatainOnBackendA : Obligations.GetDatainOnBackendA := by
  intro s c bank mask hc hr
  refine ⟨fun hbus => ⟨_, exec_getDatain_done_A hc hr hbus, fun i hi => ?_⟩, exec_getDatain_failed_A hc hr⟩
  exact levelWord_getLsbD c _ _ (validMask_of_clip hr.2.1 hi)

/-- Settles O37: the three reads in closed form, and no open bit of data-in in the answer. -/
theorem getDatainOnBackendB : Obligations.GetDatainOnBackendB := by
  intro s c bank mask hc hr
  refine ⟨fun hbus => ⟨_, exec_getDatain_done_B hc hr hbus, ?_⟩, fun hbus => ?_⟩
  · exact reconstruct_dataIn_and_clip hr.2.1 c _ _
  · exact exec_faults_of_short rfl hr
      (exec_getDatain_done_B (s := s.withBus none) hc hr (busCompletes_of_sound rfl _)) rfl hbus

/-- Settles O41: the set register raises the selected output bits of its bank and no direction. -/
theorem setDataoutContract : Obligations.SetDataoutContract := by
  intro s bank mask hr hbus
  refine ⟨_, exec_setDataout_done hr hbus, afterWriteCommand_response _ _ _, out_raise hr.2.1 rfl _,
    dir_withOut s.ctl _, ?_, afterWriteCommand_sameContext _ _ (backend_raise s bank _), rfl⟩
  cases s.backend <;> rfl

/-- Settles O42: the clear register lowers the selected output bits of its bank and no direction. -/
theorem clrDataoutContract : Obligations.ClrDataoutContract := by
  intro s bank mask hr hbus
  refine ⟨_, (exec_clrDataout_ends hr).1 hbus, afterWriteCommand_response _ _ _, out_lower hr.2.1 rfl _,
    dir_withOut s.ctl _, ?_, afterWriteCommand_sameContext _ _ (backend_lower s bank _), rfl⟩
  cases s.backend <;> rfl

/-- Settles O49: after `set_output` every selected pin is an output at its level, which is what its bit says. -/
theorem levelReadsBack : Obligations.LevelReadsBack := by
  intro s bank mask value hr hsound
  obtain ⟨ctl, evs, ht, hback, hpins⟩ := exec_setOutput_outputs hr (busCompletes_of_sound hsound _)
  have hcontext := afterWriteCommand_sameContext ctl evs hback
  obtain ⟨evs', r, hu, hanswer⟩ := exec_getDatain_answers (mask := mask) (hcontext.ready hr)
    (busCompletes_of_sound (afterWriteCommand_sound hsound ctl evs) _)
  rw [hcontext.clip] at hanswer
  exact ⟨_, _, ht, hu, hanswer.eq_levels hpins ▸ afterReadCommand_response _ _ _ _⟩

/-- Settles O50: the set write and then the clear write in the output word; neither changes a direction. -/
theorem setThenClear : Obligations.SetThenClear := by
  intro s bank m1 m2 hr hsound
  have ht := exec_setDataout_done (mask := m1) hr (busCompletes_of_sound hsound _)
  have hcontext := afterWriteCommand_sameContext _
    [s.writeEvent (raiseReg s.backend bank) (s.clip bank m1)] (backend_raise s bank (s.clip bank m1))
  have hu := (exec_clrDataout_ends (mask := m2) (hcontext.ready hr)).1
    (busCompletes_of_sound (afterWriteCommand_sound hsound _ _) _)
  rw [hcontext.clip] at hu
  refine ⟨_, _, ht, hu, ?_, fun b p => ?_⟩
  · exact (outWord_withCtl s _ bank).trans (outWord_lower_raise hr.2.1 _ _)
  · exact (dir_withOut (s.ctl.raise bank (s.clip bank m1)) _ b p).1.trans (dir_withOut s.ctl _ b p).1

end Sys2Proof.Machine
end

section
/-! SUPPORT. How many events of each kind a command puts on the ports: the accesses its rule lists (R143), a
`map` request a region at most, and the `unmap` requests of `initialize` (R82, R83). -/

namespace Sys2Proof.Machine

/-! ### Events by kind -/

/-- The events hold so many register-bus accesses, `map` requests and `unmap` requests. -/
structure Traffic (evs : List Event) (accesses maps unmaps : Nat) : Prop where
  accesses : (evs.filter Event.isAccess).length = accesses
  maps : (evs.filter Event.isMap).length = maps
  unmaps : (evs.filter Event.isUnmap).length = unmaps

theorem Traffic.append {xs ys : List Event} {a m u a' m' u' : Nat} (hx : Traffic xs a m u)
    (hy : Traffic ys a' m' u') : Traffic (xs ++ ys) (a + a') (m + m') (u + u') := by
  obtain ⟨rfl, rfl, rfl⟩ := hx
  obtain ⟨rfl, rfl, rfl⟩ := hy
  constructor <;> rw [List.filter_append, List.length_append]

theorem traffic_respond (r : Response) : Traffic [.respond r] 0 0 0 := ⟨rfl, rfl, rfl⟩

theorem not_request_of_isAccess {e : Event} (h : e.isAccess = true) :
    e.isMap = false ∧ e.isUnmap = false := by
  cases e with
  | read | write => exact ⟨rfl, rfl⟩
  | _ => cases h

theorem isUnmap_of_isMap {e : Event} (h : e.isMap = true) : e.isUnmap = false := by
  cases e with
  | map => rfl
  | _ => cases h

theorem isMap_of_isUnmap {e : Event} (h : e.isUnmap = true) : e.isMap = false := by
  cases e with
  | unmap => rfl
  | _ => cases h

section OneKind

variable {evs : List Event}

theorem length_filter_of_none {p : Event → Bool} (h : ∀ e ∈ evs, p e = false) :
    (evs.filter p).length = 0 := by
  simpa using h

theorem traffic_accesses (h : ∀ e ∈ evs, e.isAccess = true) : Traffic evs evs.length 0 0 :=
  ⟨List.length_filter_eq_length_iff.mpr h,
    length_filter_of_none fun e he => (not_request_of_isAccess (h e he)).1,
    length_filter_of_none fun e he => (not_request_of_isAccess (h e he)).2⟩

theorem traffic_maps (h : ∀ e ∈ evs, e.isMap = true) : Traffic evs 0 evs.length 0 :=
  ⟨length_filter_of_none fun e he => isAccess_of_isMap (h e he), List.length_filter_eq_length_iff.mpr h,
    length_filter_of_none fun e he => isUnmap_of_isMap (h e he)⟩

theorem traffic_unmaps (h : ∀ e ∈ evs, e.isUnmap = true) : Traffic evs 0 0 evs.length :=
  ⟨length_filter_of_none fun e he => isAccess_of_isUnmap (h e he),
    length_filter_of_none fun e he => isMap_of_isUnmap (h e he), List.length_filter_eq_length_iff.mpr h⟩

end OneKind

/-! ### The accesses of a sequence that completes -/

/-- A sequence that completes has put `n` events on the ports; they are its accesses (`BusFrame.added`). -/
def Access.Makes {α : Type} (n : Nat) (s : State) (x : Access α) : Prop :=
  ∀ v t, x = .done v t → t.trace.length = s.trace.length + n

theorem done_makes {α : Type} (v : α) (s : State) : (Access.done v s).Makes 0 s := by
  intro w t h
  cases h
  rfl

theorem Access.Makes.andThen {α β : Type} {s : State} {x : Access α} {f : α → State → Access β}
    {m n : Nat} (hx : x.Makes m s) (hf : ∀ v t, (f v t).Makes n t) : (x.andThen f).Makes (m + n) s := by
  intro w t h
  cases x with
  | failed u => cases h
  | done v u =>
    have hfirst := hx v u rfl
    have hrest := hf v u w t h
    omega

theorem memRead_makes (a : Addr) (s : State) : (memRead a s).Makes 1 s := by
  intro v t h
  rw [memRead] at h
  split at h
  · cases h
  · next s1 hb =>
    obtain ⟨l, rfl⟩ := busTick_eq hb
    split at h
    · cases h
    · split at h
      · cases h
      · cases h
        simp

theorem memWrite_makes (a : Addr) (v : Word) (s : State) : (memWrite a v s).Makes 1 s := by
  intro _ t h
  rw [memWrite] at h
  split at h
  · cases h
  · next s1 hb =>
    obtain ⟨l, rfl⟩ := busTick_eq hb
    split at h
    · cases h
    · split at h
      · cases h
      · cases h
        simp

theorem regRead_makes (r : Reg) (s : State) : (regRead r s).Makes 1 s := memRead_makes _ s

theorem regWrite_makes (r : Reg) (v : Word) (s : State) : (regWrite r v s).Makes 1 s :=
  memWrite_makes _ v s

theorem rmwField_makes (b : Nat) (code : Word) (i : Nat) (s : State) : (rmwField b code i s).Makes 2 s :=
  (regRead_makes _ s).andThen fun _ t => regWrite_makes _ _ t

theorem rmwOe_makes (b : Nat) (f : Word → Word) (s : State) : (rmwOe b f s).Makes 2 s :=
  (regRead_makes _ s).andThen fun _ t => regWrite_makes _ _ t

theorem forPins_makes {body : Nat → State → Access Unit} {n : Nat} (m : Word)
    (hbody : ∀ i s, (body i s).Makes n s) (l : List Nat) :
    ∀ s, (forPins m body l s).Makes (n * (l.filter fun i => m.getLsbD i).length) s := by
  induction l with
  | nil => exact done_makes ()
  | cons i l ih =>
    intro s
    rw [forPins, List.filter_cons]
    split
    · rw [List.length_cons, Nat.mul_succ, Nat.add_comm]
      exact (hbody i s).andThen fun _ t => ih t
    · exact ih s

theorem directionLoop_makes (b : Nat) (code m : Word) (s : State) :
    (forPins m (rmwField b code) pinsAscending s).Makes (2 * (selectedPins m).length) s :=
  forPins_makes m (rmwField_makes b code) pinsAscending s

theorem readDirections_makes (b : Nat) (m : Word) (l : List Nat) :
    ∀ (r : Word) (s : State),
      (readDirections b m l r s).Makes (l.filter fun i => m.getLsbD i).length s := by
  induction l with
  | nil => exact done_makes
  | cons i l ih =>
    intro r s
    rw [readDirections, List.filter_cons]
    split
    · rw [List.length_cons, Nat.add_comm]
      exact (regRead_makes _ s).andThen fun _ t => ih _ t
    · exact ih r s

theorem setOutputA_makes (b : Nat) (m value : Word) (s : State) :
    (setOutputA b m value s).Makes (2 + 2 * (selectedPins m).length) s :=
  Access.Makes.andThen ((regWrite_makes _ _ s).andThen fun _ t => regWrite_makes _ _ t)
    fun _ t => directionLoop_makes b fselOut m t

theorem setOutputB_makes (b : Nat) (m value : Word) (s : State) : (setOutputB b m value s).Makes 4 s :=
  Access.Makes.andThen ((regWrite_makes _ _ s).andThen fun _ t => regWrite_makes _ _ t)
    fun _ t => rmwOe_makes b _ t

theorem setInputA_makes (b : Nat) (m : Word) (s : State) :
    (setInputA b m s).Makes (2 * (selectedPins m).length) s :=
  directionLoop_makes b fselIn m s

theorem setInputB_makes (b : Nat) (m : Word) (s : State) : (setInputB b m s).Makes 2 s :=
  rmwOe_makes b _ s

theorem getDirectionA_makes (b : Nat) (m : Word) (s : State) :
    (getDirectionA b m s).Makes (selectedPins m).length s :=
  readDirections_makes b m pinsAscending 0 s

theorem getDirectionB_makes (b : Nat) (m : Word) (s : State) : (getDirectionB b m s).Makes 1 s :=
  (regRead_makes _ s).andThen fun _ t => done_makes _ t

theorem getDatainA_makes (b : Nat) (m : Word) (s : State) : (getDatainA b m s).Makes 1 s :=
  (regRead_makes _ s).andThen fun _ t => done_makes _ t

theorem getDatainB_makes (b : Nat) (m : Word) (s : State) : (getDatainB b m s).Makes 3 s :=
  (regRead_makes _ s).andThen fun _ t =>
    (regRead_makes _ t).andThen fun _ u =>
      (regRead_makes _ u).andThen fun _ v => done_makes _ v

/-! ### The accesses of a per-bank command -/

/-- The response is one event more. -/
theorem Finishes.length_trace {α : Type} {fin : Access α → Host.Outcome State Fault Refusal}
    (hfin : Finishes fin) {s t : State} {x : Access α} {n : Nat} (hx : x.Makes n s)
    (h : fin x = .next t) : t.trace.length = s.trace.length + n + 1 := by
  cases x with
  | failed u =>
    rw [hfin.failed] at h
    cases h
  | done v u =>
    obtain ⟨t', r, hdone, hresp⟩ := hfin.done v u
    rw [hdone] at h
    cases h
    rw [hresp, List.length_append, hx v u rfl]
    rfl

/-- An operation with its two backend forms, of the clipped mask: its accesses and the response. -/
theorem length_trace_byBackend {s t : State} {i : Instr} {b : Nat} {mask : Word} {α : Type}
    {fA fB : Word → State → Access α} {fin : Access α → Host.Outcome State Fault Refusal}
    (hexec : exec i s = withBank b s fun u =>
      fin (match u.backend with | .A => fA (u.clip b mask) u | .B => fB (u.clip b mask) u))
    (hfin : Finishes fin) (h : exec i s = .next t)
    (hA : s.backend = .A → (fA (s.clip b mask) s).Makes (accessCount s i) s)
    (hB : s.backend = .B → (fB (s.clip b mask) s).Makes (accessCount s i) s) :
    t.trace.length = s.trace.length + accessCount s i + 1 := by
  have hrun := withBank_next (hexec ▸ h)
  cases hk : s.backend with
  | A =>
    simp only [hk] at hrun
    exact hfin.length_trace (hA hk) hrun
  | B =>
    simp only [hk] at hrun
    exact hfin.length_trace (hB hk) hrun

/-- A per-bank command that completes puts its accesses and its response on the ports (R92, R93, R95, R96,
R98, R99, R106, R107, R109, R110, R112, R113). -/
theorem exec_perBank_length_trace {i : Instr} {bm : Nat × Word} (hi : bankMask i = some bm) {s t : State}
    (h : exec i s = .next t) : t.trace.length = s.trace.length + accessCount s i + 1 := by
  cases i with
  | initializeContext => cases hi
  | finalizeContext => cases hi
  | setOutput b mask value =>
    refine length_trace_byBackend (fA := fun m => setOutputA b m value) (fB := fun m => setOutputB b m value)
      rfl finishWrite_finishes h (fun hA => ?_) fun hB => ?_
    · simpa only [accessCount, hA] using setOutputA_makes b _ value s
    · simpa only [accessCount, hB] using setOutputB_makes b _ value s
  | setInput b mask =>
    refine length_trace_byBackend (fA := setInputA b) (fB := setInputB b)
      rfl finishWrite_finishes h (fun hA => ?_) fun hB => ?_
    · simpa only [accessCount, hA] using setInputA_makes b _ s
    · simpa only [accessCount, hB] using setInputB_makes b _ s
  | getDirection b mask =>
    refine length_trace_byBackend (fA := getDirectionA b) (fB := getDirectionB b)
      rfl finishRead_finishes h (fun hA => ?_) fun hB => ?_
    · simpa only [accessCount, hA] using getDirectionA_makes b _ s
    · simpa only [accessCount, hB] using getDirectionB_makes b _ s
  | setDataout b =>
    exact length_trace_byBackend (fA := regWrite (.set b)) (fB := regWrite (.setDataOut b))
      rfl finishWrite_finishes h (fun _ => regWrite_makes _ _ s) fun _ => regWrite_makes _ _ s
  | clrDataout b =>
    exact length_trace_byBackend (fA := regWrite (.clr b)) (fB := regWrite (.clearDataOut b))
      rfl finishWrite_finishes h (fun _ => regWrite_makes _ _ s) fun _ => regWrite_makes _ _ s
  | getDatain b mask =>
    refine length_trace_byBackend (fA := getDatainA b) (fB := getDatainB b)
      rfl finishRead_finishes h (fun hA => ?_) fun hB => ?_
    · simpa only [accessCount, hA] using getDatainA_makes b _ s
    · simpa only [accessCount, hB] using getDatainB_makes b _ s

/-- What a per-bank command that completes puts on the ports are accesses, then the response (R65). -/
theorem AccessEnd.events_of_next {s t : State} {o : Host.Outcome State Fault Refusal}
    (h : AccessEnd s o) (ht : o = .next t) :
    ∃ evs r, t.trace = s.trace ++ (evs ++ [.respond r]) ∧ ∀ e ∈ evs, e.isAccess = true := by
  cases h with
  | wrote hu =>
    cases ht
    obtain ⟨evs, htrace, -, -, hacc⟩ := hu.added
    exact ⟨evs, ⟨.ok, 0⟩, by simp [htrace], hacc⟩
  | answered r hu =>
    cases ht
    obtain ⟨evs, htrace, -, -, hacc⟩ := hu.added
    exact ⟨evs, ⟨.ok, r⟩, by simp [htrace], hacc⟩
  | faulted => cases ht

theorem exec_perBank_traffic {i : Instr} {bm : Nat × Word} (hi : bankMask i = some bm) {s t : State}
    (h : exec i s = .next t) :
    ∃ evs, t.trace = s.trace ++ evs ∧ Traffic evs (accessCount s i) 0 0 := by
  obtain ⟨run, hrun, hend⟩ := exec_perBank hi
  obtain ⟨evs, r, htrace, hacc⟩ := (hend s).events_of_next (withBank_next (hrun s ▸ h))
  have hcount : evs.length = accessCount s i := by
    have hlen := exec_perBank_length_trace hi h
    simp only [htrace, List.length_append, List.length_singleton] at hlen
    omega
  exact ⟨_, htrace, hcount ▸ (traffic_accesses hacc).append (traffic_respond r)⟩

/-! ### The requests of the lifecycle commands -/

theorem releaseAll_traffic (s : State) :
    ∃ evs u, (releaseAll s).trace = s.trace ++ evs ∧ Traffic evs 0 0 u := by
  obtain ⟨-, -, -, -, -, -, -, -, -, evs, htrace, -, hunmap, -⟩ := releaseFrom_frame s.windows 0 s
  exact ⟨evs, _, htrace, traffic_unmaps hunmap⟩

theorem execFinalize_traffic (s : State) :
    ∃ evs u, ((releaseAll s).loseError.respond .ok 0).trace = s.trace ++ evs ∧ Traffic evs 0 0 u := by
  obtain ⟨evs, u, htrace, hevs⟩ := releaseAll_traffic s
  exact ⟨_, _, by simp [htrace], hevs.append (traffic_respond ⟨.ok, 0⟩)⟩

/-- `initialize` asks for each region once at most, whether or not the region records are those of a state
without a context. -/
theorem openContext_traffic (s : State) :
    ∃ evs m u, (openContext s).trace = s.trace ++ evs ∧ Traffic evs 0 m u ∧ m ≤ s.windows.length := by
  obtain ⟨-, -, -, -, -, -, -, -, xs, hxs, -, hmap, hle⟩ := mapFrom_frame s.windows 0 s
  rw [openContext]
  cases hm : mapFrom 0 s.windows s with
  | allMapped t =>
    rw [hm] at hxs
    exact ⟨_, _, _, by simp [show t.trace = _ from hxs],
      (traffic_maps hmap).append (traffic_respond ⟨.ok, 0⟩), hle⟩
  | failedWith e t =>
    rw [hm] at hxs
    obtain ⟨ys, u, hys, hunmap⟩ := releaseAll_traffic t
    exact ⟨_, _, _, by simp [takeMapFailure, hys, show t.trace = _ from hxs],
      ((traffic_maps hmap).append hunmap).append (traffic_respond ⟨.mapFail, e.val⟩), hle⟩

/-- The platform grants the next `n` requests, or refuses one of them after granting those before (R80). -/
theorem grants_or_refuses (s : State) (n : Nat) :
    (∃ hs : List Addr, hs.length = n ∧ s.Grants hs) ∨
      ∃ (hs : List Addr) (e : ErrCode), hs.length < n ∧ s.Grants hs ∧
        s.answerAt hs.length = .fail e := by
  induction n with
  | zero => exact .inl ⟨[], rfl, fun r hr => by simp at hr⟩
  | succ n ih =>
    rcases ih with ⟨hs, rfl, hg⟩ | ⟨hs, e, hlt, hrefused⟩
    · cases hlast : s.answerAt hs.length with
      | fail e => exact .inr ⟨hs, e, Nat.lt_succ_self _, hg, hlast⟩
      | ok h =>
        refine .inl ⟨hs ++ [h], List.length_append, fun r hr => ?_⟩
        rcases Nat.lt_or_eq_of_le (Nat.le_of_lt_succ (by simpa using hr)) with hlt | rfl
        · rw [List.getElem_append_left hlt]
          exact hg r hlt
        · rw [List.getElem_concat_length rfl]
          exact hlast
    · exact .inr ⟨hs, e, Nat.lt_succ_of_lt hlt, hrefused⟩

theorem grantEvents_maps (ws : List Window) : ∀ hs, ∀ e ∈ grantEvents ws hs, e.isMap = true := by
  induction ws with
  | nil => intro hs e he; simp [grantEvents] at he
  | cons w ws ih =>
    intro hs e he
    cases hs with
    | nil => simp [grantEvents] at he
    | cons h hs =>
      rcases List.mem_cons.mp he with rfl | he
      · rfl
      · exact ih hs e he

theorem unmapEvents_unmaps (ws : List Window) (hs : List Addr) :
    ∀ e ∈ unmapEvents ws hs, e.isUnmap = true := by
  rw [← releaseEvents_handles ws hs [] (by simp)]
  exact releaseEvents_unmaps ws _

theorem length_grantEvents {ws : List Window} {hs : List Addr} (h : hs.length ≤ ws.length) :
    (grantEvents ws hs).length = hs.length := by
  rw [grantEvents, List.length_zipWith, Nat.min_eq_right h]

/-- From a state without a context, `initialize` unmaps the regions granted before the one refused, so never
all of them (R83). -/
theorem openContext_traffic_of_noContext {s : State} (hinv : s.ContextInv) (hctx : s.ctx = .none) :
    ∃ evs m u, (openContext s).trace = s.trace ++ evs ∧ Traffic evs 0 m u ∧
      m ≤ s.windows.length ∧ (u + 1 ≤ s.windows.length ∨ u = 0) := by
  rcases grants_or_refuses s s.windows.length with ⟨hs, hl, hg⟩ | ⟨hs, e, hlt, hg, hfail⟩
  · rw [openContext_granted hinv.1 hl hg]
    refine ⟨_, _, _, rfl, (traffic_maps (grantEvents_maps _ hs)).append (traffic_respond _), ?_, .inr rfl⟩
    exact Nat.le_of_eq ((length_grantEvents (Nat.le_of_eq hl)).trans hl)
  · rw [openContext_failed hinv hctx hlt hg hfail]
    have hrefused : Traffic [.map (s.windows[hs.length]).base (s.windows[hs.length]).len (.fail e)] 0 1 0 :=
      ⟨rfl, rfl, rfl⟩
    refine ⟨_, _, _, rfl, (((traffic_maps (grantEvents_maps _ hs)).append hrefused).append
      (traffic_unmaps (unmapEvents_unmaps _ hs))).append (traffic_respond _), ?_, .inl ?_⟩
    · rw [length_grantEvents (Nat.le_of_lt hlt)]
      omega
    · rw [length_unmapEvents (Nat.le_of_lt hlt)]
      omega

/-! ### The events of a command -/

/-- The bounds of R143 on the register-bus accesses of a command. -/
def accessBound : Instr → Backend → Nat
  | .initializeContext, _ => 0
  | .finalizeContext, _ => 0
  | .setOutput _ _ _, .A => 66
  | .setOutput _ _ _, .B => 4
  | .setInput _ _, .A => 64
  | .setInput _ _, .B => 2
  | .getDirection _ _, .A => 32
  | .getDirection _ _, .B => 1
  | .setDataout _ _, _ => 1
  | .clrDataout _ _, _ => 1
  | .getDatain _ _, .A => 1
  | .getDatain _ _, .B => 3

theorem length_selectedPins_le (m : Word) : (selectedPins m).length ≤ 32 :=
  Nat.le_trans (List.length_filter_le _ pinsAscending) (Nat.le_of_eq List.length_range)

theorem accessCount_le_accessBound (s : State) (i : Instr) : accessCount s i ≤ accessBound i s.backend := by
  cases i with
  | setOutput b mask | setInput b mask | getDirection b mask =>
    have hpins := length_selectedPins_le (s.clip b mask)
    rw [accessCount]
    cases s.backend <;> simp only [accessBound] <;> omega
  | getDatain =>
    rw [accessCount]
    cases s.backend <;> exact Nat.le_refl _
  | initializeContext | finalizeContext | setDataout | clrDataout => exact Nat.le_refl _

/-- What a command that has a next state puts on the ports. -/
theorem exec_traffic {i : Instr} {s t : State} (h : exec i s = .next t) :
    ∃ evs m u, t.trace = s.trace ++ evs ∧ Traffic evs (accessCount s i) m u ∧ m ≤ s.windows.length ∧
      (s.ContextInv → i = .initializeContext → u + 1 ≤ s.windows.length ∨ u = 0) := by
  cases hi : bankMask i with
  | none =>
    rcases bankMask_eq_none hi with rfl | rfl
    · obtain ⟨hctx, rfl⟩ := execInitialize_endsIn (.inl h)
      by_cases hinv : s.ContextInv
      · obtain ⟨evs, m, u, htrace, hevs, hm, hu⟩ := openContext_traffic_of_noContext hinv hctx
        exact ⟨evs, m, u, htrace, hevs, hm, fun _ _ => hu⟩
      · obtain ⟨evs, m, u, htrace, hevs, hm⟩ := openContext_traffic s
        exact ⟨evs, m, u, htrace, hevs, hm, fun h => absurd h hinv⟩
    · obtain ⟨-, rfl⟩ := execFinalize_endsIn (.inl h)
      obtain ⟨evs, u, htrace, hevs⟩ := execFinalize_traffic s
      exact ⟨evs, 0, u, htrace, hevs, Nat.zero_le _, fun _ hi' => by cases hi'⟩
  | some bm =>
    obtain ⟨evs, htrace, hevs⟩ := exec_perBank_traffic hi h
    exact ⟨evs, 0, 0, htrace, hevs, Nat.zero_le _, fun _ _ => .inr rfl⟩

/-! ### The obligation -/

/-- Settles O54: a sequence of accesses that completes has made each of its accesses, a bank has 32 pins to
select at most, and `initialize` releases the regions mapped before the one refused. -/
theorem commandsMakeBoundedAccesses : Obligations.CommandsMakeBoundedAccesses := by
  intro s t i h
  obtain ⟨evs, m, u, htrace, ⟨haccesses, rfl, rfl⟩, hmaps, hunmaps⟩ := exec_traffic h
  exact ⟨evs, htrace, haccesses, accessCount_le_accessBound s i, hmaps, hunmaps⟩

end Sys2Proof.Machine
end
